-- ==== Sys2Proof/Word.lean ====
section
/-! DEFINITION. The word types of the core (spec/00_scope.md R6, R8): widths only. -/

namespace Sys2Proof

/-- A general register, a control register or a bus long (R6). -/
abbrev Word := BitVec 32

/-- One byte of the address space (R70). -/
abbrev Byte := BitVec 8

/-- An opcode word or a bus word (R6, R100). -/
abbrev Half := BitVec 16

/-- The 64-bit accumulator (R48). -/
abbrev Acc := BitVec 64

/-- A register number of an operand field (R102). -/
abbrev Reg := BitVec 5

/-- The raw 5-bit immediate of an operand field, before any reading of R105. -/
abbrev Imm5 := BitVec 5

/-- The 5-bit condition code of a branch (R50). -/
abbrev CondCode := BitVec 5

end Sys2Proof
end

