-- ==== Sys2Proof/Config.lean ====
section
/-! DEFINITION. The variant tag and the implementation parameters of spec/00_scope.md R2 and R5, with the
spec's defaults. The spec leaves no value free, so no opaque constant stands here. -/

namespace Sys2Proof

/-- The variant tag `V` (R2): the graphics processor or the signal processor. -/
inductive Variant where
  | gpu
  | dsp
deriving DecidableEq, Repr

/-- The parameters a model takes (R5). They are arguments of the machine: State carries one `Config`, no step
changes it, and a statement about every state is a statement about every configuration. -/
structure Config where
  variant           : Variant
  /-- `NLEVELS` (R321). -/
  nlevels           : Nat
  /-- `WIN_LO`, `WIN_HI` (R76): inclusive bounds, compared on all 32 bits (R78). -/
  winLo             : Word
  winHi             : Word
  /-- `VECTOR_BASE` (R332). -/
  vectorBase        : Word
  /-- `CTRL_BASE` (R82): a bus address. -/
  ctrlBase          : Nat
  /-- `CTRL_MAPPED` (R82). -/
  ctrlMapped        : Bool
  /-- `NCTRL` (R35). -/
  nctrl             : Nat
  /-- `CORE_VERSION` (R287). -/
  coreVersion       : BitVec 4
  /-- `LAG_ON_EXTERNAL_SWAP` (R58). -/
  lagOnExternalSwap : Bool
  /-- `FETCH_COHERENT` (R90). -/
  fetchCoherent     : Bool
  /-- With `FETCH_COHERENT` false, whether a start counts the core's stores anew, as U8 says, or only `Reset`, as
  R90 says (DESIGN CHOICE, log entry 14: the model's own parameter, so that both readings are covered). -/
  startForgetsStores : Bool
deriving DecidableEq, Repr

/-- The `GPU` column of R5. -/
def Config.gpu : Config where
  variant := .gpu
  nlevels := 5
  winLo := 0x00F03000#32
  winHi := 0x00F03FFF#32
  vectorBase := 0x00F03000#32
  ctrlBase := 0xF02100
  ctrlMapped := true
  nctrl := 10
  coreVersion := 0#4
  lagOnExternalSwap := false
  fetchCoherent := true
  startForgetsStores := true

/-- The `DSP` column of R5. -/
def Config.dsp : Config where
  variant := .dsp
  nlevels := 6
  winLo := 0x00F1B000#32
  winHi := 0x00F1CFFF#32
  vectorBase := 0x00F1B000#32
  ctrlBase := 0xF1A100
  ctrlMapped := true
  nctrl := 10
  coreVersion := 0#4
  lagOnExternalSwap := false
  fetchCoherent := true
  startForgetsStores := true

/-- The configuration of `State.reset` and of `decodeTableWord`. DESIGN CHOICE, log entry 1: the spec defines two
machines and names neither as the first. -/
def Config.initial : Config := Config.gpu

end Sys2Proof
end

