-- ==== Sys2Proof/Syntax.lean ====
section
/-! DEFINITION. The instructions: one constructor for each row of spec/opcode_table.json, in the table's order.
An operand is the 5-bit field as it is encoded (spec/30_encoding.md R102, R103); fields that R103 calls ignored
are not kept. `rs`, `n` stand for `f1` and `rd`, `cc` for `f2`. -/

namespace Sys2Proof

/-- The instructions of both variants (R108). -/
inductive Instr where
  /-- `ADD Rs,Rd` (R132). -/
  | add (rs rd : Reg)
  /-- `ADDC Rs,Rd` (R133). -/
  | addc (rs rd : Reg)
  /-- `ADDQ #n,Rd` (R134). -/
  | addq (n : Imm5) (rd : Reg)
  /-- `ADDQT #n,Rd` (R135). -/
  | addqt (n : Imm5) (rd : Reg)
  /-- `SUB Rs,Rd` (R136). -/
  | sub (rs rd : Reg)
  /-- `SUBC Rs,Rd` (R137). -/
  | subc (rs rd : Reg)
  /-- `SUBQ #n,Rd` (R138). -/
  | subq (n : Imm5) (rd : Reg)
  /-- `SUBQT #n,Rd` (R139). -/
  | subqt (n : Imm5) (rd : Reg)
  /-- `NEG Rd` (R140). -/
  | neg (rd : Reg)
  /-- `AND Rs,Rd` (R141). -/
  | and (rs rd : Reg)
  /-- `OR Rs,Rd` (R142). -/
  | or (rs rd : Reg)
  /-- `XOR Rs,Rd` (R143). -/
  | xor (rs rd : Reg)
  /-- `NOT Rd` (R144). -/
  | not (rd : Reg)
  /-- `BTST #n,Rd` (R145). -/
  | btst (n : Imm5) (rd : Reg)
  /-- `BSET #n,Rd` (R146). -/
  | bset (n : Imm5) (rd : Reg)
  /-- `BCLR #n,Rd` (R147). -/
  | bclr (n : Imm5) (rd : Reg)
  /-- `MULT Rs,Rd` (R170). -/
  | mult (rs rd : Reg)
  /-- `IMULT Rs,Rd` (R171). -/
  | imult (rs rd : Reg)
  /-- `IMULTN Rs,Rd`, the chain head (R172, R173). -/
  | imultn (rs rd : Reg)
  /-- `RESMAC Rd` (R175). -/
  | resmac (rd : Reg)
  /-- `IMACN Rs,Rd` (R174). -/
  | imacn (rs rd : Reg)
  /-- `DIV Rs,Rd` (R186). -/
  | div (rs rd : Reg)
  /-- `ABS Rd` (R150). -/
  | abs (rd : Reg)
  /-- `SH Rs,Rd` (R191). -/
  | sh (rs rd : Reg)
  /-- `SHLQ #k,Rd`, `n` the encoded field `32 - k` (R193). -/
  | shlq (n : Imm5) (rd : Reg)
  /-- `SHRQ #n,Rd` (R194). -/
  | shrq (n : Imm5) (rd : Reg)
  /-- `SHA Rs,Rd` (R192). -/
  | sha (rs rd : Reg)
  /-- `SHARQ #n,Rd` (R195). -/
  | sharq (n : Imm5) (rd : Reg)
  /-- `ROR Rs,Rd` (R196). -/
  | ror (rs rd : Reg)
  /-- `RORQ #n,Rd` (R197). -/
  | rorq (n : Imm5) (rd : Reg)
  /-- `CMP Rs,Rd` (R148). -/
  | cmp (rs rd : Reg)
  /-- `CMPQ #n,Rd` (R149). -/
  | cmpq (n : Imm5) (rd : Reg)
  /-- `SUBQMOD #n,Rd`, `DSP` only (R263). -/
  | subqmod (n : Imm5) (rd : Reg)
  /-- `SAT8 Rd`, `GPU` only (R251). -/
  | sat8 (rd : Reg)
  /-- `SAT16S Rd`, `DSP` only (R257). -/
  | sat16s (rd : Reg)
  /-- `SAT16 Rd`, `GPU` only (R252). -/
  | sat16 (rd : Reg)
  /-- `MOVE Rs,Rd` (R270). -/
  | move (rs rd : Reg)
  /-- `MOVEQ #n,Rd` (R271). -/
  | moveq (n : Imm5) (rd : Reg)
  /-- `MOVETA Rs,Rd` (R273). -/
  | moveta (rs rd : Reg)
  /-- `MOVEFA Rs,Rd` (R274). -/
  | movefa (rs rd : Reg)
  /-- `MOVEI #imm32,Rd` (R272). -/
  | movei (imm : Word) (rd : Reg)
  /-- `LOADB (Rs),Rd` (R209). -/
  | loadb (rs rd : Reg)
  /-- `LOADW (Rs),Rd` (R210). -/
  | loadw (rs rd : Reg)
  /-- `LOAD (Rs),Rd` (R211). -/
  | load (rs rd : Reg)
  /-- `SAT32S Rd`, `DSP` only (R258). -/
  | sat32s (rd : Reg)
  /-- `LOADP (Rs),Rd`, `GPU` only (R212). -/
  | loadp (rs rd : Reg)
  /-- `LOAD (R14+n),Rd` (R213). -/
  | loadR14n (n : Imm5) (rd : Reg)
  /-- `LOAD (R15+n),Rd` (R214). -/
  | loadR15n (n : Imm5) (rd : Reg)
  /-- `STOREB Rd,(Rs)` (R221). -/
  | storeb (rs rd : Reg)
  /-- `STOREW Rd,(Rs)` (R222). -/
  | storew (rs rd : Reg)
  /-- `STORE Rd,(Rs)` (R223). -/
  | store (rs rd : Reg)
  /-- `MIRROR Rd`, `DSP` only (R259). -/
  | mirror (rd : Reg)
  /-- `STOREP Rd,(Rs)`, `GPU` only (R224). -/
  | storep (rs rd : Reg)
  /-- `STORE Rd,(R14+n)` (R225). -/
  | storeR14n (n : Imm5) (rd : Reg)
  /-- `STORE Rd,(R15+n)` (R226). -/
  | storeR15n (n : Imm5) (rd : Reg)
  /-- `MOVE PC,Rd` (R275). -/
  | movePc (rd : Reg)
  /-- `JUMP cc,(Rs)` (R236). -/
  | jump (rs : Reg) (cc : CondCode)
  /-- `JR cc,n` (R237). -/
  | jr (n : Imm5) (cc : CondCode)
  /-- `MMULT Rs,Rd` (R177). -/
  | mmult (rs rd : Reg)
  /-- `MTOI Rs,Rd` (R276). -/
  | mtoi (rs rd : Reg)
  /-- `NORMI Rs,Rd` (R277). -/
  | normi (rs rd : Reg)
  /-- `NOP` (R278). -/
  | nop
  /-- `LOAD (R14+Rs),Rd` (R215). -/
  | loadR14r (rs rd : Reg)
  /-- `LOAD (R15+Rs),Rd` (R216). -/
  | loadR15r (rs rd : Reg)
  /-- `STORE Rd,(R14+Rs)` (R227). -/
  | storeR14r (rs rd : Reg)
  /-- `STORE Rd,(R15+Rs)` (R228). -/
  | storeR15r (rs rd : Reg)
  /-- `ILLEGAL`, `DSP` only (R264). -/
  | illegal
  /-- `SAT24 Rd`, `GPU` only (R253). -/
  | sat24 (rd : Reg)
  /-- `ADDQMOD #n,Rd`, `DSP` only (R262). -/
  | addqmod (n : Imm5) (rd : Reg)
  /-- `PACK Rd`, `GPU` only (R254). -/
  | pack (rd : Reg)
  /-- `UNPACK Rd`, `GPU` only (R255). -/
  | unpack (rd : Reg)
deriving DecidableEq, Repr

end Sys2Proof
end

