-- ==== Sys2Proof/WellFormed.lean ====
section
/-! DEFINITION. Which instructions a variant has (spec/30_encoding.md R108, R109; spec/46_variant_only.md R250).
Every operand field is five bits wide by its type, so the one thing that can be wrong with an instruction is that
the variant has no encoding for it. -/

namespace Sys2Proof

/-- The variants whose dispatch table holds the instruction: `none` is both (R109). -/
def Instr.onlyOn : Instr → Option Variant
  | .add _ _ => none
  | .addc _ _ => none
  | .addq _ _ => none
  | .addqt _ _ => none
  | .sub _ _ => none
  | .subc _ _ => none
  | .subq _ _ => none
  | .subqt _ _ => none
  | .neg _ => none
  | .and _ _ => none
  | .or _ _ => none
  | .xor _ _ => none
  | .not _ => none
  | .btst _ _ => none
  | .bset _ _ => none
  | .bclr _ _ => none
  | .mult _ _ => none
  | .imult _ _ => none
  | .imultn _ _ => none
  | .resmac _ => none
  | .imacn _ _ => none
  | .div _ _ => none
  | .abs _ => none
  | .sh _ _ => none
  | .shlq _ _ => none
  | .shrq _ _ => none
  | .sha _ _ => none
  | .sharq _ _ => none
  | .ror _ _ => none
  | .rorq _ _ => none
  | .cmp _ _ => none
  | .cmpq _ _ => none
  | .subqmod _ _ => some .dsp
  | .sat8 _ => some .gpu
  | .sat16s _ => some .dsp
  | .sat16 _ => some .gpu
  | .move _ _ => none
  | .moveq _ _ => none
  | .moveta _ _ => none
  | .movefa _ _ => none
  | .movei _ _ => none
  | .loadb _ _ => none
  | .loadw _ _ => none
  | .load _ _ => none
  | .sat32s _ => some .dsp
  | .loadp _ _ => some .gpu
  | .loadR14n _ _ => none
  | .loadR15n _ _ => none
  | .storeb _ _ => none
  | .storew _ _ => none
  | .store _ _ => none
  | .mirror _ => some .dsp
  | .storep _ _ => some .gpu
  | .storeR14n _ _ => none
  | .storeR15n _ _ => none
  | .movePc _ => none
  | .jump _ _ => none
  | .jr _ _ => none
  | .mmult _ _ => none
  | .mtoi _ _ => none
  | .normi _ _ => none
  | .nop => none
  | .loadR14r _ _ => none
  | .loadR15r _ _ => none
  | .storeR14r _ _ => none
  | .storeR15r _ _ => none
  | .illegal => some .dsp
  | .sat24 _ => some .gpu
  | .addqmod _ _ => some .dsp
  | .pack _ => some .gpu
  | .unpack _ => some .gpu

/-- The instruction has an encoding on variant `v` (R108). -/
def Instr.wf (v : Variant) (i : Instr) : Bool :=
  match i.onlyOn with
  | none => true
  | some w => w == v

end Sys2Proof
end

