-- ==== Sys2Proof/Decode.lean ====
section
/-! DEFINITION. The decoder and the encoder, from spec/30_encoding.md R100 to R112: the fields of an opcode word,
the two dispatch tables of R108, the little-endian pair of extension words of `MOVEI` (R106). -/

namespace Sys2Proof

/-- `op[15:10]` (R102). -/
def opcOf (w : Half) : BitVec 6 := w.extractLsb' 10 6

/-- `op[9:5]` (R102). -/
def f1Of (w : Half) : BitVec 5 := w.extractLsb' 5 5

/-- `op[4:0]` (R102). -/
def f2Of (w : Half) : BitVec 5 := w.extractLsb' 0 5

/-- An opcode word from its three fields (R102). -/
def opWord (opc : BitVec 6) (f1 f2 : BitVec 5) : Half := opc ++ f1 ++ f2

/-- Primary opcode of `MOVEI`, the one instruction with extension words (R100). -/
def moveiOpc : BitVec 6 := 38#6

/-- Primary opcode of `IMACN` (R173). -/
def imacnOpc : BitVec 6 := 20#6

/-- Primary opcode of `RESMAC` (R173). -/
def resmacOpc : BitVec 6 := 19#6

/-- Length in bytes of an instruction from its first word (R112). -/
def lengthOf (w : Half) : Nat := if opcOf w = moveiOpc then 6 else 2

/-- The one reserved encoding (R110 b). -/
inductive Reserved where
  /-- `GPU` slot 63 with a selector of 2 or more (R256). -/
  | packSelector
deriving DecidableEq, Repr

/-- Why bytes do not decode. -/
inductive DecodeError where
  /-- Fewer bytes than R112 gives the instruction. -/
  | truncated
  /-- A reserved encoding. -/
  | reserved (r : Reserved)
deriving DecidableEq, Repr

/-- `GPU` slot 63 (R254 to R256): `f1` selects. -/
def decodePack (f1 f2 : BitVec 5) : Except Reserved Instr :=
  if f1 = 0#5 then .ok (.pack f2)
  else if f1 = 1#5 then .ok (.unpack f2)
  else .error .packSelector

/-- A slot that differs between the variants (R109). -/
def bySlot {α : Type} (v : Variant) (gpu dsp : α) : α :=
  match v with
  | .gpu => gpu
  | .dsp => dsp

/-- `TABLE[V][opc]` (R108), `ext` the immediate of the extension words where the slot is `MOVEI`. -/
def decodeFields (v : Variant) (opc : BitVec 6) (f1 f2 : BitVec 5) (ext : Word) : Except Reserved Instr :=
  match opc.toNat with
  | 0 => .ok (.add f1 f2)
  | 1 => .ok (.addc f1 f2)
  | 2 => .ok (.addq f1 f2)
  | 3 => .ok (.addqt f1 f2)
  | 4 => .ok (.sub f1 f2)
  | 5 => .ok (.subc f1 f2)
  | 6 => .ok (.subq f1 f2)
  | 7 => .ok (.subqt f1 f2)
  | 8 => .ok (.neg f2)
  | 9 => .ok (.and f1 f2)
  | 10 => .ok (.or f1 f2)
  | 11 => .ok (.xor f1 f2)
  | 12 => .ok (.not f2)
  | 13 => .ok (.btst f1 f2)
  | 14 => .ok (.bset f1 f2)
  | 15 => .ok (.bclr f1 f2)
  | 16 => .ok (.mult f1 f2)
  | 17 => .ok (.imult f1 f2)
  | 18 => .ok (.imultn f1 f2)
  | 19 => .ok (.resmac f2)
  | 20 => .ok (.imacn f1 f2)
  | 21 => .ok (.div f1 f2)
  | 22 => .ok (.abs f2)
  | 23 => .ok (.sh f1 f2)
  | 24 => .ok (.shlq f1 f2)
  | 25 => .ok (.shrq f1 f2)
  | 26 => .ok (.sha f1 f2)
  | 27 => .ok (.sharq f1 f2)
  | 28 => .ok (.ror f1 f2)
  | 29 => .ok (.rorq f1 f2)
  | 30 => .ok (.cmp f1 f2)
  | 31 => .ok (.cmpq f1 f2)
  | 32 => bySlot v (.ok (.sat8 f2)) (.ok (.subqmod f1 f2))
  | 33 => bySlot v (.ok (.sat16 f2)) (.ok (.sat16s f2))
  | 34 => .ok (.move f1 f2)
  | 35 => .ok (.moveq f1 f2)
  | 36 => .ok (.moveta f1 f2)
  | 37 => .ok (.movefa f1 f2)
  | 38 => .ok (.movei ext f2)
  | 39 => .ok (.loadb f1 f2)
  | 40 => .ok (.loadw f1 f2)
  | 41 => .ok (.load f1 f2)
  | 42 => bySlot v (.ok (.loadp f1 f2)) (.ok (.sat32s f2))
  | 43 => .ok (.loadR14n f1 f2)
  | 44 => .ok (.loadR15n f1 f2)
  | 45 => .ok (.storeb f1 f2)
  | 46 => .ok (.storew f1 f2)
  | 47 => .ok (.store f1 f2)
  | 48 => bySlot v (.ok (.storep f1 f2)) (.ok (.mirror f2))
  | 49 => .ok (.storeR14n f1 f2)
  | 50 => .ok (.storeR15n f1 f2)
  | 51 => .ok (.movePc f2)
  | 52 => .ok (.jump f1 f2)
  | 53 => .ok (.jr f1 f2)
  | 54 => .ok (.mmult f1 f2)
  | 55 => .ok (.mtoi f1 f2)
  | 56 => .ok (.normi f1 f2)
  | 57 => .ok (.nop)
  | 58 => .ok (.loadR14r f1 f2)
  | 59 => .ok (.loadR15r f1 f2)
  | 60 => .ok (.storeR14r f1 f2)
  | 61 => .ok (.storeR15r f1 f2)
  | 62 => bySlot v (.ok (.sat24 f2)) (.ok (.illegal))
  | _ => bySlot v (decodePack f1 f2) (.ok (.addqmod f1 f2))

/-- The instruction of an opcode word (R107). -/
def decodeWord (v : Variant) (w : Half) (ext : Word) : Except Reserved Instr :=
  decodeFields v (opcOf w) (f1Of w) (f2Of w) ext

/-- The immediate of `MOVEI`: the first extension word is the low half (R106). -/
def extOf (w1 w2 : Half) : Word := w2 ++ w1

/-- A bus word from its two bytes, big-endian (R74). -/
def halfOf (hi lo : Byte) : Half := hi ++ lo

/-- The decoder on bytes as they lie in memory: the instruction and the bytes after it. -/
def decode (v : Variant) : List Byte → Except DecodeError (Instr × List Byte)
  | a :: b :: rest =>
    let w := halfOf a b
    if opcOf w = moveiOpc then
      match rest with
      | c :: d :: e :: f :: rest' =>
        match decodeWord v w (extOf (halfOf c d) (halfOf e f)) with
        | .ok i => .ok (i, rest')
        | .error r => .error (.reserved r)
      | _ => .error .truncated
    else
      match decodeWord v w 0#32 with
      | .ok i => .ok (i, rest)
      | .error r => .error (.reserved r)
  | _ => .error .truncated

/-- The fields of an instruction's opcode word, ignored fields 0 (R108, R110 c). -/
def encodeFields : Instr → BitVec 6 × BitVec 5 × BitVec 5
  | .add rs rd => (0#6, rs, rd)
  | .addc rs rd => (1#6, rs, rd)
  | .addq n rd => (2#6, n, rd)
  | .addqt n rd => (3#6, n, rd)
  | .sub rs rd => (4#6, rs, rd)
  | .subc rs rd => (5#6, rs, rd)
  | .subq n rd => (6#6, n, rd)
  | .subqt n rd => (7#6, n, rd)
  | .neg rd => (8#6, 0#5, rd)
  | .and rs rd => (9#6, rs, rd)
  | .or rs rd => (10#6, rs, rd)
  | .xor rs rd => (11#6, rs, rd)
  | .not rd => (12#6, 0#5, rd)
  | .btst n rd => (13#6, n, rd)
  | .bset n rd => (14#6, n, rd)
  | .bclr n rd => (15#6, n, rd)
  | .mult rs rd => (16#6, rs, rd)
  | .imult rs rd => (17#6, rs, rd)
  | .imultn rs rd => (18#6, rs, rd)
  | .resmac rd => (19#6, 0#5, rd)
  | .imacn rs rd => (20#6, rs, rd)
  | .div rs rd => (21#6, rs, rd)
  | .abs rd => (22#6, 0#5, rd)
  | .sh rs rd => (23#6, rs, rd)
  | .shlq n rd => (24#6, n, rd)
  | .shrq n rd => (25#6, n, rd)
  | .sha rs rd => (26#6, rs, rd)
  | .sharq n rd => (27#6, n, rd)
  | .ror rs rd => (28#6, rs, rd)
  | .rorq n rd => (29#6, n, rd)
  | .cmp rs rd => (30#6, rs, rd)
  | .cmpq n rd => (31#6, n, rd)
  | .subqmod n rd => (32#6, n, rd)
  | .sat8 rd => (32#6, 0#5, rd)
  | .sat16s rd => (33#6, 0#5, rd)
  | .sat16 rd => (33#6, 0#5, rd)
  | .move rs rd => (34#6, rs, rd)
  | .moveq n rd => (35#6, n, rd)
  | .moveta rs rd => (36#6, rs, rd)
  | .movefa rs rd => (37#6, rs, rd)
  | .movei _ rd => (38#6, 0#5, rd)
  | .loadb rs rd => (39#6, rs, rd)
  | .loadw rs rd => (40#6, rs, rd)
  | .load rs rd => (41#6, rs, rd)
  | .sat32s rd => (42#6, 0#5, rd)
  | .loadp rs rd => (42#6, rs, rd)
  | .loadR14n n rd => (43#6, n, rd)
  | .loadR15n n rd => (44#6, n, rd)
  | .storeb rs rd => (45#6, rs, rd)
  | .storew rs rd => (46#6, rs, rd)
  | .store rs rd => (47#6, rs, rd)
  | .mirror rd => (48#6, 0#5, rd)
  | .storep rs rd => (48#6, rs, rd)
  | .storeR14n n rd => (49#6, n, rd)
  | .storeR15n n rd => (50#6, n, rd)
  | .movePc rd => (51#6, 0#5, rd)
  | .jump rs cc => (52#6, rs, cc)
  | .jr n cc => (53#6, n, cc)
  | .mmult rs rd => (54#6, rs, rd)
  | .mtoi rs rd => (55#6, rs, rd)
  | .normi rs rd => (56#6, rs, rd)
  | .nop => (57#6, 0#5, 0#5)
  | .loadR14r rs rd => (58#6, rs, rd)
  | .loadR15r rs rd => (59#6, rs, rd)
  | .storeR14r rs rd => (60#6, rs, rd)
  | .storeR15r rs rd => (61#6, rs, rd)
  | .illegal => (62#6, 0#5, 0#5)
  | .sat24 rd => (62#6, 0#5, rd)
  | .addqmod n rd => (63#6, n, rd)
  | .pack rd => (63#6, 0#5, rd)
  | .unpack rd => (63#6, 1#5, rd)

/-- The opcode word of an instruction. -/
def encodeOpcode (i : Instr) : Half :=
  opWord (encodeFields i).1 (encodeFields i).2.1 (encodeFields i).2.2

/-- The extension words of an instruction (R106): the low half of the immediate of `MOVEI` first. -/
def encodeExt : Instr → List Half
  | .movei imm _ => [imm.extractLsb' 0 16, imm.extractLsb' 16 16]
  | _ => []

/-- The words of an instruction, in memory order. -/
def encode (i : Instr) : List Half := encodeOpcode i :: encodeExt i

/-- The bytes of one word, big-endian (R74, R75). -/
def bytesOfHalf (w : Half) : List Byte := [w.extractLsb' 8 8, w.extractLsb' 0 8]

/-- The bytes of an instruction as they lie in memory. -/
def encodeBytes (i : Instr) : List Byte := (encode i).flatMap bytesOfHalf

/-- The six bytes of an instruction numbered as the opcode table numbers it: the first word in bits 15..0, each
later word above it, each word stored big-endian. -/
def tableBytes (nbits w : Nat) : List Byte :=
  let b := w % 2 ^ nbits
  bytesOfHalf (BitVec.ofNat 16 b) ++ bytesOfHalf (BitVec.ofNat 16 (b / 2 ^ 16))
    ++ bytesOfHalf (BitVec.ofNat 16 (b / 2 ^ 32))

/-- What the decoder reads from an instruction given by the opcode table's numbering, on the variant of
`State.reset` (log entry 1: a word of one of the six variant slots decodes to that variant's instruction). -/
def decodeTableWord (nbits w : Nat) : Option Instr :=
  match decode Config.initial.variant (tableBytes nbits w) with
  | .ok (i, _) => some i
  | .error _ => none

end Sys2Proof
end

