-- ==== Sys2Proof/Machine/State.lean ====
section
/-! DEFINITION. The state of one core (spec/10_state.md R60), the environment's events (spec/00_scope.md R9) and
the reasons a step can stop. State is plain data. -/

namespace Sys2Proof.Machine

/-- A physical register bank (R21). -/
inductive Bank where
  | b0
  | b1
deriving DecidableEq, Repr

/-- Where a bank switch happens (R58): inside a `Step`, or between two of them. -/
inductive Cause where
  | inStep
  | between
deriving DecidableEq, Repr

/-- How far the delay slot of a taken branch has come inside its `Step` (R238). Between steps it is `idle`. -/
inductive Delay where
  | idle
  /-- The branch is taken and the word after it fetched, not yet dispatched. -/
  | pending (word : Half)
  /-- The slot's instruction is being dispatched: `in_delay` of R101. -/
  | executing
deriving DecidableEq, Repr

/-- An event of the environment (R9), atomic and between steps. -/
inductive Event where
  /-- `SetLine(k, state)` (R323), `true` for assert. -/
  | setLine (k : Nat) (assert : Bool)
  /-- `CtrlWrite(off, value, mask)` by an external master (R285). -/
  | ctrlWrite (off : Nat) (value mask : Word)
  /-- `CtrlRead(off)` by an external master (R286): its answer is `State.ctrlRead`. -/
  | ctrlRead (off : Nat)
  /-- `Reset` (R62, R360). -/
  | reset
  /-- Another bus master changes one byte of memory (R87). -/
  | memory (a : Nat) (v : Byte)
deriving DecidableEq, Repr

/-- Who moves next: the core, or the environment with one event. -/
inductive Turn where
  | core
  | event (e : Event)
deriving DecidableEq, Repr

/-- The machine stops. -/
inductive Fault where
  /-- The absorb loop of `IMULTN` met a word of primary opcode 20 at every even bus address, so it has no end
  (R173). Raised by `absorb`. Safe: the spec gives no next state. No step raises it: the chain head's own word
  ends the loop. -/
  | endlessChain
deriving DecidableEq, Repr

/-- The situation has no meaning. Each but the first and the last is a `refuse(reason)` of the spec, of the same
name (spec/93_implementation_defined.md part U), for which the spec defines no next state: all safe. -/
inductive Refusal where
  /-- An instruction with no meaning yet: raised by an arm of `exec` alone. Safe. -/
  | notModelled (mnemonic : String)
  /-- `odd_pc` (R30, R79): a fetch from an odd address. Raised by `State.fetchWord`. Safe. -/
  | oddPc
  /-- `misaligned` (R79): a word access at an odd address, a long access at one that is no multiple of 4. Raised
  by the data-port operations. Safe. -/
  | misaligned
  /-- `narrow_ctrl_access` (R82, R304): a byte or word access to a mapped control register. Raised by the
  data-port operations. Safe. -/
  | narrowCtrlAccess
  /-- `fetch_after_store` (R90): with `FETCH_COHERENT` false, a fetch of a byte the core stored to. Raised by
  `State.fetchWord`. Safe. -/
  | fetchAfterStore
  /-- `reserved_pack_selector` (R256): `GPU` slot 63 with a selector of 2 or more. Raised by decoding. Safe. -/
  | reservedPackSelector
  /-- `mmult_register_overrun` (R177): the register vector of `MMULT` passes register 31. Raised by `execMmult`.
  Safe. -/
  | mmultRegisterOverrun
  /-- `branch_in_delay_slot` (R242): `JUMP` or `JR` in the slot of a taken branch. Raised by the two. Safe. -/
  | branchInDelaySlot
  /-- `pc_dependent_in_delay_slot` (R242): `MOVEI`, `MOVE PC` or `IMULTN` in the slot of a taken branch. Raised by
  the three. Safe. -/
  | pcDependentInDelaySlot
  /-- A `SetLine` of a line the variant does not have is no event of this machine (R323). Raised by `setLine`.
  Safe. -/
  | noSuchLine
deriving DecidableEq, Repr

/-- The state of one core and what surrounds it. The fields down to `lagNow` are R60's complete list. -/
structure State where
  /-- The variant tag and parameters (R2, R5): no step changes them. -/
  cfg        : Config
  /-- `B0[0..31]`, `B1[0..31]` (R20, R21). -/
  b0         : Vector Word 32
  b1         : Vector Word 32
  /-- `cur`, the active bank (R21). -/
  cur        : Bank
  /-- `PC` (R28). -/
  pc         : Word
  /-- `FLAGS` (R37): `Z C N I` in bits 0 to 3, `EINT` in 8:4 and 16, `RPAGE` in 14. -/
  flags      : Word
  /-- `CTRL` (R41): `RUN` in bit 0, `LATCH` in 10:6 and 16. -/
  ctrl       : Word
  /-- `MTXC` (R42). -/
  mtxc       : Word
  /-- `MTXA` (R43). -/
  mtxa       : Word
  /-- `END` (R44). -/
  endian     : Word
  /-- Control register 6: `HIDATA` on `GPU` (R45), `MOD` on `DSP` (R46). -/
  hiMod      : Word
  /-- `DIVCTRL` (R47). -/
  divctrl    : Word
  /-- `REMAINDER` (R47). -/
  remainder  : Word
  /-- `acc` (R48). -/
  acc        : Acc
  /-- `ppc` (R31). -/
  ppc        : Word
  /-- `lag_pending`, `lag_now` (R57). -/
  lagPending : Bool
  lagNow     : Bool
  /-- The delay slot in progress inside a `Step` (R238). -/
  delay      : Delay
  /-- How often the output `cpu_interrupt` was asserted since reset (R55, R298). -/
  cpuInts    : Nat
  /-- The memory behind the 24-bit address space (R70): canonical, see `Memory.wf`. -/
  mem        : List Host.Cell
  /-- With `FETCH_COHERENT` false, the bytes the core stored to since `Reset` or start, rising (R90, U8, log entry 14);
  else empty. -/
  stored     : List Nat
  /-- The scheduler's charges (R372): nothing reads it. -/
  cycles     : Nat
  /-- Who moves at the next boundaries (R9); where it is empty, the core. -/
  agenda     : List Turn
deriving DecidableEq, Repr

/-- The state after `Reset` of a core with configuration `c` (R62, R63): the values of R63, and 0 in the banks, `acc`
and `ppc`, which the spec leaves unspecified (DESIGN CHOICE, log entry 2). -/
def State.resetOf (c : Config) : State where
  cfg := c
  b0 := Vector.replicate 32 0#32
  b1 := Vector.replicate 32 0#32
  cur := .b0
  pc := 0#32
  flags := 0#32
  ctrl := 0#32
  mtxc := 0#32
  mtxa := 0#32
  endian := 0#32
  hiMod := 0#32
  divctrl := 0#32
  remainder := 0#32
  acc := 0#64
  ppc := 0#32
  lagPending := false
  lagNow := false
  delay := .idle
  cpuInts := 0
  mem := []
  stored := []
  cycles := 0
  agenda := []

/-- The machine right after reset (R62): halted, `pc` 0, bank 0 active. -/
def State.reset : State := State.resetOf Config.initial

/-- What a meaning answers. -/
abbrev Res := Host.Outcome State Fault Refusal

end Sys2Proof.Machine
end

