-- ==== Sys2Proof/Machine/Bits.lean ====
section
/-! DEFINITION. Bit helpers over words (spec/00_scope.md R8). -/

namespace Sys2Proof.Machine

/-- `w` with bit `i` made `b`. -/
def putBit (w : Word) (i : Nat) (b : Bool) : Word :=
  if b then w ||| BitVec.twoPow 32 i else w &&& ~~~ BitVec.twoPow 32 i

/-- `zext` of a narrower value to a word (R8). -/
def zext {n : Nat} (v : BitVec n) : Word := v.setWidth 32

/-- `sext_5` to a word (R8). -/
def sext5 (n : Imm5) : Word := n.signExtend 32

/-- `s16(v)`: the low half of a word read as signed (R8). -/
def s16 (v : Word) : Int := (v.extractLsb' 0 16).toInt

/-- The register number of an operand field as an index into a bank. -/
def regIdx (r : Reg) : Fin 32 := r.toFin

end Sys2Proof.Machine
end

