-- ==== Sys2Proof/Machine/Memory.lean ====
section
/-! DEFINITION. Memory as a list of (address, byte) pairs in one canonical form: addresses strictly rising and
below 2^24, and no entry equal to what an unlisted address reads as. -/

namespace Sys2Proof.Machine

/-- What an address that nothing has written reads as (DESIGN CHOICE, log entry 3: the spec leaves memory to its
collaborator, R84, R87). -/
def Memory.unwritten : Byte := 0#8

/-- The byte at address `a`. -/
def Memory.read : List Host.Cell → Nat → Byte
  | [], _ => Memory.unwritten
  | c :: m, a => if c.1 = a then c.2 else Memory.read m a

/-- `m` with the cell `(a, b)` put in its place, where `m` has none at `a`. -/
def Memory.insert : List Host.Cell → Nat → Byte → List Host.Cell
  | [], a, b => [(a, b)]
  | c :: m, a, b => if a < c.1 then (a, b) :: c :: m else c :: Memory.insert m a b

/-- Memory after the byte `b` is written at `a`. -/
def Memory.write (m : List Host.Cell) (a : Nat) (b : Byte) : List Host.Cell :=
  let kept := m.filter fun c => c.1 != a
  if b = Memory.unwritten then kept else Memory.insert kept a b

/-- Memory after several bytes are written, the first first. -/
def Memory.writeAll (m : List Host.Cell) (cells : List Host.Cell) : List Host.Cell :=
  cells.foldl (fun m c => Memory.write m c.1 c.2) m

/-- Every address is at least `lo`, they rise strictly, all lie in the 24-bit space, and no byte is the unwritten
one. -/
def Memory.wfFrom : Nat → List Host.Cell → Bool
  | _, [] => true
  | lo, c :: m => decide (lo ≤ c.1) && decide (c.1 < 2 ^ 24) && (c.2 != Memory.unwritten) && Memory.wfFrom (c.1 + 1) m

/-- The canonical form. -/
def Memory.wf (m : List Host.Cell) : Bool := Memory.wfFrom 0 m

/-- The rising list of stored-to addresses with `a` added (R90). -/
def Memory.mark : List Nat → Nat → List Nat
  | [], a => [a]
  | k :: l, a => if a < k then a :: k :: l else if a = k then k :: l else k :: Memory.mark l a

end Sys2Proof.Machine
end

