-- ==== Sys2Proof/Machine/Flags.lean ====
section
/-! DEFINITION. The flags word (spec/10_state.md R37), the add and subtract laws (spec/40_alu.md R130), the flag
updates of R10, and the condition engine (R50). -/

namespace Sys2Proof.Machine

/-- `Z` (R37). -/
def State.z (s : State) : Bool := s.flags.getLsbD 0

/-- `C` (R37). -/
def State.c (s : State) : Bool := s.flags.getLsbD 1

/-- `N` (R37). -/
def State.n (s : State) : Bool := s.flags.getLsbD 2

/-- `I`, the global interrupt disable (R39). -/
def State.i (s : State) : Bool := s.flags.getLsbD 3

/-- `RPAGE` (R40). -/
def State.rpage (s : State) : Bool := s.flags.getLsbD 14

/-- Bit of `FLAGS` that holds `EINT[k]` (R37). -/
def eintBit (k : Nat) : Nat := if k < 5 then 4 + k else 16

/-- Bit of a written `FLAGS` word that is the strobe `IACK[k]` (R37). -/
def iackBit (k : Nat) : Nat := if k < 5 then 9 + k else 17

/-- `EINT[k]` (R40). -/
def State.eint (s : State) (k : Nat) : Bool := s.flags.getLsbD (eintBit k)

/-- The bits of `FLAGS` a control-port write stores as written (R289). -/
def writableFlags (v : Variant) : Word :=
  match v with
  | .gpu => 0x000041F7#32
  | .dsp => 0x000141F7#32

/-- `Z <- b`. -/
def State.setZ (s : State) (b : Bool) : State := { s with flags := putBit s.flags 0 b }

/-- `I <- b`. -/
def State.setI (s : State) (b : Bool) : State := { s with flags := putBit s.flags 3 b }

/-- A flags word with `Z`, `C`, `N` made these and every other bit kept (R38). -/
def putZCN (w : Word) (z c n : Bool) : Word := putBit (putBit (putBit w 0 z) 1 c) 2 n

/-- `setZN(r)` (R10): `Z` and `N` from the result, `C` kept. -/
def State.setZN (s : State) (r : Word) : State :=
  { s with flags := putBit (putBit s.flags 0 (r == 0#32)) 2 (r.getLsbD 31) }

/-- `setZNC(r, c)` (R10). -/
def State.setZNC (s : State) (r : Word) (c : Bool) : State :=
  { s with flags := putZCN s.flags (r == 0#32) c (r.getLsbD 31) }

/-- `ADDop(a, b, cin)` (R130): the wrapped sum and bit 32 of the exact one. -/
def addOp (a b : Word) (cin : Bool) : Word × Bool :=
  let t := a.toNat + b.toNat + cin.toNat
  (BitVec.ofNat 32 t, decide (2 ^ 32 ≤ t))

/-- `SUBop(a, b, cin)` (R130): the wrapped difference and the borrow of the exact one. -/
def subOp (a b : Word) (cin : Bool) : Word × Bool :=
  let t : Int := (a.toNat : Int) - (b.toNat : Int) - (cin.toNat : Int)
  (BitVec.ofInt 32 t, decide (t < 0))

/-- `cond(code)` (R50): code bit 4 selects `N` in place of `C` for the tests of bits 2 and 3. -/
def State.cond (s : State) (code : CondCode) : Bool :=
  let f := if code.getLsbD 4 then s.n else s.c
  !((code.getLsbD 0 && s.z) || (code.getLsbD 1 && !s.z) || (code.getLsbD 2 && f) || (code.getLsbD 3 && !f))

end Sys2Proof.Machine
end

