-- ==== Sys2Proof/Machine/Ops.lean ====
section
/-! DEFINITION. The operations every meaning is written over: registers and banks (spec/10_state.md R20 to R24,
R57, R58), the data and fetch ports (spec/20_memory.md), the control-register port (spec/48_ctrl_io.md), and taking
an interrupt (spec/60_exceptions.md R327 to R331). -/

namespace Sys2Proof.Machine

/-- Go on from a next state; a fault or a refusal stays. -/
def andThen (o : Res) (f : State → Res) : Res :=
  match o with
  | .next s => f s
  | .fault r => .fault r
  | .refused r => .refused r

/-- Go on with a value that a port answered; its refusal stays. -/
def withValue {α : Type} (e : Except Refusal α) (f : α → Res) : Res :=
  match e with
  | .ok v => f v
  | .error r => .refused r

/-! Registers and banks. -/

/-- The other bank (R22). -/
def Bank.other : Bank → Bank
  | .b0 => .b1
  | .b1 => .b0

/-- Register `r` of a physical bank (R21). -/
def State.reg (s : State) (b : Bank) (r : Reg) : Word :=
  match b with
  | .b0 => s.b0[regIdx r]
  | .b1 => s.b1[regIdx r]

/-- Write register `r` of a physical bank (R21). No register is hard-wired (R20). -/
def State.setReg (s : State) (b : Bank) (r : Reg) (v : Word) : State :=
  match b with
  | .b0 => { s with b0 := s.b0.set (regIdx r) v }
  | .b1 => { s with b1 := s.b1.set (regIdx r) v }

/-- `x[r]`: the active bank (R22). -/
def State.x (s : State) (r : Reg) : Word := s.reg s.cur r

/-- `x[r] <- v` (R22). -/
def State.setX (s : State) (r : Reg) (v : Word) : State := s.setReg s.cur r v

/-- `alt[r]`: the alternate bank (R22). -/
def State.alt (s : State) (r : Reg) : Word := s.reg s.cur.other r

/-- `alt[r] <- v` (R22). -/
def State.setAlt (s : State) (r : Reg) (v : Word) : State := s.setReg s.cur.other r v

/-- The bank the flags require (R24): bank 0 while `I` is set, else the page bit's. -/
def State.required (s : State) : Bank :=
  if s.i then .b0 else if s.rpage then .b1 else .b0

/-- `mark_bank_switch()` (R58). -/
def markBankSwitch (why : Cause) (s : State) : State :=
  match why with
  | .inStep => { s with lagPending := true }
  | .between => if s.cfg.lagOnExternalSwap then { s with lagPending := true } else s

/-- `update_register_banks()` (R24). -/
def updateBanks (why : Cause) (s : State) : State :=
  if s.required = s.cur then s else markBankSwitch why { s with cur := s.required }

/-! The address space. -/

/-- Bytes of the address space. -/
def busSize : Nat := 2 ^ 24

/-- The bus address of byte `k` of an access at `a` (R71): bits 31:24 are dropped. -/
def busAddr (a : Word) (k : Nat) : Nat := (a.toNat + k) % busSize

/-- The byte memory answers at a bus address. -/
def State.byteAt (s : State) (a : Nat) : Byte := Memory.read s.mem a

/-- The core writes bytes of memory, the first first. With `FETCH_COHERENT` false their addresses are remembered
(R90). -/
def State.poke (s : State) (cells : List Host.Cell) : State :=
  { s with
    mem := Memory.writeAll s.mem cells
    stored := if s.cfg.fetchCoherent then s.stored else cells.foldl (fun l c => Memory.mark l c.1) s.stored }

/-- The 16 bits in memory at `a`, big-endian (R72). -/
def State.memHalf (s : State) (a : Word) : Half := s.byteAt (busAddr a 0) ++ s.byteAt (busAddr a 1)

/-- The 32 bits in memory at `a`, big-endian (R72). -/
def State.memLong (s : State) (a : Word) : Word :=
  s.byteAt (busAddr a 0) ++ s.byteAt (busAddr a 1) ++ s.byteAt (busAddr a 2) ++ s.byteAt (busAddr a 3)

/-- The cells of a 16-bit write at `a`, most significant byte first (R73). -/
def halfCells (a : Word) (v : Half) : List Host.Cell :=
  [(busAddr a 0, v.extractLsb' 8 8), (busAddr a 1, v.extractLsb' 0 8)]

/-- The cells of a 32-bit write at `a`, most significant byte first (R73). -/
def longCells (a v : Word) : List Host.Cell :=
  [(busAddr a 0, v.extractLsb' 24 8), (busAddr a 1, v.extractLsb' 16 8), (busAddr a 2, v.extractLsb' 8 8),
    (busAddr a 3, v.extractLsb' 0 8)]

/-- An access of `n` bytes at `a` is misaligned (R79). -/
def misaligned (a : Word) (n : Nat) : Bool := a.toNat % n != 0

/-- The control register a long access at `a` reaches (R82): `addr[23:0] = CTRL_BASE + 4k`, `k < NCTRL`. -/
def State.ctrlIndex (s : State) (a : Word) : Option Nat :=
  let d := busAddr a 0 - s.cfg.ctrlBase
  if s.cfg.ctrlMapped && decide (s.cfg.ctrlBase ≤ busAddr a 0) && decide (d % 4 = 0) && decide (d / 4 < s.cfg.nctrl)
  then some (d / 4) else none

/-- An access of `n` bytes at `a` touches the control block `CTRL_BASE .. CTRL_BASE + 4 * NCTRL - 1` (R82, R302).
DEDUCED, log entry 6: a narrow access to any byte of the block is an access to a control register. -/
def State.touchesCtrl (s : State) (a : Word) (n : Nat) : Bool :=
  s.cfg.ctrlMapped && decide (s.cfg.ctrlBase < busAddr a 0 + n)
    && decide (busAddr a 0 < s.cfg.ctrlBase + 4 * s.cfg.nctrl)

/-! The fetch port. -/

/-- `FetchWord(a)` (R74): never the control port, no side effect; refused at an odd address (R79) and, with
`FETCH_COHERENT` false, where the core has stored (R90). -/
def State.fetchWord (s : State) (a : Word) : Except Refusal Half :=
  if a.getLsbD 0 then .error .oddPc
  else if !s.cfg.fetchCoherent && (s.stored.contains (busAddr a 0) || s.stored.contains (busAddr a 1)) then
    .error .fetchAfterStore
  else .ok (s.memHalf a)

/-! Reads of the control port. -/

/-- The stored value of a control register (R286), without the version nibble of R287. -/
def State.ctrlStored (s : State) (off : Nat) : Word :=
  if off < s.cfg.nctrl then
    match off with
    | 0 => s.flags
    | 1 => s.mtxc
    | 2 => s.mtxa
    | 3 => s.endian
    | 4 => s.pc
    | 5 => s.ctrl
    | 6 => s.hiMod
    | 7 => s.divctrl
    | 9 => s.remainder
    | _ => 0#32
  else 0#32

/-- `CtrlRead(off)` (R286, R287): `CORE_VERSION` is ORed into bits 15:12 of `CTRL`. No side effect. -/
def State.ctrlRead (s : State) (off : Nat) : Word :=
  if off = 5 ∧ off < s.cfg.nctrl then s.ctrl ||| (zext s.cfg.coreVersion <<< 12) else s.ctrlStored off

/-! Reads of the data port. -/

/-- `MemRead(a, 1)` (R72). -/
def State.readByte (s : State) (a : Word) : Except Refusal Byte :=
  if s.touchesCtrl a 1 then .error .narrowCtrlAccess else .ok (s.byteAt (busAddr a 0))

/-- `MemRead(a, 2)` (R72). -/
def State.readHalf (s : State) (a : Word) : Except Refusal Half :=
  if misaligned a 2 then .error .misaligned
  else if s.touchesCtrl a 2 then .error .narrowCtrlAccess
  else .ok (s.memHalf a)

/-- What an aligned long read at `a` answers: a mapped control register's value (R82), else memory's. -/
def State.longAt (s : State) (a : Word) : Word :=
  match s.ctrlIndex a with
  | some k => s.ctrlRead k
  | none => s.memLong a

/-- `MemRead(a, 4)` (R72, R82). -/
def State.readLong (s : State) (a : Word) : Except Refusal Word :=
  if misaligned a 4 then .error .misaligned else .ok (s.longAt a)

/-! Narrow writes of the data port. -/

/-- `MemWrite(a, 1, v)` (R73). -/
def writeByte (a : Word) (v : Byte) (s : State) : Res :=
  if s.touchesCtrl a 1 then .refused .narrowCtrlAccess else .next (s.poke [(busAddr a 0, v)])

/-- `MemWrite(a, 2, v)` (R73). -/
def writeHalf (a : Word) (v : Half) (s : State) : Res :=
  if misaligned a 2 then .refused .misaligned
  else if s.touchesCtrl a 2 then .refused .narrowCtrlAccess
  else .next (s.poke (halfCells a v))

/-! Interrupt levels (R322). -/

/-- Bit of `CTRL` that holds `LATCH[k]` (R41). -/
def latchBit (k : Nat) : Nat := if k < 5 then 6 + k else 16

/-- `LATCH[k]` (R41). -/
def State.latch (s : State) (k : Nat) : Bool := s.ctrl.getLsbD (latchBit k)

/-- `LATCH[k] <- b`. -/
def State.setLatch (s : State) (k : Nat) (b : Bool) : State := { s with ctrl := putBit s.ctrl (latchBit k) b }

/-- `RUN` (R41). -/
def State.run (s : State) : Bool := s.ctrl.getLsbD 0

/-- Level `k` exists, is latched and is enabled (R327). -/
def State.pending (s : State) (k : Nat) : Bool := decide (k < s.cfg.nlevels) && s.latch k && s.eint k

/-- The level `check_irqs()` takes (R325, R327): none while `I` is set, else the highest that is pending. -/
def State.winner (s : State) : Option Nat :=
  if s.i then none else [5, 4, 3, 2, 1, 0].find? s.pending

/-! Writes of the control port. `recheck` is `check_irqs()`, which a write of `FLAGS` or `CTRL` calls. -/

/-- The acknowledge strobes of a written `FLAGS` word (R290). -/
def State.acknowledge (s : State) (new : Word) : State :=
  { s with
    ctrl := s.ctrl &&& ~~~ ((new &&& 0x00003E00#32) >>> 3) &&&
      ~~~ (match s.cfg.variant with
        | .gpu => 0#32
        | .dsp => (new &&& 0x00020000#32) >>> 1) }

/-- The word a write of `FLAGS` stores (R289): `I` stays only where it was set and the written bit 3 is. -/
def storedFlags (v : Variant) (old new : Word) : Word :=
  putBit (new &&& writableFlags v) 3 (new.getLsbD 3 && old.getLsbD 3)

/-- The store and the acknowledge of a `FLAGS` write (R289, R290). -/
def State.storeFlags (s : State) (new : Word) : State :=
  { s with flags := storedFlags s.cfg.variant s.flags new }.acknowledge new

/-- Write of `FLAGS` (R289, R290): store, acknowledge, banks, interrupt recheck. -/
def writeFlags (recheck : State → Res) (why : Cause) (new : Word) (s : State) : Res :=
  recheck (updateBanks why (s.storeFlags new))

/-- The word a write of `CTRL` stores (R296): the strobes `CPUINT` and `FORCEINT0` as 0. -/
def storedCtrl (new : Word) : Word := putBit (putBit new 1 false) 2 false

/-- A `CTRL` write of `new` starts the core: `RUN` becomes 1 (R297). -/
def State.starts (s : State) (new : Word) : Bool := new.getLsbD 0 && !s.run

/-- The store of a `CTRL` write with `RUN`, then `CPUINT` (R296 to R298). What a start does to the stored-to bytes of an
incoherent fetch port (U8) is log entry 14. -/
def State.storeCtrl (s : State) (new : Word) : State :=
  { s with
    ctrl := storedCtrl new
    cpuInts := s.cpuInts + (new.getLsbD 1).toNat
    stored := if s.cfg.startForgetsStores && s.starts new then [] else s.stored }

/-- Write of `CTRL` (R296 to R301): `RUN`, then `CPUINT`, then `FORCEINT0` with its recheck. -/
def writeCtrl (recheck : State → Res) (new : Word) (s : State) : Res :=
  if new.getLsbD 2 then recheck ((s.storeCtrl new).setLatch 0 true) else .next (s.storeCtrl new)

/-- `CtrlWrite(off, value, mask)` (R288 to R302). -/
def ctrlWriteWith (recheck : State → Res) (why : Cause) (off : Nat) (value mask : Word) (s : State) : Res :=
  let new := (s.ctrlStored off &&& ~~~ mask) ||| (value &&& mask)
  if off < s.cfg.nctrl then
    match off with
    | 0 => writeFlags recheck why new s
    | 1 => .next { s with mtxc := new }
    | 2 => .next { s with mtxa := new }
    | 3 => .next { s with endian := new }
    | 4 => .next { s with pc := new &&& 0x00FFFFFF#32 }
    | 5 => writeCtrl recheck new s
    | 6 => .next { s with hiMod := new }
    | 7 => .next { s with divctrl := new }
    | _ => .next s
  else .next s

/-- `MemWrite(a, 4, v)` (R73, R82): a mapped control register, else memory. -/
def writeLongWith (recheck : State → Res) (why : Cause) (a v : Word) (s : State) : Res :=
  if misaligned a 4 then .refused .misaligned
  else match s.ctrlIndex a with
    | some k => ctrlWriteWith recheck why k v 0xFFFFFFFF#32 s
    | none => .next (s.poke (longCells a v))

/-! Taking an interrupt. -/

/-- Entry of level `k` (R327 to R331): `I` set, bank 0 active, `B0[31]` decremented by 4, `pc - 2` pushed there by
`push`, then `pc` at the level's vector. -/
def takeInterrupt (push : Word → Word → State → Res) (why : Cause) (k : Nat) (s : State) : Res :=
  let s1 := updateBanks why (s.setI true)
  let sp := s1.reg .b0 31#5 - 4#32
  let s2 := s1.setReg .b0 31#5 sp
  andThen (push sp (s2.pc - 2#32) s2) fun t =>
    .next { t with pc := t.cfg.vectorBase + BitVec.ofNat 32 (16 * k) }

/-- `check_irqs()` (R327) with at most `depth` entries inside one another. A push can reach `FLAGS` and so recheck
(R330), but the entry inside it pushes one long lower, below the control registers, so two is every depth there
is: `checkIrqsAt_two`. At depth 0 the recheck is one that takes nothing. -/
def checkIrqsAt : Nat → Cause → State → Res
  | 0, _, s => .next s
  | n + 1, why, s =>
    match s.winner with
    | none => .next s
    | some k => takeInterrupt (writeLongWith (checkIrqsAt n why) why) why k s

/-- `check_irqs()` (R327). -/
def checkIrqs (why : Cause) (s : State) : Res := checkIrqsAt 2 why s

/-- `CtrlWrite(off, value, mask)` (R288). -/
def ctrlWrite (why : Cause) (off : Nat) (value mask : Word) (s : State) : Res :=
  ctrlWriteWith (checkIrqs why) why off value mask s

/-- The core's own `MemWrite(a, 4, v)` inside a `Step` (R73, R304). -/
def writeLong (a v : Word) (s : State) : Res := writeLongWith (checkIrqs .inStep) .inStep a v s

end Sys2Proof.Machine
end

