-- ==== Sys2Proof/Machine/Operands.lean ====
section
/-! DEFINITION. Operand forms: the readings of the 5-bit immediate (spec/30_encoding.md R104, R105), the effective
addresses (spec/44_load_store.md R206) and the internal-RAM window test (spec/20_memory.md R77, R78). -/

namespace Sys2Proof.Machine

/-- `cz(n)`, "convert_zero" (R104): 0 means 32. -/
def cz (n : Imm5) : Nat := if n = 0#5 then 32 else n.toNat

/-- The immediate of `ADDQ ADDQT SUBQ SUBQT ADDQMOD SUBQMOD` (R105). -/
def quick (n : Imm5) : Word := BitVec.ofNat 32 (cz n)

/-- The shift count of `SHLQ` (R105). -/
def shlqCount (n : Imm5) : Nat := 32 - cz n

/-- The rotate count of `RORQ` (R105). -/
def rorqCount (n : Imm5) : Nat := cz n % 32

/-- The byte displacement of `JR` (R105). -/
def jrDisp (n : Imm5) : Word := sext5 n <<< 1

/-- Effective address of `(R14+n)` and `(R15+n)` (R206). -/
def State.eaQuick (s : State) (base : Reg) (n : Imm5) : Word := s.x base + BitVec.ofNat 32 (4 * cz n)

/-- Effective address of `(R14+Rs)` and `(R15+Rs)` (R206). -/
def State.eaIndex (s : State) (base rs : Reg) : Word := s.x base + s.x rs

/-- `WIN_LO <= a <= WIN_HI` on all 32 bits (R77, R78). -/
def State.inWindow (s : State) (a : Word) : Bool :=
  decide (s.cfg.winLo.toNat ≤ a.toNat) && decide (a.toNat ≤ s.cfg.winHi.toNat)

/-- `a & ~3`, where a forced access goes (R77). -/
def longAlign (a : Word) : Word := a &&& 0xFFFFFFFC#32

end Sys2Proof.Machine
end

