-- ==== Sys2Proof/Machine/Alu.lean ====
section
/-! DEFINITION. Add, subtract, logic, bit, compare and absolute value (spec/40_alu.md). -/

namespace Sys2Proof.Machine

/-- Write a result and its carry or borrow: `x[rd] <- r; setZNC(r, c)`. -/
def finishZNC (rd : Reg) (rc : Word × Bool) (s : State) : Res := .next ((s.setX rd rc.1).setZNC rc.1 rc.2)

/-- Write a result: `x[rd] <- r; setZN(r)`. -/
def finishZN (rd : Reg) (r : Word) (s : State) : Res := .next ((s.setX rd r).setZN r)

/-- Write a result and no flag. -/
def finishQuiet (rd : Reg) (r : Word) (s : State) : Res := .next (s.setX rd r)

/-- `ADD` (R132). -/
def execAdd (rs rd : Reg) (s : State) : Res := finishZNC rd (addOp (s.x rd) (s.x rs) false) s

/-- `ADDC` (R133). -/
def execAddc (rs rd : Reg) (s : State) : Res := finishZNC rd (addOp (s.x rd) (s.x rs) s.c) s

/-- `ADDQ` (R134). -/
def execAddq (n : Imm5) (rd : Reg) (s : State) : Res := finishZNC rd (addOp (s.x rd) (quick n) false) s

/-- `ADDQT` (R135). -/
def execAddqt (n : Imm5) (rd : Reg) (s : State) : Res := finishQuiet rd (s.x rd + quick n) s

/-- `SUB` (R136). -/
def execSub (rs rd : Reg) (s : State) : Res := finishZNC rd (subOp (s.x rd) (s.x rs) false) s

/-- `SUBC` (R137). -/
def execSubc (rs rd : Reg) (s : State) : Res := finishZNC rd (subOp (s.x rd) (s.x rs) s.c) s

/-- `SUBQ` (R138). -/
def execSubq (n : Imm5) (rd : Reg) (s : State) : Res := finishZNC rd (subOp (s.x rd) (quick n) false) s

/-- `SUBQT` (R139). -/
def execSubqt (n : Imm5) (rd : Reg) (s : State) : Res := finishQuiet rd (s.x rd - quick n) s

/-- `NEG` (R140): `0 - Rd`. -/
def execNeg (rd : Reg) (s : State) : Res := finishZNC rd (subOp 0#32 (s.x rd) false) s

/-- `AND` (R141). -/
def execAnd (rs rd : Reg) (s : State) : Res := finishZN rd (s.x rd &&& s.x rs) s

/-- `OR` (R142). -/
def execOr (rs rd : Reg) (s : State) : Res := finishZN rd (s.x rd ||| s.x rs) s

/-- `XOR` (R143). -/
def execXor (rs rd : Reg) (s : State) : Res := finishZN rd (s.x rd ^^^ s.x rs) s

/-- `NOT` (R144). -/
def execNot (rd : Reg) (s : State) : Res := finishZN rd (~~~ s.x rd) s

/-- `BTST` (R145): `Z` alone, no register. -/
def execBtst (n : Imm5) (rd : Reg) (s : State) : Res := .next (s.setZ (!(s.x rd).getLsbD n.toNat))

/-- `BSET` (R146). -/
def execBset (n : Imm5) (rd : Reg) (s : State) : Res := finishZN rd (s.x rd ||| BitVec.twoPow 32 n.toNat) s

/-- `BCLR` (R147). -/
def execBclr (n : Imm5) (rd : Reg) (s : State) : Res := finishZN rd (s.x rd &&& ~~~ BitVec.twoPow 32 n.toNat) s

/-- Flags of a comparison (R148): no register is written. -/
def compareZNC (rc : Word × Bool) (s : State) : Res := .next (s.setZNC rc.1 rc.2)

/-- `CMP` (R148). -/
def execCmp (rs rd : Reg) (s : State) : Res := compareZNC (subOp (s.x rd) (s.x rs) false) s

/-- `CMPQ` (R149). -/
def execCmpq (n : Imm5) (rd : Reg) (s : State) : Res := compareZNC (subOp (s.x rd) (sext5 n) false) s

/-- `ABS` (R150): `C` is the old sign, `N` is cleared. -/
def execAbs (rd : Reg) (s : State) : Res :=
  let v := s.x rd
  let neg := v.getLsbD 31
  let r := if neg then 0#32 - v else v
  .next { s.setX rd r with flags := putZCN s.flags (r == 0#32) neg false }

end Sys2Proof.Machine
end

