-- ==== Sys2Proof/Machine/Multiply.lean ====
section
/-! DEFINITION. Multiplies, the multiply-accumulate chain and the matrix multiply (spec/41_multiply.md). -/

namespace Sys2Proof.Machine

/-- `MULT` (R170): unsigned 16 x 16. -/
def execMult (rs rd : Reg) (s : State) : Res :=
  finishZN rd (BitVec.ofNat 32 (((s.x rs).extractLsb' 0 16).toNat * ((s.x rd).extractLsb' 0 16).toNat)) s

/-- The exact signed product of the low halves of two registers (R171, R172, R174). -/
def State.product (s : State) (ra rb : Reg) : Int := s16 (s.x ra) * s16 (s.x rb)

/-- `IMULT` (R171). -/
def execImult (rs rd : Reg) (s : State) : Res := finishZN rd (BitVec.ofInt 32 (s.product rs rd)) s

/-- `acc <- acc + s16 * s16`, `mod 2^64` (R174). -/
def State.accumulate (s : State) (ra rb : Reg) : State := { s with acc := s.acc + BitVec.ofInt 64 (s.product ra rb) }

/-- `x[rd] <- acc[31:0]` (R175). -/
def State.deliver (s : State) (rd : Reg) : State := s.setX rd (s.acc.extractLsb' 0 32)

/-- `pc <- pc + 2`. -/
def State.skipWord (s : State) : State := { s with pc := s.pc + 2#32 }

/-- The absorb loop (R173): `IMACN` words are accumulated, one `RESMAC` that follows them is executed, any other
word is left. It looks ahead at most `fuel` words. -/
def absorb : Nat → State → Res
  | 0, _ => .fault .endlessChain
  | n + 1, s =>
    match s.fetchWord s.pc with
    | .error r => .refused r
    | .ok w =>
      if opcOf w = imacnOpc then absorb n (s.accumulate (f1Of w) (f2Of w)).skipWord
      else if opcOf w = resmacOpc then .next (s.deliver (f2Of w)).skipWord
      else .next s

/-- Every even bus address: a loop that has looked at all of them and found `IMACN` only never ends. -/
def chainFuel : Nat := 2 ^ 23

/-- `in_delay` (R101): the instruction stands in the slot of a taken branch. -/
def State.inDelay (s : State) : Bool := s.delay == .executing

/-- `IMULTN` (R172, R173): the product replaces `acc`, `Z` and `N` are its, `Rd` is not written, then the chain. -/
def execImultn (rs rd : Reg) (s : State) : Res :=
  if s.inDelay then .refused .pcDependentInDelaySlot
  else
    let p := s.product rs rd
    absorb chainFuel ({ s with acc := BitVec.ofInt 64 p }.setZN (BitVec.ofInt 32 p))

/-- `RESMAC` dispatched on its own (R175). -/
def execResmac (rd : Reg) (s : State) : Res := .next (s.deliver rd)

/-- `IMACN` dispatched on its own (R174). -/
def execImacn (rs rd : Reg) (s : State) : Res := .next (s.accumulate rs rd)

/-- `MTXC[3:0]`, the element count (R42). -/
def State.mtxCount (s : State) : Nat := (s.mtxc.extractLsb' 0 4).toNat

/-- Bytes between two memory elements (R177). -/
def State.mtxStride (s : State) : Nat := if s.mtxc.getLsbD 4 then 2 * s.mtxCount else 2

/-- Element `i` of the register vector that starts at `B1[first]`, the even one in the high half (R177). -/
def State.mtxElement (s : State) (first : Reg) (i : Nat) : Half :=
  let w := s.reg .b1 (BitVec.ofNat 5 (first.toNat + i / 2))
  if i % 2 = 0 then w.extractLsb' 16 16 else w.extractLsb' 0 16

/-- The sum of the products of elements `i, i+1, …` (R177): `todo` of them, the next memory element at `addr`. -/
def State.mtxSum (s : State) (first : Reg) : Nat → Nat → Word → Int → Except Refusal Int
  | 0, _, _, sum => .ok sum
  | todo + 1, i, addr, sum =>
    if 31 < first.toNat + i / 2 then .error .mmultRegisterOverrun
    else match s.readHalf addr with
      | .error r => .error r
      | .ok m =>
        s.mtxSum first todo (i + 1) (addr + BitVec.ofNat 32 s.mtxStride)
          (sum + (s.mtxElement first i).toInt * m.toInt)

/-- `MMULT` (R177): the vector is in physical bank 1, the destination in the active bank. -/
def execMmult (rs rd : Reg) (s : State) : Res :=
  withValue (s.mtxSum rs s.mtxCount 0 s.mtxa 0) fun sum => finishZN rd (BitVec.ofInt 32 sum) s

end Sys2Proof.Machine
end

