-- ==== Sys2Proof/Machine/Divide.lean ====
section
/-! DEFINITION. The integer divider and its two precision modes (spec/42_divide.md). -/

namespace Sys2Proof.Machine

/-- The dividend of the mode `DIVCTRL[0]` (R186): the register, or the register shifted left by 16. -/
def State.dividend (s : State) (rd : Reg) : Nat :=
  if s.divctrl.getLsbD 0 then (s.x rd).toNat * 65536 else (s.x rd).toNat

/-- `DIV` (R186, R187): unsigned and truncating; a zero divisor writes 0xFFFFFFFF and nothing else. -/
def execDiv (rs rd : Reg) (s : State) : Res :=
  let d := (s.x rs).toNat
  if d = 0 then .next (s.setX rd 0xFFFFFFFF#32)
  else
    let n := s.dividend rd
    .next { s.setX rd (BitVec.ofNat 32 (n / d)) with remainder := BitVec.ofNat 32 (n % d) }

end Sys2Proof.Machine
end

