-- ==== Sys2Proof/Machine/Shift.lean ====
section
/-! DEFINITION. Shifts and rotates (spec/43_shift_rotate.md). -/

namespace Sys2Proof.Machine

/-- Left shift; 32 or more gives 0 (R190 b). -/
def shiftLeft (v : Word) (k : Nat) : Word := if 32 ≤ k then 0#32 else v <<< k

/-- Logical right shift; 32 or more gives 0 (R190 b). -/
def shiftRight (v : Word) (k : Nat) : Word := if 32 ≤ k then 0#32 else v >>> k

/-- Arithmetic right shift; 32 or more gives 32 copies of the sign (R190 b). -/
def shiftArith (v : Word) (k : Nat) : Word :=
  if 32 ≤ k then (if v.getLsbD 31 then 0xFFFFFFFF#32 else 0#32) else v.sshiftRight k

/-- Rotate right by `k < 32` (R196). -/
def rotateRight (v : Word) (k : Nat) : Word := if k = 0 then v else v >>> k ||| v <<< (32 - k)

/-- A shift by a signed register amount `k` (R190 a): right where `k` is not negative, else left by `-k`. The carry
is bit 0 of the old value for a right shift, bit 31 for a left one (R190 d). -/
def shiftBy (right : Word → Nat → Word) (v : Word) (k : Int) : Word × Bool :=
  if k < 0 then (shiftLeft v (-k).toNat, v.getLsbD 31) else (right v k.toNat, v.getLsbD 0)

/-- `SH` (R191). -/
def execSh (rs rd : Reg) (s : State) : Res := finishZNC rd (shiftBy shiftRight (s.x rd) (s.x rs).toInt) s

/-- `SHA` (R192). -/
def execSha (rs rd : Reg) (s : State) : Res := finishZNC rd (shiftBy shiftArith (s.x rd) (s.x rs).toInt) s

/-- `SHLQ` (R193). -/
def execShlq (n : Imm5) (rd : Reg) (s : State) : Res :=
  finishZNC rd (shiftLeft (s.x rd) (shlqCount n), (s.x rd).getLsbD 31) s

/-- `SHRQ` (R194). -/
def execShrq (n : Imm5) (rd : Reg) (s : State) : Res :=
  finishZNC rd (shiftRight (s.x rd) (cz n), (s.x rd).getLsbD 0) s

/-- `SHARQ` (R195). -/
def execSharq (n : Imm5) (rd : Reg) (s : State) : Res :=
  finishZNC rd (shiftArith (s.x rd) (cz n), (s.x rd).getLsbD 0) s

/-- `ROR` (R196): the count is the low five bits of the source. -/
def execRor (rs rd : Reg) (s : State) : Res :=
  finishZNC rd (rotateRight (s.x rd) ((s.x rs).extractLsb' 0 5).toNat, (s.x rd).getLsbD 31) s

/-- `RORQ` (R197). -/
def execRorq (n : Imm5) (rd : Reg) (s : State) : Res :=
  finishZNC rd (rotateRight (s.x rd) (rorqCount n), (s.x rd).getLsbD 31) s

end Sys2Proof.Machine
end

