-- ==== Sys2Proof/Machine/LoadStore.lean ====
section
/-! DEFINITION. Loads and stores (spec/44_load_store.md). Registers are read before any request is made: a bank
switch takes effect between instructions for every register operand (spec/70_reset_and_hazards.md R366). -/

namespace Sys2Proof.Machine

/-- `x[rd] <- MemRead(a, 4)` (R211). -/
def loadLong (a : Word) (rd : Reg) (s : State) : Res := withValue (s.readLong a) fun v => .next (s.setX rd v)

/-- `LOADB` (R209). -/
def execLoadb (rs rd : Reg) (s : State) : Res :=
  let a := s.x rs
  if s.inWindow a then loadLong (longAlign a) rd s
  else withValue (s.readByte a) fun v => .next (s.setX rd (zext v))

/-- `LOADW` (R210). -/
def execLoadw (rs rd : Reg) (s : State) : Res :=
  let a := s.x rs
  if s.inWindow a then loadLong (longAlign a) rd s
  else withValue (s.readHalf a) fun v => .next (s.setX rd (zext v))

/-- `LOAD (Rs)` (R211). -/
def execLoad (rs rd : Reg) (s : State) : Res := loadLong (s.x rs) rd s

/-- `LOADP` (R212): the long at the lower address to `HIDATA`, then the next one to the register. -/
def execLoadp (rs rd : Reg) (s : State) : Res :=
  let a := s.x rs
  if s.inWindow a then loadLong (longAlign a) rd s
  else withValue (s.readLong a) fun hi => loadLong (a + 4#32) rd { s with hiMod := hi }

/-- `LOAD (R14+n)` (R213). -/
def execLoadR14n (n : Imm5) (rd : Reg) (s : State) : Res := loadLong (s.eaQuick 14#5 n) rd s

/-- `LOAD (R15+n)` (R214). -/
def execLoadR15n (n : Imm5) (rd : Reg) (s : State) : Res := loadLong (s.eaQuick 15#5 n) rd s

/-- `LOAD (R14+Rs)` (R215). -/
def execLoadR14r (rs rd : Reg) (s : State) : Res := loadLong (s.eaIndex 14#5 rs) rd s

/-- `LOAD (R15+Rs)` (R216). -/
def execLoadR15r (rs rd : Reg) (s : State) : Res := loadLong (s.eaIndex 15#5 rs) rd s

/-- `STOREB` (R221). -/
def execStoreb (rs rd : Reg) (s : State) : Res :=
  let a := s.x rs
  if s.inWindow a then writeLong (longAlign a) (s.x rd) s
  else writeByte a ((s.x rd).extractLsb' 0 8) s

/-- `STOREW` (R222). -/
def execStorew (rs rd : Reg) (s : State) : Res :=
  let a := s.x rs
  if s.inWindow a then writeLong (longAlign a) (s.x rd) s
  else writeHalf a ((s.x rd).extractLsb' 0 16) s

/-- `STORE (Rs)` (R223). -/
def execStore (rs rd : Reg) (s : State) : Res := writeLong (s.x rs) (s.x rd) s

/-- `STOREP` (R224): `HIDATA` at the lower address, then the register at the next long. -/
def execStorep (rs rd : Reg) (s : State) : Res :=
  let a := s.x rs
  let v := s.x rd
  if s.inWindow a then writeLong (longAlign a) v s
  else andThen (writeLong a s.hiMod s) fun t => writeLong (a + 4#32) v t

/-- `STORE (R14+n)` (R225). -/
def execStoreR14n (n : Imm5) (rd : Reg) (s : State) : Res := writeLong (s.eaQuick 14#5 n) (s.x rd) s

/-- `STORE (R15+n)` (R226). -/
def execStoreR15n (n : Imm5) (rd : Reg) (s : State) : Res := writeLong (s.eaQuick 15#5 n) (s.x rd) s

/-- `STORE (R14+Rs)` (R227). -/
def execStoreR14r (rs rd : Reg) (s : State) : Res := writeLong (s.eaIndex 14#5 rs) (s.x rd) s

/-- `STORE (R15+Rs)` (R228). -/
def execStoreR15r (rs rd : Reg) (s : State) : Res := writeLong (s.eaIndex 15#5 rs) (s.x rd) s

end Sys2Proof.Machine
end

