-- ==== Sys2Proof/Machine/Branch.lean ====
section
/-! DEFINITION. Branches (spec/45_branch.md). A meaning leaves the delay-slot word in `State.delay`; the rest of the
same `Step` dispatches it (Machine/Sequence.lean). -/

namespace Sys2Proof.Machine

/-- `TakeBranch(target)` (R238) up to the nested dispatch: the word after the branch is fetched, `pc` becomes the
target, and the branch is charged its 3 (R372). -/
def takeBranch (target : Word) (s : State) : Res :=
  withValue (s.fetchWord s.pc) fun d =>
    .next { s with pc := target, delay := .pending d, cycles := s.cycles + 3 }

/-- The target register of `JUMP` (R239): the alternate bank's in the lag instruction. -/
def State.jumpTarget (s : State) (rs : Reg) : Word := if s.lagNow then s.alt rs else s.x rs

/-- The target of `JR`, `pc` already past the branch (R237). -/
def State.jrTarget (s : State) (n : Imm5) : Word := s.pc + jrDisp n

/-- `JUMP` (R236). -/
def execJump (rs : Reg) (cc : CondCode) (s : State) : Res :=
  if s.inDelay then .refused .branchInDelaySlot
  else if s.cond cc then takeBranch (s.jumpTarget rs) s
  else .next s

/-- `JR` (R237). -/
def execJr (n : Imm5) (cc : CondCode) (s : State) : Res :=
  if s.inDelay then .refused .branchInDelaySlot
  else if s.cond cc then takeBranch (s.jrTarget n) s
  else .next s

end Sys2Proof.Machine
end

