-- ==== Sys2Proof/Machine/VariantOnly.lean ====
section
/-! DEFINITION. Variant-only instructions (spec/46_variant_only.md); `LOADP` and `STOREP` are with the loads and
stores. -/

namespace Sys2Proof.Machine

/-- A signed value clamped to `lo .. hi` (R251 to R253, R257). -/
def clamp (lo hi v : Int) : Int := if v < lo then lo else if hi < v then hi else v

/-- `SAT8` (R251). -/
def execSat8 (rd : Reg) (s : State) : Res := finishZN rd (BitVec.ofInt 32 (clamp 0 255 (s.x rd).toInt)) s

/-- `SAT16` (R252). -/
def execSat16 (rd : Reg) (s : State) : Res := finishZN rd (BitVec.ofInt 32 (clamp 0 65535 (s.x rd).toInt)) s

/-- `SAT24` (R253). -/
def execSat24 (rd : Reg) (s : State) : Res := finishZN rd (BitVec.ofInt 32 (clamp 0 0xFFFFFF (s.x rd).toInt)) s

/-- `PACK` (R254). -/
def packWord (v : Word) : Word :=
  (v >>> 10 &&& 0x0000F000#32) ||| (v >>> 5 &&& 0x00000F00#32) ||| (v &&& 0x000000FF#32)

/-- `UNPACK` (R255). -/
def unpackWord (v : Word) : Word :=
  ((v &&& 0x0000F000#32) <<< 10) ||| ((v &&& 0x00000F00#32) <<< 5) ||| (v &&& 0x000000FF#32)

/-- `PACK` (R254). -/
def execPack (rd : Reg) (s : State) : Res := finishZN rd (packWord (s.x rd)) s

/-- `UNPACK` (R255). -/
def execUnpack (rd : Reg) (s : State) : Res := finishZN rd (unpackWord (s.x rd)) s

/-- `SAT16S` (R257). -/
def execSat16s (rd : Reg) (s : State) : Res :=
  finishZN rd (BitVec.ofInt 32 (clamp (-32768) 32767 (s.x rd).toInt)) s

/-- The result of `SAT32S` (R258): by the accumulator's high half alone. -/
def sat32 (acc : Acc) (v : Word) : Word :=
  let t := (acc.extractLsb' 32 32).toInt
  if t < -1 then 0x80000000#32 else if 0 < t then 0x7FFFFFFF#32 else v

/-- `SAT32S` (R258). -/
def execSat32s (rd : Reg) (s : State) : Res := finishZN rd (sat32 s.acc (s.x rd)) s

/-- `mirror16` (R52): all 16 bits reversed. -/
def mirror16 (v : Half) : Half := v.reverse

/-- The 32-bit reversal made of two table look-ups (R259). -/
def mirrorWord (v : Word) : Word := mirror16 (v.extractLsb' 0 16) ++ mirror16 (v.extractLsb' 16 16)

/-- `MIRROR` (R259). -/
def execMirror (rd : Reg) (s : State) : Res := finishZN rd (mirrorWord (s.x rd)) s

/-- The modulo mask of `ADDQMOD` and `SUBQMOD` (R262): a 1 in `mask` keeps the old bit. -/
def underMask (mask old new : Word) : Word := (new &&& ~~~ mask) ||| (old &&& mask)

/-- Result under the mask, carry of the whole operation (R262). -/
def finishMasked (rd : Reg) (rc : Word × Bool) (s : State) : Res :=
  finishZNC rd (underMask s.hiMod (s.x rd) rc.1, rc.2) s

/-- `ADDQMOD` (R262). -/
def execAddqmod (n : Imm5) (rd : Reg) (s : State) : Res := finishMasked rd (addOp (s.x rd) (quick n) false) s

/-- `SUBQMOD` (R263). -/
def execSubqmod (n : Imm5) (rd : Reg) (s : State) : Res := finishMasked rd (subOp (s.x rd) (quick n) false) s

/-- `ILLEGAL` (R264): a no-operation of one word. -/
def execIllegal (s : State) : Res := .next s

end Sys2Proof.Machine
end

