-- ==== Sys2Proof/Machine/Moves.lean ====
section
/-! DEFINITION. Register moves, immediates, float helpers, no-operation (spec/47_moves_misc.md). -/

namespace Sys2Proof.Machine

/-- `MOVE` (R270). -/
def execMove (rs rd : Reg) (s : State) : Res := finishQuiet rd (s.x rs) s

/-- `MOVEQ` (R271): the raw field. -/
def execMoveq (n : Imm5) (rd : Reg) (s : State) : Res := finishQuiet rd (zext n) s

/-- `MOVETA` (R273): active to alternate. -/
def execMoveta (rs rd : Reg) (s : State) : Res := .next (s.setAlt rd (s.x rs))

/-- `MOVEFA` (R274): alternate to active. -/
def execMovefa (rs rd : Reg) (s : State) : Res := finishQuiet rd (s.alt rs) s

/-- `MOVEI` (R272): the two extension words, already fetched through the fetch port, are passed. -/
def execMovei (imm : Word) (rd : Reg) (s : State) : Res :=
  if s.inDelay then .refused .pcDependentInDelaySlot
  else .next ({ s with pc := s.pc + 4#32 }.setX rd imm)

/-- `MOVE PC` (R275): the address of this instruction. -/
def execMovePc (rd : Reg) (s : State) : Res :=
  if s.inDelay then .refused .pcDependentInDelaySlot else finishQuiet rd s.ppc s

/-- `MTOI` (R276): the mantissa field under nine copies of the sign. -/
def mtoiWord (v : Word) : Word := (v.sshiftRight 8 &&& 0xFF800000#32) ||| (v &&& 0x007FFFFF#32)

/-- `MTOI` (R276). -/
def execMtoi (rs rd : Reg) (s : State) : Res := finishZN rd (mtoiWord (s.x rs)) s

/-- `NORMI` (R277): the index of the highest 1 bit less 22, and 0 for 0. -/
def normiWord (v : Word) : Word := if v = 0#32 then 0#32 else BitVec.ofInt 32 ((v.toNat.log2 : Int) - 22)

/-- `NORMI` (R277). -/
def execNormi (rs rd : Reg) (s : State) : Res := finishZN rd (normiWord (s.x rs)) s

/-- `NOP` (R278). -/
def execNop (s : State) : Res := .next s

end Sys2Proof.Machine
end

