-- ==== Sys2Proof/Machine/Events.lean ====
section
/-! DEFINITION. The environment's events (spec/00_scope.md R9): interrupt lines (spec/60_exceptions.md R323), the
control port from outside (spec/48_ctrl_io.md R285), reset (spec/10_state.md R62), other bus masters
(spec/20_memory.md R87). -/

namespace Sys2Proof.Machine

/-- `SetLine(k, state)` (R323): the latch is cleared first for either state. -/
def setLine (k : Nat) (assert : Bool) (s : State) : Res :=
  if s.cfg.nlevels ≤ k ∨ 6 ≤ k then .refused .noSuchLine
  else if assert then checkIrqs .between (s.setLatch k true)
  else .next (s.setLatch k false)

/-- `Reset` (R62, R360): no memory request, memory untouched. -/
def resetCore (s : State) : State :=
  { State.resetOf s.cfg with mem := s.mem, cycles := s.cycles, agenda := s.agenda }

/-- Another bus master's write of one byte (R87). It is no store of the core (R90). -/
def masterWrite (a : Nat) (v : Byte) (s : State) : State := { s with mem := Memory.write s.mem (a % busSize) v }

/-- One event of the environment (R9). -/
def applyEvent (e : Event) (s : State) : Res :=
  match e with
  | .setLine k assert => setLine k assert s
  | .ctrlWrite off value mask => ctrlWrite .between off value mask s
  | .ctrlRead _ => .next s
  | .reset => .next (resetCore s)
  | .memory a v => .next (masterWrite a v s)

end Sys2Proof.Machine
end

