-- ==== Sys2Proof/Machine/Sequence.lean ====
section
/-! DEFINITION. One `Step` of the core (spec/30_encoding.md R101) and the interleaving with the environment
(spec/00_scope.md R9), over the dispatch of instructions, which is passed. -/

namespace Sys2Proof.Machine

/-- The reason a reserved encoding stops (R110 b). -/
def refusalOf : Reserved → Refusal
  | .packSelector => .reservedPackSelector

/-- The rest of a taken branch (R238): the slot's word is dispatched with `in_delay` true. Of a `MOVEI` there the
extension words are not fetched, since R242 refuses it whatever they are. -/
def runSlot (dispatch : Instr → State → Res) (s : State) : Res :=
  match s.delay with
  | .pending d =>
    match decodeWord s.cfg.variant d 0#32 with
    | .error r => .refused (refusalOf r)
    | .ok i => andThen (dispatch i { s with delay := .executing }) fun t => .next { t with delay := .idle }
  | _ => .next s

/-- The immediate of the extension words, for an opcode word that has them (R272). -/
def State.fetchExt (s : State) (w : Half) : Except Refusal Word :=
  if opcOf w = moveiOpc then
    match s.fetchWord (s.pc + 2#32), s.fetchWord (s.pc + 4#32) with
    | .ok w1, .ok w2 => .ok (extOf w1 w2)
    | .error r, _ => .error r
    | _, .error r => .error r
  else .ok 0#32

/-- The instruction at `pc` (R101, R106, R107). -/
def State.fetchInstr (s : State) : Except Refusal Instr :=
  match s.fetchWord s.pc with
  | .error r => .error r
  | .ok w =>
    match s.fetchExt w with
    | .error r => .error r
    | .ok ext =>
      match decodeWord s.cfg.variant w ext with
      | .error r => .error (refusalOf r)
      | .ok i => .ok i

/-- The lag flags move on (R57) and the trip is charged 1 (R372). -/
def State.beginStep (s : State) : State :=
  { s with lagNow := s.lagPending, lagPending := false, cycles := s.cycles + 1 }

/-- `ppc` and `pc` past the opcode word (R101). -/
def State.fetched (s : State) : State := { s with ppc := s.pc, pc := s.pc + 2#32 }

/-- Fetch, dispatch, and the delay slot of a taken branch (R101, R238). -/
def fetchAndRun (dispatch : Instr → State → Res) (s : State) : Res :=
  withValue s.fetchInstr fun i => andThen (dispatch i s.fetched) (runSlot dispatch)

/-- One `Step` (R101): boundary check, lag, fetch, dispatch. A halted core does nothing (R346). -/
def coreStep (dispatch : Instr → State → Res) (s : State) : Res :=
  if s.run then andThen (checkIrqs .between s) fun t => fetchAndRun dispatch t.beginStep
  else .next s

/-- One move of whoever moves next (R9). -/
def turn (dispatch : Instr → State → Res) (s : State) : Res :=
  match s.agenda with
  | [] => coreStep dispatch s
  | .core :: rest => coreStep dispatch { s with agenda := rest }
  | .event e :: rest => applyEvent e { s with agenda := rest }

/-- Bytes written at the bus address `a` by a loader outside the core. -/
def State.load (s : State) (a : Word) (bytes : List Byte) : State :=
  { s with
    mem := Memory.writeAll s.mem (bytes.zipIdx.map fun p => (busAddr a p.2, p.1))
    stored := s.stored.filter fun k => !((List.range bytes.length).map (busAddr a)).contains k }

/-- A core about to run the instruction at its even `pc`: running, no level about to be taken, no turn of the
environment first. -/
def State.ready (s : State) : State :=
  { s with
    pc := s.pc &&& 0xFFFFFFFE#32
    ctrl := putBit (if s.winner = none then s.ctrl else s.ctrl &&& ~~~ 0x000107C0#32) 0 true
    delay := .idle
    agenda := [] }

end Sys2Proof.Machine
end

