-- ==== Sys2Proof/Machine/Dispatch.lean ====
section
/-! DEFINITION. The dispatch of an instruction to its meaning (spec/30_encoding.md R101, R108), arm by arm. -/

namespace Sys2Proof.Machine

def exec (i : Instr) (s : State) : Host.Outcome State Fault Refusal :=
  match i with
  | .add rs rd => Sys2Proof.Machine.execAdd rs rd s
  | .addc rs rd => Sys2Proof.Machine.execAddc rs rd s
  | .addq n rd => Sys2Proof.Machine.execAddq n rd s
  | .addqt n rd => Sys2Proof.Machine.execAddqt n rd s
  | .sub rs rd => Sys2Proof.Machine.execSub rs rd s
  | .subc rs rd => Sys2Proof.Machine.execSubc rs rd s
  | .subq n rd => Sys2Proof.Machine.execSubq n rd s
  | .subqt n rd => Sys2Proof.Machine.execSubqt n rd s
  | .neg rd => Sys2Proof.Machine.execNeg rd s
  | .and rs rd => Sys2Proof.Machine.execAnd rs rd s
  | .or rs rd => Sys2Proof.Machine.execOr rs rd s
  | .xor rs rd => Sys2Proof.Machine.execXor rs rd s
  | .not rd => Sys2Proof.Machine.execNot rd s
  | .btst n rd => Sys2Proof.Machine.execBtst n rd s
  | .bset n rd => Sys2Proof.Machine.execBset n rd s
  | .bclr n rd => Sys2Proof.Machine.execBclr n rd s
  | .mult rs rd => Sys2Proof.Machine.execMult rs rd s
  | .imult rs rd => Sys2Proof.Machine.execImult rs rd s
  | .imultn rs rd => Sys2Proof.Machine.execImultn rs rd s
  | .resmac rd => Sys2Proof.Machine.execResmac rd s
  | .imacn rs rd => Sys2Proof.Machine.execImacn rs rd s
  | .div rs rd => Sys2Proof.Machine.execDiv rs rd s
  | .abs rd => Sys2Proof.Machine.execAbs rd s
  | .sh rs rd => Sys2Proof.Machine.execSh rs rd s
  | .shlq n rd => Sys2Proof.Machine.execShlq n rd s
  | .shrq n rd => Sys2Proof.Machine.execShrq n rd s
  | .sha rs rd => Sys2Proof.Machine.execSha rs rd s
  | .sharq n rd => Sys2Proof.Machine.execSharq n rd s
  | .ror rs rd => Sys2Proof.Machine.execRor rs rd s
  | .rorq n rd => Sys2Proof.Machine.execRorq n rd s
  | .cmp rs rd => Sys2Proof.Machine.execCmp rs rd s
  | .cmpq n rd => Sys2Proof.Machine.execCmpq n rd s
  | .subqmod n rd => Sys2Proof.Machine.execSubqmod n rd s
  | .sat8 rd => Sys2Proof.Machine.execSat8 rd s
  | .sat16s rd => Sys2Proof.Machine.execSat16s rd s
  | .sat16 rd => Sys2Proof.Machine.execSat16 rd s
  | .move rs rd => Sys2Proof.Machine.execMove rs rd s
  | .moveq n rd => Sys2Proof.Machine.execMoveq n rd s
  | .moveta rs rd => Sys2Proof.Machine.execMoveta rs rd s
  | .movefa rs rd => Sys2Proof.Machine.execMovefa rs rd s
  | .movei imm rd => Sys2Proof.Machine.execMovei imm rd s
  | .loadb rs rd => Sys2Proof.Machine.execLoadb rs rd s
  | .loadw rs rd => Sys2Proof.Machine.execLoadw rs rd s
  | .load rs rd => Sys2Proof.Machine.execLoad rs rd s
  | .sat32s rd => Sys2Proof.Machine.execSat32s rd s
  | .loadp rs rd => Sys2Proof.Machine.execLoadp rs rd s
  | .loadR14n n rd => Sys2Proof.Machine.execLoadR14n n rd s
  | .loadR15n n rd => Sys2Proof.Machine.execLoadR15n n rd s
  | .storeb rs rd => Sys2Proof.Machine.execStoreb rs rd s
  | .storew rs rd => Sys2Proof.Machine.execStorew rs rd s
  | .store rs rd => Sys2Proof.Machine.execStore rs rd s
  | .mirror rd => Sys2Proof.Machine.execMirror rd s
  | .storep rs rd => Sys2Proof.Machine.execStorep rs rd s
  | .storeR14n n rd => Sys2Proof.Machine.execStoreR14n n rd s
  | .storeR15n n rd => Sys2Proof.Machine.execStoreR15n n rd s
  | .movePc rd => Sys2Proof.Machine.execMovePc rd s
  | .jump rs cc => Sys2Proof.Machine.execJump rs cc s
  | .jr n cc => Sys2Proof.Machine.execJr n cc s
  | .mmult rs rd => Sys2Proof.Machine.execMmult rs rd s
  | .mtoi rs rd => Sys2Proof.Machine.execMtoi rs rd s
  | .normi rs rd => Sys2Proof.Machine.execNormi rs rd s
  | .nop => Sys2Proof.Machine.execNop s
  | .loadR14r rs rd => Sys2Proof.Machine.execLoadR14r rs rd s
  | .loadR15r rs rd => Sys2Proof.Machine.execLoadR15r rs rd s
  | .storeR14r rs rd => Sys2Proof.Machine.execStoreR14r rs rd s
  | .storeR15r rs rd => Sys2Proof.Machine.execStoreR15r rs rd s
  | .illegal => Sys2Proof.Machine.execIllegal s
  | .sat24 rd => Sys2Proof.Machine.execSat24 rd s
  | .addqmod n rd => Sys2Proof.Machine.execAddqmod n rd s
  | .pack rd => Sys2Proof.Machine.execPack rd s
  | .unpack rd => Sys2Proof.Machine.execUnpack rd s

end Sys2Proof.Machine
end

