-- ==== Sys2Proof/Machine/Step.lean ====
section
/-! DEFINITION. One step of the machine: one move of the core or of its environment (spec/00_scope.md R9). -/

namespace Sys2Proof.Machine

/-- One step: the `Step` of R101, or the event the agenda names. -/
def step (s : State) : Host.Outcome State Fault Refusal := turn exec s

/-- `s` with an instruction, given by the opcode table's numbering, stored where `step` fetches next, and all that
it takes for the next step to run it (log entry 4). -/
def State.withFetchWord (s : State) (nbits w : Nat) : State :=
  s.ready.load s.ready.pc (tableBytes nbits w)

end Sys2Proof.Machine
end

