-- ==== Sys2Proof/Safety.lean ====
section
/-! DEFINITION. What counts as a legal state between steps, what a safe run is, and the terms in which statements say
what an instruction changes and what it leaves alone. -/

namespace Sys2Proof.Machine

/-! The invariant of the machine between steps. -/

/-- `FLAGS` holds stored bits only (R37, R289). -/
def FlagsLegal (s : State) : Prop := s.flags &&& ~~~ (writableFlags s.cfg.variant ||| 8#32) = 0#32

/-- The strobes `CPUINT` and `FORCEINT0` read 0 (R41, R287). -/
def CtrlLegal (s : State) : Prop := s.ctrl.getLsbD 1 = false ∧ s.ctrl.getLsbD 2 = false

/-- The active bank is the one the flags require (R24). -/
def BankLegal (s : State) : Prop := s.cur = s.required

/-- Stored-to addresses are kept only where `FETCH_COHERENT` is false, rising and on the bus (R90). -/
def StoredLegal (s : State) : Prop :=
  (s.cfg.fetchCoherent = true → s.stored = []) ∧ s.stored.Pairwise (· < ·) ∧ ∀ a ∈ s.stored, a < busSize

/-- The invariant but for the delay slot: it holds inside a step too. -/
def InvInside (s : State) : Prop :=
  Memory.wf s.mem = true ∧ FlagsLegal s ∧ CtrlLegal s ∧ BankLegal s ∧ StoredLegal s

/-- The invariant between steps: no delay slot is open (R238). -/
def Inv (s : State) : Prop := InvInside s ∧ s.delay = .idle

/-- A run of `n` steps that stops nowhere: what a claim about a program asks for. -/
def SafeRun (n : Nat) (s : State) : Prop := ∃ t, Sys2Proof.core.run n s = .next t

/-! Effects and frames. -/

/-- Everything but the general registers, `FLAGS`, `PC` and memory is as in `s`. To say that one of these becomes `v`,
compare with `s` so changed. -/
def KeepsSpecial (s t : State) : Prop :=
  t.cfg = s.cfg ∧ t.cur = s.cur ∧ t.ctrl = s.ctrl ∧ t.mtxc = s.mtxc ∧ t.mtxa = s.mtxa ∧ t.endian = s.endian ∧
  t.hiMod = s.hiMod ∧ t.divctrl = s.divctrl ∧ t.remainder = s.remainder ∧ t.acc = s.acc ∧ t.ppc = s.ppc ∧
  t.lagPending = s.lagPending ∧ t.lagNow = s.lagNow ∧ t.delay = s.delay ∧ t.cpuInts = s.cpuInts ∧
  t.cycles = s.cycles ∧ t.agenda = s.agenda

/-- Every byte of memory reads as before, and none was stored to. -/
def KeepsMem (s t : State) : Prop := (∀ a, t.byteAt a = s.byteAt a) ∧ t.stored = s.stored

/-- Both banks are as before. -/
def KeepsRegs (s t : State) : Prop := ∀ b r, t.reg b r = s.reg b r

/-- Register `rd` of the active bank becomes `v`, every other register of both banks is as before. -/
def WritesReg (s t : State) (rd : Reg) (v : Word) : Prop :=
  t.reg s.cur rd = v ∧ ∀ b r, ¬ (b = s.cur ∧ r = rd) → t.reg b r = s.reg b r

/-- `Z`, `C`, `N` become these and every other bit of `FLAGS` is as before. -/
def FlagsBecome (s t : State) (z c n : Bool) : Prop :=
  t.z = z ∧ t.c = c ∧ t.n = n ∧ ∀ i, 3 ≤ i → t.flags.getLsbD i = s.flags.getLsbD i

/-- A register-only instruction's whole effect but for flags: `rd` becomes `v`. -/
def OnlyWrites (s t : State) (rd : Reg) (v : Word) : Prop :=
  WritesReg s t rd v ∧ t.pc = s.pc ∧ KeepsSpecial s t ∧ KeepsMem s t

/-- `rd` becomes `v` and nothing else changes, no flag either. -/
def WritesQuietly (s t : State) (rd : Reg) (v : Word) : Prop := OnlyWrites s t rd v ∧ t.flags = s.flags

/-- `rd` becomes `v`, `Z` and `N` are taken from it, `C` is kept (R10 `setZN`). -/
def WritesZN (s t : State) (rd : Reg) (v : Word) : Prop :=
  OnlyWrites s t rd v ∧ FlagsBecome s t (decide (v.toNat = 0)) s.c (decide (2 ^ 31 ≤ v.toNat))

/-- `rd` becomes `v`, `Z` and `N` are taken from it, `C` becomes `c` (R10 `setZNC`). -/
def WritesZNC (s t : State) (rd : Reg) (v : Word) (c : Bool) : Prop :=
  OnlyWrites s t rd v ∧ FlagsBecome s t (decide (v.toNat = 0)) c (decide (2 ^ 31 ≤ v.toNat))

/-- Nothing changes but `Z`, `C`, `N`. -/
def OnlyFlags (s t : State) (z c n : Bool) : Prop :=
  KeepsRegs s t ∧ t.pc = s.pc ∧ KeepsSpecial s t ∧ KeepsMem s t ∧ FlagsBecome s t z c n

/-- The low half of a register read as signed (R8 `s16`). -/
def lowSigned (v : Word) : Int := (v.setWidth 16).toInt

/-- The immediate of a quick form: 0 stands for 32 (R104). -/
def quickValue (n : Imm5) : Nat := if n = 0#5 then 32 else n.toNat

/-- The bytes of an access of `n` bytes at `a` lie at these bus addresses. -/
def InAccess (a : Word) (n b : Nat) : Prop := ∃ k, k < n ∧ b = busAddr a k

/-- Everything but memory is as before; outside the `n` bytes at `a` memory is too. With `FETCH_COHERENT` false those
bytes are remembered as stored to (R90). -/
def StoresOnly (s t : State) (a : Word) (n : Nat) : Prop :=
  KeepsRegs s t ∧ t.flags = s.flags ∧ t.pc = s.pc ∧ KeepsSpecial s t ∧
  (∀ b, ¬ InAccess a n b → t.byteAt b = s.byteAt b) ∧
  ∀ b, b ∈ t.stored ↔ b ∈ s.stored ∨ (s.cfg.fetchCoherent = false ∧ InAccess a n b)

/-- The long `v` is stored at `a`, and nothing else changes. -/
def StoresLong (s t : State) (a v : Word) : Prop := StoresOnly s t a 4 ∧ t.memLong a = v

/-- The long access at `a` goes to memory: aligned, and no mapped control register (R79, R82). -/
def PlainLong (s : State) (a : Word) : Prop :=
  a.toNat % 4 = 0 ∧ ¬ (s.cfg.ctrlMapped = true ∧ ∃ k, k < s.cfg.nctrl ∧ a.toNat % 2 ^ 24 = s.cfg.ctrlBase + 4 * k)

/-- The access of `n` bytes at `a` misses the control block (R82). -/
def MissesCtrl (s : State) (a : Word) (n : Nat) : Prop :=
  s.cfg.ctrlMapped = true →
    a.toNat % 2 ^ 24 + n ≤ s.cfg.ctrlBase ∨ s.cfg.ctrlBase + 4 * s.cfg.nctrl ≤ a.toNat % 2 ^ 24

/-- The long access at `a` reaches control register `k` (R82). -/
def ReachesCtrl (s : State) (a : Word) (k : Nat) : Prop :=
  s.cfg.ctrlMapped = true ∧ k < s.cfg.nctrl ∧ a.toNat % 4 = 0 ∧ a.toNat % 2 ^ 24 = s.cfg.ctrlBase + 4 * k

/-- The address lies in the internal-RAM window (R77). -/
def InWindow (s : State) (a : Word) : Prop := s.cfg.winLo.toNat ≤ a.toNat ∧ a.toNat ≤ s.cfg.winHi.toNat

/-! Encodings. -/

/-- On both variants the word of primary opcode `opc` and fields `f1`, `f2` is the instruction `i` (R108). -/
def Encoded (opc : BitVec 6) (f1 f2 : BitVec 5) (i : Instr) : Prop :=
  ∀ v ext, decodeWord v (opWord opc f1 f2) ext = .ok i

/-- On variant `v` the word of primary opcode `opc` and fields `f1`, `f2` is the instruction `i` (R108). -/
def EncodedOn (v : Variant) (opc : BitVec 6) (f1 f2 : BitVec 5) (i : Instr) : Prop :=
  ∀ ext, decodeWord v (opWord opc f1 f2) ext = .ok i

/-! Steps. -/

/-- The core moves next, runs, and no level is about to be taken: the next step is the instruction at `pc`. -/
def AboutToRun (s : State) : Prop := s.run = true ∧ s.agenda = [] ∧ s.winner = none ∧ s.delay = .idle

/-- The state an instruction fetched at `pc` starts from (R57, R101, R372). -/
def Begun (s : State) : State :=
  { s with lagNow := s.lagPending, lagPending := false, cycles := s.cycles + 1, ppc := s.pc, pc := s.pc + 2#32 }

end Sys2Proof.Machine
end

