-- ==== Sys2Proof/Certificates/Slice0/Obligations.lean ====
section
/-! DEFINITION. The statements for the provers, from the numbered rules of spec/. An instruction's statement says
which words it is on which variant, that `exec` answers a next state, and the whole of that state. -/

open Sys2Proof Sys2Proof.Machine

/-! Encoding. -/

/-- Words and bytes of the spec's worked examples decode to the instructions they stand for (R132, R139, R172, R186,
R193, R236, R237, R251, R255, R262, R263, R264, R272, R278). -/
def Obligations.SampleWordsDecode : Prop :=
  (∀ v, decode v [0x00#8, 0x22#8] = .ok (.add 1#5 2#5, [])) ∧
  (∀ v, decode v [0x1F#8, 0xE2#8] = .ok (.subqt 31#5 2#5, [])) ∧
  (∀ v, decode v [0x48#8, 0x22#8] = .ok (.imultn 1#5 2#5, [])) ∧
  (∀ v, decode v [0x54#8, 0x22#8] = .ok (.div 1#5 2#5, [])) ∧
  (∀ v, decode v [0x63#8, 0x82#8] = .ok (.shlq 28#5 2#5, [])) ∧
  (∀ v, decode v [0xD0#8, 0xA4#8] = .ok (.jump 5#5 4#5, [])) ∧
  (∀ v, decode v [0xD7#8, 0xE0#8] = .ok (.jr 31#5 0#5, [])) ∧
  (∀ v, decode v [0xE7#8, 0xFF#8] = .ok (.nop, [])) ∧
  (∀ v, decode v [0x98#8, 0x02#8, 0x56#8, 0x78#8, 0x12#8, 0x34#8] = .ok (.movei 0x12345678#32 2#5, [])) ∧
  decode .gpu [0x80#8, 0x02#8] = .ok (.sat8 2#5, []) ∧ decode .dsp [0x80#8, 0x22#8] = .ok (.subqmod 1#5 2#5, []) ∧
  decode .gpu [0xFC#8, 0x22#8] = .ok (.unpack 2#5, []) ∧ decode .dsp [0xFC#8, 0x22#8] = .ok (.addqmod 1#5 2#5, []) ∧
  decode .gpu [0xF8#8, 0x62#8] = .ok (.sat24 2#5, []) ∧ decode .dsp [0xF8#8, 0x62#8] = .ok (.illegal, [])

/-- Decoding what the encoder writes gives the instruction back, with the bytes after it (R100, R102, R106, R108). -/
def Obligations.DecodeOfEncode : Prop :=
  ∀ (v : Variant) (i : Instr) (rest : List Byte), i.wf v = true →
    decode v (encodeBytes i ++ rest) = .ok (i, rest)

/-- An instruction read from bytes is one of the variant's, its first word says how many bytes were read (R112), and
encoding it again gives those bytes but for fields the instruction ignores: decoding both gives the same. -/
def Obligations.DecodedInstructions : Prop :=
  ∀ (v : Variant) (bytes : List Byte) (i : Instr) (rest : List Byte), decode v bytes = .ok (i, rest) →
    i.wf v = true ∧ decode v (encodeBytes i ++ rest) = .ok (i, rest) ∧
    ∃ a b tail, bytes = a :: b :: tail ∧ rest = bytes.drop (if opcOf (halfOf a b) = 38#6 then 6 else 2) ∧
      bytes.length = (if opcOf (halfOf a b) = 38#6 then 6 else 2) + rest.length

/-- Every word decodes to an instruction of the variant (R107), but for the reserved selectors of `GPU` slot 63 (R256): those
are refused, in a step of their own and in a taken branch's slot. -/
def Obligations.EveryWordDecodes : Prop :=
  ∀ (v : Variant) (w : Half) (ext : Word) (s : State),
    (¬ (v = .gpu ∧ opcOf w = 63#6 ∧ 2 ≤ (f1Of w).toNat) → ∃ i, decodeWord v w ext = .ok i ∧ i.wf v = true) ∧
    (v = .gpu → opcOf w = 63#6 → 2 ≤ (f1Of w).toNat → s.cfg.variant = v →
      decodeWord v w ext = .error .packSelector ∧
      (AboutToRun s → s.fetchWord s.pc = .ok w → step s = .refused .reservedPackSelector) ∧
      runSlot exec { s with delay := .pending w } = .refused .reservedPackSelector)

/-- The slots that differ between the variants are 32, 33, 42, 48, 62 and 63 and no other (R109), and what each holds
(R250). -/
def Obligations.VariantSlots : Prop :=
  (∀ opc : BitVec 6, (∀ f1 f2 ext, decodeFields .gpu opc f1 f2 ext = decodeFields .dsp opc f1 f2 ext) ↔
    opc ∉ [32#6, 33#6, 42#6, 48#6, 62#6, 63#6]) ∧
  ∀ f1 f2 : BitVec 5,
    EncodedOn .gpu 32#6 f1 f2 (.sat8 f2) ∧ EncodedOn .dsp 32#6 f1 f2 (.subqmod f1 f2) ∧
    EncodedOn .gpu 33#6 f1 f2 (.sat16 f2) ∧ EncodedOn .dsp 33#6 f1 f2 (.sat16s f2) ∧
    EncodedOn .gpu 42#6 f1 f2 (.loadp f1 f2) ∧ EncodedOn .dsp 42#6 f1 f2 (.sat32s f2) ∧
    EncodedOn .gpu 48#6 f1 f2 (.storep f1 f2) ∧ EncodedOn .dsp 48#6 f1 f2 (.mirror f2) ∧
    EncodedOn .gpu 62#6 f1 f2 (.sat24 f2) ∧ EncodedOn .dsp 62#6 f1 f2 .illegal ∧
    EncodedOn .gpu 63#6 0#5 f2 (.pack f2) ∧ EncodedOn .gpu 63#6 1#5 f2 (.unpack f2) ∧
    EncodedOn .dsp 63#6 f1 f2 (.addqmod f1 f2)

/-! The machine as a whole. -/

/-- The invariant holds after reset, of either variant and every configuration. -/
def Obligations.ResetMeetsInv : Prop := Inv State.reset ∧ ∀ c : Config, Inv (State.resetOf c)

/-- The invariant is kept by every step: memory stays canonical, `FLAGS` and `CTRL` hold stored bits only (R37, R41),
the active bank is the one the flags require (R24), no delay slot is left open (R238). -/
def Obligations.StepKeepsInv : Prop := ∀ s t : State, Inv s → step s = .next t → Inv t

/-- No step faults: the machine has no synchronous exception (R320), and the look-ahead of `IMULTN` ends (R173). -/
def Obligations.NoStepFaults : Prop := ∀ (s : State) (f : Fault), step s ≠ .fault f

/-- The variant and the parameters never change (R2, R5). -/
def Obligations.StepKeepsConfig : Prop := ∀ s t : State, step s = .next t → t.cfg = s.cfg

/-- Which instructions write what (R36, R38, R47, R48): only `DIV` writes `REMAINDER`; only `IMULTN` and `IMACN` write
`acc`; only `DIV`, `LOADP` and the stores write a control register other than `FLAGS` and `PC`; only a store changes a
bit of `FLAGS` other than `Z`, `C`, `N`, or the active bank; only a store changes memory. -/
def Obligations.WhoWritesWhat : Prop :=
  ∀ (i : Instr) (s t : State), exec i s = .next t →
    ((∀ rs rd, i ≠ .div rs rd) → t.remainder = s.remainder) ∧
    ((∀ rs rd, i ≠ .imultn rs rd ∧ i ≠ .imacn rs rd) → t.acc = s.acc) ∧
    t.ppc = s.ppc ∧ t.lagNow = s.lagNow ∧ t.agenda = s.agenda ∧
    ((∀ a b : BitVec 5, i ≠ .storeb a b ∧ i ≠ .storew a b ∧ i ≠ .store a b ∧ i ≠ .storep a b ∧ i ≠ .storeR14n a b ∧
        i ≠ .storeR15n a b ∧ i ≠ .storeR14r a b ∧ i ≠ .storeR15r a b) →
      (∀ b, 3 ≤ b → t.flags.getLsbD b = s.flags.getLsbD b) ∧ t.cur = s.cur ∧ t.ctrl = s.ctrl ∧ t.mtxc = s.mtxc ∧
      t.mtxa = s.mtxa ∧ t.endian = s.endian ∧ t.divctrl = s.divctrl ∧ t.lagPending = s.lagPending ∧
      t.cpuInts = s.cpuInts ∧ t.mem = s.mem ∧ ((∀ rs rd, i ≠ .loadp rs rd) → t.hiMod = s.hiMod))

/-- `Reset` (R62, R360): every control register 0, bank 0 active, no lag, `cpu_interrupt` not asserted; memory is not
touched, and no byte of it counts as stored to any more, since the stores that a fetch minds are those since the last
`Reset`. The banks, `acc` and `ppc` are left unspecified by the spec and unsaid here. -/
def Obligations.ResetEvent : Prop :=
  ∀ (s : State) (rest : List Turn), s.agenda = .event .reset :: rest →
    ∃ t, step s = .next t ∧ t.flags = 0#32 ∧ t.mtxc = 0#32 ∧ t.mtxa = 0#32 ∧ t.endian = 0#32 ∧ t.pc = 0#32 ∧
      t.ctrl = 0#32 ∧ t.hiMod = 0#32 ∧ t.divctrl = 0#32 ∧ t.remainder = 0#32 ∧ t.cur = .b0 ∧ t.lagPending = false ∧
      t.lagNow = false ∧ t.cpuInts = 0 ∧ t.mem = s.mem ∧ t.stored = [] ∧ t.cfg = s.cfg ∧ t.agenda = rest

/-- Starting the core from outside (R362): `PC` is written, then `CTRL` with `RUN`; then the core is about to run the
word at the entry, and nothing else has changed. That the two events stand in the agenda is the model's choice (log
entry 5), and so is the parameter by which a start forgets the bytes stored to, as U8 says, or keeps them (log entry
14). -/
def Obligations.StartFromOutside : Prop :=
  ∀ (s : State) (entry : Word), 6 ≤ s.cfg.nctrl → s.delay = .idle →
    s.agenda = [.event (.ctrlWrite 4 entry 0xFFFFFFFF#32), .event (.ctrlWrite 5 1#32 0xFFFFFFFF#32)] →
    ∃ u t, step s = .next u ∧ step u = .next t ∧ t.pc.toNat = entry.toNat % 2 ^ 24 ∧ AboutToRun t ∧ t.flags = s.flags ∧
      KeepsRegs s t ∧ (∀ a, t.byteAt a = s.byteAt a) ∧
      t.stored = (if s.run = false ∧ s.cfg.startForgetsStores = true then [] else s.stored) ∧
      KeepsSpecial { s with ctrl := 1#32, agenda := [] } t

/-- The environment and the halted core (R9, R346, R286, R87): the event that stands first is the step and waits for no
core; a halted core's own move changes nothing; an outside read of the control port changes nothing; another bus
master's write changes its byte alone. The model's own choices in this: the agenda, whose first entry moves (log entry
5), a step of a halted core that answers the same state (log entry 7), a read whose answer is not recorded (log entry
18), a master's write that leaves the stored-to bytes (log entry 14). -/
def Obligations.EnvironmentMoves : Prop :=
  ∀ (s : State) (rest : List Turn),
    (∀ e, s.agenda = .event e :: rest → step s = applyEvent e { s with agenda := rest }) ∧
    (s.run = false → s.agenda = [] → step s = .next s) ∧
    (s.run = false → s.agenda = .core :: rest → step s = .next { s with agenda := rest }) ∧
    (∀ off, applyEvent (.ctrlRead off) s = .next s) ∧
    ∀ a v, ∃ t, applyEvent (.memory a v) s = .next t ∧ t.byteAt (a % 2 ^ 24) = v ∧ t.stored = s.stored ∧
      (∀ b, b ≠ a % 2 ^ 24 → t.byteAt b = s.byteAt b) ∧ KeepsRegs s t ∧ t.flags = s.flags ∧ t.pc = s.pc ∧ KeepsSpecial s t

/-- A step runs the instruction that the bytes at `pc` decode to, from the state in which `pc` is past its opcode word
(R101, R57), and then the delay slot where that instruction is a taken branch. -/
def Obligations.StepRunsTheDecodedInstruction : Prop :=
  ∀ (s : State) (i : Instr) (rest : List Byte), AboutToRun s → s.pc.getLsbD 0 = false →
    decode s.cfg.variant ((List.range 6).map fun k => s.byteAt (busAddr s.pc k)) = .ok (i, rest) →
    (∀ k, k + rest.length < 6 → s.cfg.fetchCoherent = true ∨ busAddr s.pc k ∉ s.stored) →
    step s = andThen (exec i (Begun s)) (runSlot exec) ∧
    ((∀ a b : BitVec 5, i ≠ .jump a b ∧ i ≠ .jr a b) → step s = exec i (Begun s))

/-- The fetch port (R74, R79, R90): 16 bits, big-endian, from memory and never from a control register; refused at an odd
address, and with `FETCH_COHERENT` false where a byte was stored to. A step is refused where the fetch of its opcode word
is, and where the fetch of an extension word of `MOVEI` is (R272). -/
def Obligations.FetchPort : Prop :=
  ∀ (s : State) (a : Word),
    (a.toNat % 2 = 1 → s.fetchWord a = .error .oddPc) ∧
    (a.toNat % 2 = 0 →
      (s.cfg.fetchCoherent = true ∨ (a.toNat % 2 ^ 24 ∉ s.stored ∧ (a.toNat + 1) % 2 ^ 24 ∉ s.stored)) →
      s.fetchWord a = .ok (s.byteAt (a.toNat % 2 ^ 24) ++ s.byteAt ((a.toNat + 1) % 2 ^ 24))) ∧
    (a.toNat % 2 = 0 → s.cfg.fetchCoherent = false →
      (a.toNat % 2 ^ 24 ∈ s.stored ∨ (a.toNat + 1) % 2 ^ 24 ∈ s.stored) → s.fetchWord a = .error .fetchAfterStore) ∧
    (∀ r, AboutToRun s → s.fetchWord s.pc = .error r → step s = .refused r) ∧
    ∀ w r, AboutToRun s → s.fetchWord s.pc = .ok w → opcOf w = 38#6 →
      (s.fetchWord (s.pc + 2#32) = .error r ∨
        ((∃ lo, s.fetchWord (s.pc + 2#32) = .ok lo) ∧ s.fetchWord (s.pc + 4#32) = .error r)) → step s = .refused r

/-! Banks and conditions. -/

/-- `update_register_banks` (R23, R24, R25, R58): the required bank becomes active, no register moves, the lag is marked
where the bank changed, and a second call changes nothing. -/
def Obligations.BankSwitch : Prop :=
  ∀ (why : Cause) (s t : State), t = updateBanks why s →
    t.cur = (if s.flags.getLsbD 3 then .b0 else if s.flags.getLsbD 14 then .b1 else .b0) ∧
    KeepsRegs s t ∧ (t.cur ≠ s.cur → ∀ r, t.x r = s.alt r ∧ t.alt r = s.x r) ∧
    t.lagPending = (s.lagPending || (decide (t.cur ≠ s.cur) &&
      (decide (why = .inStep) || s.cfg.lagOnExternalSwap))) ∧
    t.flags = s.flags ∧ t.pc = s.pc ∧ KeepsMem s t ∧
    KeepsSpecial { s with cur := t.cur, lagPending := t.lagPending } t ∧
    updateBanks why t = t

/-- The 256 entries of the condition table (R50, R51): a row is a code, its digits the columns 000 to 111 of `NCZ`. -/
def Obligations.ConditionTable : Prop :=
  ∀ (s : State) (code : CondCode),
    s.cond code = ([0b11111111, 0b10101010, 0b01010101, 0, 0b11001100, 0b10001000, 0b01000100, 0,
      0b00110011, 0b00100010, 0b00010001, 0, 0, 0, 0, 0,
      0b11111111, 0b10101010, 0b01010101, 0, 0b11110000, 0b10100000, 0b01010000, 0,
      0b00001111, 0b00001010, 0b00000101, 0, 0, 0, 0, 0] : List Nat)[code.toNat]!.testBit
        (7 - (4 * s.n.toNat + 2 * s.c.toNat + s.z.toNat))

/-! Arithmetic, logic, compare. -/

/-- `ADD`, `ADDC`, `ADDQ` (R130, R132 to R134): the exact sum, wrapped, and its bit 32 in `C`. -/
def Obligations.AddForms : Prop :=
  ∀ (s : State) (rs rd : Reg) (n : Imm5),
    (Encoded 0#6 rs rd (.add rs rd) ∧ ∃ t, exec (.add rs rd) s = .next t ∧
      WritesZNC s t rd (BitVec.ofNat 32 ((s.x rd).toNat + (s.x rs).toNat))
        (decide (2 ^ 32 ≤ (s.x rd).toNat + (s.x rs).toNat))) ∧
    (Encoded 1#6 rs rd (.addc rs rd) ∧ ∃ t, exec (.addc rs rd) s = .next t ∧
      WritesZNC s t rd (BitVec.ofNat 32 ((s.x rd).toNat + (s.x rs).toNat + s.c.toNat))
        (decide (2 ^ 32 ≤ (s.x rd).toNat + (s.x rs).toNat + s.c.toNat))) ∧
    (Encoded 2#6 n rd (.addq n rd) ∧ ∃ t, exec (.addq n rd) s = .next t ∧
      WritesZNC s t rd (BitVec.ofNat 32 ((s.x rd).toNat + quickValue n))
        (decide (2 ^ 32 ≤ (s.x rd).toNat + quickValue n)))

/-- `SUB`, `SUBC`, `SUBQ`, `NEG` (R130, R136 to R138, R140): destination less source, `C` the borrow. -/
def Obligations.SubForms : Prop :=
  ∀ (s : State) (rs rd : Reg) (n : Imm5),
    (Encoded 4#6 rs rd (.sub rs rd) ∧ ∃ t, exec (.sub rs rd) s = .next t ∧
      WritesZNC s t rd (BitVec.ofInt 32 ((s.x rd).toNat - (s.x rs).toNat)) (decide ((s.x rd).toNat < (s.x rs).toNat))) ∧
    (Encoded 5#6 rs rd (.subc rs rd) ∧ ∃ t, exec (.subc rs rd) s = .next t ∧
      WritesZNC s t rd (BitVec.ofInt 32 ((s.x rd).toNat - (s.x rs).toNat - s.c.toNat))
        (decide ((s.x rd).toNat < (s.x rs).toNat + s.c.toNat))) ∧
    (Encoded 6#6 n rd (.subq n rd) ∧ ∃ t, exec (.subq n rd) s = .next t ∧
      WritesZNC s t rd (BitVec.ofInt 32 ((s.x rd).toNat - quickValue n)) (decide ((s.x rd).toNat < quickValue n))) ∧
    (Encoded 8#6 rs rd (.neg rd) ∧ ∃ t, exec (.neg rd) s = .next t ∧
      WritesZNC s t rd (BitVec.ofInt 32 (-((s.x rd).toNat : Int))) (decide (s.x rd ≠ 0#32)))

/-- `ADDQT`, `SUBQT` (R135, R139): no flag changes. -/
def Obligations.TransparentForms : Prop :=
  ∀ (s : State) (rd : Reg) (n : Imm5),
    (Encoded 3#6 n rd (.addqt n rd) ∧ ∃ t, exec (.addqt n rd) s = .next t ∧
      WritesQuietly s t rd (BitVec.ofNat 32 ((s.x rd).toNat + quickValue n))) ∧
    (Encoded 7#6 n rd (.subqt n rd) ∧ ∃ t, exec (.subqt n rd) s = .next t ∧
      WritesQuietly s t rd (BitVec.ofInt 32 ((s.x rd).toNat - quickValue n)))

/-- `CMP`, `CMPQ` (R148, R149): flags of the difference, no register. -/
def Obligations.CompareForms : Prop :=
  ∀ (s : State) (rs rd : Reg) (n : Imm5),
    (Encoded 30#6 rs rd (.cmp rs rd) ∧ ∃ t, exec (.cmp rs rd) s = .next t ∧
      OnlyFlags s t (decide (s.x rd = s.x rs)) (decide ((s.x rd).toNat < (s.x rs).toNat))
        (decide (2 ^ 31 ≤ ((s.x rd).toNat - (s.x rs).toNat : Int) % 2 ^ 32))) ∧
    (Encoded 31#6 n rd (.cmpq n rd) ∧ ∃ t, exec (.cmpq n rd) s = .next t ∧
      OnlyFlags s t (decide (s.x rd = n.signExtend 32)) (decide ((s.x rd).toNat < (n.signExtend 32).toNat))
        (decide (2 ^ 31 ≤ ((s.x rd).toNat - (n.signExtend 32).toNat : Int) % 2 ^ 32)))

/-- `AND`, `OR`, `XOR`, `NOT` (R141 to R144): bit by bit; `C` is kept. -/
def Obligations.LogicForms : Prop :=
  ∀ (s : State) (rs rd : Reg),
    (Encoded 9#6 rs rd (.and rs rd) ∧ ∃ t v, exec (.and rs rd) s = .next t ∧ WritesZN s t rd v ∧
      ∀ i, i < 32 → v.getLsbD i = ((s.x rd).getLsbD i && (s.x rs).getLsbD i)) ∧
    (Encoded 10#6 rs rd (.or rs rd) ∧ ∃ t v, exec (.or rs rd) s = .next t ∧ WritesZN s t rd v ∧
      ∀ i, i < 32 → v.getLsbD i = ((s.x rd).getLsbD i || (s.x rs).getLsbD i)) ∧
    (Encoded 11#6 rs rd (.xor rs rd) ∧ ∃ t v, exec (.xor rs rd) s = .next t ∧ WritesZN s t rd v ∧
      ∀ i, i < 32 → v.getLsbD i = ((s.x rd).getLsbD i != (s.x rs).getLsbD i)) ∧
    (Encoded 12#6 rs rd (.not rd) ∧ ∃ t v, exec (.not rd) s = .next t ∧ WritesZN s t rd v ∧
      ∀ i, i < 32 → v.getLsbD i = !(s.x rd).getLsbD i)

/-- `BTST`, `BSET`, `BCLR` (R145 to R147), the immediate raw; `BTST` writes `Z` alone. -/
def Obligations.BitForms : Prop :=
  ∀ (s : State) (n : Imm5) (rd : Reg),
    (Encoded 13#6 n rd (.btst n rd) ∧ ∃ t, exec (.btst n rd) s = .next t ∧
      OnlyFlags s t (!(s.x rd).getLsbD n.toNat) s.c s.n) ∧
    (Encoded 14#6 n rd (.bset n rd) ∧ ∃ t v, exec (.bset n rd) s = .next t ∧ WritesZN s t rd v ∧
      ∀ i, i < 32 → v.getLsbD i = (decide (i = n.toNat) || (s.x rd).getLsbD i)) ∧
    (Encoded 15#6 n rd (.bclr n rd) ∧ ∃ t v, exec (.bclr n rd) s = .next t ∧ WritesZN s t rd v ∧
      ∀ i, i < 32 → v.getLsbD i = (!decide (i = n.toNat) && (s.x rd).getLsbD i))

/-- `ABS` (R150): the magnitude, `C` the old sign, `N` cleared. -/
def Obligations.AbsoluteValue : Prop :=
  ∀ (s : State) (f1 : BitVec 5) (rd : Reg),
    Encoded 22#6 f1 rd (.abs rd) ∧ ∃ t, exec (.abs rd) s = .next t ∧
      OnlyWrites s t rd (BitVec.ofNat 32 (s.x rd).toInt.natAbs) ∧
      FlagsBecome s t (decide (s.x rd = 0#32)) (decide ((s.x rd).toInt < 0)) false

/-- `ADDQMOD`, `SUBQMOD` of the `DSP` (R262, R263): bits under a 1 of `MOD` keep the old value; `C` is that of the whole
operation. -/
def Obligations.ModuloForms : Prop :=
  ∀ (s : State) (n : Imm5) (rd : Reg),
    (EncodedOn .dsp 63#6 n rd (.addqmod n rd) ∧ ∃ t v, exec (.addqmod n rd) s = .next t ∧
      WritesZNC s t rd v (decide (2 ^ 32 ≤ (s.x rd).toNat + quickValue n)) ∧
      ∀ i, i < 32 → v.getLsbD i = if s.hiMod.getLsbD i then (s.x rd).getLsbD i
        else ((s.x rd).toNat + quickValue n).testBit i) ∧
    (EncodedOn .dsp 32#6 n rd (.subqmod n rd) ∧ ∃ t v, exec (.subqmod n rd) s = .next t ∧
      WritesZNC s t rd v (decide ((s.x rd).toNat < quickValue n)) ∧
      ∀ i, i < 32 → v.getLsbD i = if s.hiMod.getLsbD i then (s.x rd).getLsbD i
        else ((s.x rd).toNat + 2 ^ 32 - quickValue n).testBit i)

/-! Multiply and divide. -/

/-- `MULT`, `IMULT` (R170, R171): the exact product of the low halves. -/
def Obligations.Multiplies : Prop :=
  ∀ (s : State) (rs rd : Reg),
    (Encoded 16#6 rs rd (.mult rs rd) ∧ ∃ t v, exec (.mult rs rd) s = .next t ∧ WritesZN s t rd v ∧
      v.toNat = ((s.x rs).toNat % 2 ^ 16) * ((s.x rd).toNat % 2 ^ 16)) ∧
    (Encoded 17#6 rs rd (.imult rs rd) ∧ ∃ t v, exec (.imult rs rd) s = .next t ∧ WritesZN s t rd v ∧
      v.toInt = lowSigned (s.x rs) * lowSigned (s.x rd))

/-- `IMACN` and `RESMAC` on their own (R174, R175). -/
def Obligations.AccumulatorForms : Prop :=
  ∀ (s : State) (rs rd : Reg),
    (Encoded 20#6 rs rd (.imacn rs rd) ∧ ∃ t, exec (.imacn rs rd) s = .next t ∧
      KeepsRegs s t ∧ t.flags = s.flags ∧ t.pc = s.pc ∧ KeepsMem s t ∧
      KeepsSpecial { s with acc := BitVec.ofInt 64 (s.acc.toInt + lowSigned (s.x rs) * lowSigned (s.x rd)) } t) ∧
    (Encoded 19#6 rs rd (.resmac rd) ∧ ∃ t, exec (.resmac rd) s = .next t ∧
      WritesQuietly s t rd (BitVec.ofNat 32 (s.acc.toNat % 2 ^ 32)))

/-- `IMULTN` and its chain (R172, R173): the `IMACN` words that follow are accumulated, one `RESMAC` after them is
executed, any other word is left; flags are the first product's; all of it is one dispatch. Where the look-ahead's fetch
of the word after them is refused (R79, R90), so is the whole. -/
def Obligations.MultiplyAccumulateChain : Prop :=
  ∀ (s : State) (rs rd : Reg) (ops : List (Reg × Reg)), s.delay ≠ .executing →
    (∀ k (h : k < ops.length), s.fetchWord (s.pc + BitVec.ofNat 32 (2 * k)) = .ok (opWord 20#6 ops[k].1 ops[k].2)) →
    Encoded 18#6 rs rd (.imultn rs rd) ∧
    (∀ r, s.fetchWord (s.pc + BitVec.ofNat 32 (2 * ops.length)) = .error r → exec (.imultn rs rd) s = .refused r) ∧
    ∀ w, s.fetchWord (s.pc + BitVec.ofNat 32 (2 * ops.length)) = .ok w → opcOf w ≠ 20#6 →
    ∀ p total : Int, p = lowSigned (s.x rs) * lowSigned (s.x rd) →
    total = p + (ops.map fun q => lowSigned (s.x q.1) * lowSigned (s.x q.2)).sum →
    ∃ t, exec (.imultn rs rd) s = .next t ∧
      FlagsBecome s t (decide (p = 0)) s.c (decide (p < 0)) ∧
      (if opcOf w = 19#6
        then WritesReg s t (f2Of w) (BitVec.ofInt 32 total) ∧ t.pc = s.pc + BitVec.ofNat 32 (2 * ops.length + 2)
        else KeepsRegs s t ∧ t.pc = s.pc + BitVec.ofNat 32 (2 * ops.length)) ∧
      KeepsMem s t ∧ KeepsSpecial { s with acc := BitVec.ofInt 64 total } t

/-- `MMULT` (R177): the packed vector in physical bank 1 times the words in memory, summed exactly, reduced to 32 bits.
No memory is read for a count of 0. -/
def Obligations.MatrixMultiply : Prop :=
  ∀ (s : State) (rs rd : Reg) (count stride : Nat) (addr : Nat → Word),
    count = s.mtxc.toNat % 16 → stride = (if s.mtxc.getLsbD 4 then 2 * count else 2) →
    (∀ i, addr i = s.mtxa + BitVec.ofNat 32 (stride * i)) →
    (∀ i, i < count → rs.toNat + i / 2 ≤ 31 ∧ (addr i).toNat % 2 = 0 ∧ MissesCtrl s (addr i) 2) →
    Encoded 54#6 rs rd (.mmult rs rd) ∧ ∃ t, exec (.mmult rs rd) s = .next t ∧
      WritesZN s t rd (BitVec.ofInt 32 (∑ i ∈ Finset.range count,
        ((s.reg .b1 (BitVec.ofNat 5 (rs.toNat + i / 2))).extractLsb' (if i % 2 = 0 then 16 else 0) 16).toInt *
          (s.byteAt (busAddr (addr i) 0) ++ s.byteAt (busAddr (addr i) 1)).toInt))

/-- Where `MMULT` stops (R177, R79, R82): at the first element `i` whose register number passes 31, whose address is odd,
or which touches the control block. That every byte of the block counts as a control register's, where R82 names the
addresses `CTRL_BASE + 4k`, is the model's inference (DEDUCED, log entry 6). -/
def Obligations.MatrixMultiplyStops : Prop :=
  ∀ (s : State) (rs rd : Reg) (count stride i : Nat) (addr : Nat → Word),
    count = s.mtxc.toNat % 16 → stride = (if s.mtxc.getLsbD 4 then 2 * count else 2) →
    (∀ j, addr j = s.mtxa + BitVec.ofNat 32 (stride * j)) → i < count →
    (∀ j, j < i → rs.toNat + j / 2 ≤ 31 ∧ (addr j).toNat % 2 = 0 ∧ MissesCtrl s (addr j) 2) →
    (31 < rs.toNat + i / 2 → exec (.mmult rs rd) s = .refused .mmultRegisterOverrun) ∧
    (rs.toNat + i / 2 ≤ 31 → (addr i).toNat % 2 = 1 → exec (.mmult rs rd) s = .refused .misaligned) ∧
    (rs.toNat + i / 2 ≤ 31 → (addr i).toNat % 2 = 0 → ¬ MissesCtrl s (addr i) 2 →
      exec (.mmult rs rd) s = .refused .narrowCtrlAccess)

/-- `DIV` (R186, R187): unsigned and truncating in both modes; a zero divisor gives 0xFFFFFFFF and leaves `REMAINDER`. -/
def Obligations.Divide : Prop :=
  ∀ (s : State) (rs rd : Reg) (n : Nat),
    n = (if s.divctrl.getLsbD 0 then (s.x rd).toNat * 65536 else (s.x rd).toNat) →
    Encoded 21#6 rs rd (.div rs rd) ∧
    (s.x rs = 0#32 → ∃ t, exec (.div rs rd) s = .next t ∧ WritesQuietly s t rd 0xFFFFFFFF#32) ∧
    (s.x rs ≠ 0#32 → ∃ t, exec (.div rs rd) s = .next t ∧
      WritesQuietly { s with remainder := BitVec.ofNat 32 (n % (s.x rs).toNat) } t rd
        (BitVec.ofNat 32 (n / (s.x rs).toNat)))

/-- The laws of the divider (R188): quotient times divisor plus remainder is the dividend, the remainder below the
divisor; in fixed-point mode where the quotient fits. -/
def Obligations.DivideLaws : Prop :=
  ∀ (s : State) (rs rd : Reg) (d n : Nat), d = (s.x rs).toNat → n = (s.x rd).toNat → d ≠ 0 →
    ∃ t, exec (.div rs rd) s = .next t ∧ t.remainder.toNat < d ∧
      (s.divctrl.getLsbD 0 = false → (t.reg s.cur rd).toNat * d + t.remainder.toNat = n) ∧
      (s.divctrl.getLsbD 0 = true → n * 65536 / d < 2 ^ 32 →
        (t.reg s.cur rd).toNat * d + t.remainder.toNat = n * 65536)

/-! Shifts. -/

/-- `SH`, `SHA` (R190 to R192): a signed amount, right where it is not negative; `C` the first bit out. -/
def Obligations.RegisterShifts : Prop :=
  ∀ (s : State) (rs rd : Reg) (k : Int), k = (s.x rs).toInt →
    Encoded 23#6 rs rd (.sh rs rd) ∧ Encoded 26#6 rs rd (.sha rs rd) ∧
    (k < 0 → ∃ t, exec (.sh rs rd) s = .next t ∧
      WritesZNC s t rd (BitVec.ofNat 32 ((s.x rd).toNat * 2 ^ (-k).toNat)) ((s.x rd).getLsbD 31)) ∧
    (0 ≤ k → ∃ t, exec (.sh rs rd) s = .next t ∧
      WritesZNC s t rd (BitVec.ofNat 32 ((s.x rd).toNat / 2 ^ k.toNat)) ((s.x rd).getLsbD 0)) ∧
    (k < 0 → ∃ t, exec (.sha rs rd) s = .next t ∧
      WritesZNC s t rd (BitVec.ofNat 32 ((s.x rd).toNat * 2 ^ (-k).toNat)) ((s.x rd).getLsbD 31)) ∧
    (0 ≤ k → ∃ t, exec (.sha rs rd) s = .next t ∧
      WritesZNC s t rd (BitVec.ofInt 32 ((s.x rd).toInt / 2 ^ k.toNat)) ((s.x rd).getLsbD 0))

/-- `SHLQ`, `SHRQ`, `SHARQ` (R193 to R195, R105). -/
def Obligations.QuickShifts : Prop :=
  ∀ (s : State) (n : Imm5) (rd : Reg),
    (Encoded 24#6 n rd (.shlq n rd) ∧ ∃ t, exec (.shlq n rd) s = .next t ∧
      WritesZNC s t rd (BitVec.ofNat 32 ((s.x rd).toNat * 2 ^ (32 - quickValue n))) ((s.x rd).getLsbD 31)) ∧
    (Encoded 25#6 n rd (.shrq n rd) ∧ ∃ t, exec (.shrq n rd) s = .next t ∧
      WritesZNC s t rd (BitVec.ofNat 32 ((s.x rd).toNat / 2 ^ quickValue n)) ((s.x rd).getLsbD 0)) ∧
    (Encoded 27#6 n rd (.sharq n rd) ∧ ∃ t, exec (.sharq n rd) s = .next t ∧
      WritesZNC s t rd (BitVec.ofInt 32 ((s.x rd).toInt / 2 ^ quickValue n)) ((s.x rd).getLsbD 0))

/-- `ROR`, `RORQ` (R196, R197): bit `i` of the result is bit `i + k` of the value, `k` modulo 32; `C` is the old bit 31. -/
def Obligations.Rotates : Prop :=
  ∀ (s : State) (rs rd : Reg) (n : Imm5),
    (Encoded 28#6 rs rd (.ror rs rd) ∧ ∃ t v, exec (.ror rs rd) s = .next t ∧
      WritesZNC s t rd v ((s.x rd).getLsbD 31) ∧
      ∀ i, i < 32 → v.getLsbD i = (s.x rd).getLsbD ((i + (s.x rs).toNat) % 32)) ∧
    (Encoded 29#6 n rd (.rorq n rd) ∧ ∃ t v, exec (.rorq n rd) s = .next t ∧
      WritesZNC s t rd v ((s.x rd).getLsbD 31) ∧
      ∀ i, i < 32 → v.getLsbD i = (s.x rd).getLsbD ((i + quickValue n) % 32))

/-! Memory. -/

/-- What a long read answers (R71, R72, R82, R286, R287): four bytes of memory, big-endian, or a mapped control register:
its stored value, `CTRL` with the version ORed into bits 15:12, 0 where there is none. -/
def Obligations.LongReadValue : Prop :=
  ∀ (s : State) (a : Word),
    (PlainLong s a → s.readLong a = .ok (s.longAt a) ∧
      s.longAt a = s.byteAt (a.toNat % 2 ^ 24) ++ s.byteAt ((a.toNat + 1) % 2 ^ 24) ++
        s.byteAt ((a.toNat + 2) % 2 ^ 24) ++ s.byteAt ((a.toNat + 3) % 2 ^ 24)) ∧
    (a.toNat % 4 ≠ 0 → s.readLong a = .error .misaligned) ∧
    (∀ k, ReachesCtrl s a k → s.readLong a = .ok (s.longAt a) ∧ s.longAt a = s.ctrlRead k ∧
      (k = 0 → s.longAt a = s.flags) ∧ (k = 1 → s.longAt a = s.mtxc) ∧ (k = 2 → s.longAt a = s.mtxa) ∧
      (k = 3 → s.longAt a = s.endian) ∧ (k = 4 → s.longAt a = s.pc) ∧
      (k = 5 → ∀ b, (s.longAt a).getLsbD b =
        (s.ctrl.getLsbD b || (decide (12 ≤ b) && s.cfg.coreVersion.getLsbD (b - 12)))) ∧
      (k = 6 → s.longAt a = s.hiMod) ∧ (k = 7 → s.longAt a = s.divctrl) ∧ (k = 9 → s.longAt a = s.remainder) ∧
      (k = 8 ∨ 10 ≤ k → s.longAt a = 0#32)) ∧
    ∀ off, s.cfg.nctrl ≤ off → s.ctrlRead off = 0#32

/-- `LOAD` in its five forms (R205, R206, R211, R213 to R216): the register receives the long at the effective address, and
nothing else changes; a misaligned address is refused (R79). -/
def Obligations.LongLoads : Prop :=
  ∀ (s : State) (rs rd : Reg) (n : Imm5) (i : Instr) (a : Word),
    ((i = .load rs rd ∧ a = s.x rs) ∨
     (i = .loadR14n n rd ∧ a = s.x 14#5 + BitVec.ofNat 32 (4 * quickValue n)) ∨
     (i = .loadR15n n rd ∧ a = s.x 15#5 + BitVec.ofNat 32 (4 * quickValue n)) ∨
     (i = .loadR14r rs rd ∧ a = s.x 14#5 + s.x rs) ∨ (i = .loadR15r rs rd ∧ a = s.x 15#5 + s.x rs)) →
    (Encoded 41#6 rs rd (.load rs rd) ∧ Encoded 43#6 n rd (.loadR14n n rd) ∧ Encoded 44#6 n rd (.loadR15n n rd) ∧
      Encoded 58#6 rs rd (.loadR14r rs rd) ∧ Encoded 59#6 rs rd (.loadR15r rs rd)) ∧
    (a.toNat % 4 = 0 → ∃ t, exec i s = .next t ∧ WritesQuietly s t rd (s.longAt a)) ∧
    (a.toNat % 4 ≠ 0 → exec i s = .refused .misaligned)

/-- `LOADB`, `LOADW` (R209, R210, R77): inside the window the whole long at `a & ~3`, outside it the byte or word,
zero-extended. Outside it a word at an odd address is refused (R79), and so is an access to the control block (R82). That
every byte of the block counts, where R82 and R304 name the addresses `CTRL_BASE + 4k`, is the model's inference
(DEDUCED, log entry 6). -/
def Obligations.NarrowLoads : Prop :=
  ∀ (s : State) (rs rd : Reg) (a : Word), a = s.x rs →
    Encoded 39#6 rs rd (.loadb rs rd) ∧ Encoded 40#6 rs rd (.loadw rs rd) ∧
    (InWindow s a → ∀ i, i = .loadb rs rd ∨ i = .loadw rs rd →
      ∃ t, exec i s = .next t ∧ WritesQuietly s t rd (s.longAt (a &&& 0xFFFFFFFC#32))) ∧
    (¬ InWindow s a → MissesCtrl s a 1 →
      ∃ t, exec (.loadb rs rd) s = .next t ∧ WritesQuietly s t rd ((s.byteAt (busAddr a 0)).setWidth 32)) ∧
    (¬ InWindow s a → a.toNat % 2 = 0 → MissesCtrl s a 2 →
      ∃ t, exec (.loadw rs rd) s = .next t ∧
        WritesQuietly s t rd ((s.byteAt (busAddr a 0) ++ s.byteAt (busAddr a 1)).setWidth 32)) ∧
    (¬ InWindow s a → ¬ MissesCtrl s a 1 → exec (.loadb rs rd) s = .refused .narrowCtrlAccess) ∧
    (¬ InWindow s a → a.toNat % 2 = 0 → ¬ MissesCtrl s a 2 → exec (.loadw rs rd) s = .refused .narrowCtrlAccess) ∧
    (¬ InWindow s a → a.toNat % 2 = 1 → exec (.loadw rs rd) s = .refused .misaligned)

/-- `LOADP` of the `GPU` (R212): inside the window one long; outside it the lower long to `HIDATA`, the next to the
register. That a second long which is mapped control register 6 reads the new `HIDATA` is the model's inference (DEDUCED,
log entry 11). -/
def Obligations.PhraseLoad : Prop :=
  ∀ (s : State) (rs rd : Reg) (a hi : Word), a = s.x rs → hi = s.longAt a →
    EncodedOn .gpu 42#6 rs rd (.loadp rs rd) ∧
    (InWindow s a → ∃ t, exec (.loadp rs rd) s = .next t ∧ WritesQuietly s t rd (s.longAt (a &&& 0xFFFFFFFC#32))) ∧
    (¬ InWindow s a → a.toNat % 4 = 0 → ∃ t, exec (.loadp rs rd) s = .next t ∧
      WritesQuietly { s with hiMod := hi } t rd ({ s with hiMod := hi }.longAt (a + 4#32))) ∧
    (¬ InWindow s a → a.toNat % 4 ≠ 0 → exec (.loadp rs rd) s = .refused .misaligned)

/-- `STORE` in its five forms, to memory (R205, R206, R223, R225 to R228): the long at the effective address becomes the
register, no other byte changes; a misaligned address is refused (R79). -/
def Obligations.LongStores : Prop :=
  ∀ (s : State) (rs rd : Reg) (n : Imm5) (i : Instr) (a : Word),
    ((i = .store rs rd ∧ a = s.x rs) ∨
     (i = .storeR14n n rd ∧ a = s.x 14#5 + BitVec.ofNat 32 (4 * quickValue n)) ∨
     (i = .storeR15n n rd ∧ a = s.x 15#5 + BitVec.ofNat 32 (4 * quickValue n)) ∨
     (i = .storeR14r rs rd ∧ a = s.x 14#5 + s.x rs) ∨ (i = .storeR15r rs rd ∧ a = s.x 15#5 + s.x rs)) →
    (Encoded 47#6 rs rd (.store rs rd) ∧ Encoded 49#6 n rd (.storeR14n n rd) ∧ Encoded 50#6 n rd (.storeR15n n rd) ∧
      Encoded 60#6 rs rd (.storeR14r rs rd) ∧ Encoded 61#6 rs rd (.storeR15r rs rd)) ∧
    (PlainLong s a → ∃ t, exec i s = .next t ∧ StoresLong s t a (s.x rd)) ∧
    (∀ k, ReachesCtrl s a k → exec i s = ctrlWrite .inStep k (s.x rd) 0xFFFFFFFF#32 s) ∧
    (a.toNat % 4 ≠ 0 → exec i s = .refused .misaligned)

/-- `STOREB`, `STOREW` (R221, R222, R77): inside the window the whole register at `a & ~3`, outside it the low byte or
word. Outside it a word at an odd address is refused (R79), and so is an access to the control block (R82). That every
byte of the block counts, where R82 and R304 name the addresses `CTRL_BASE + 4k`, is the model's inference (DEDUCED, log
entry 6). -/
def Obligations.NarrowStores : Prop :=
  ∀ (s : State) (rs rd : Reg) (a : Word), a = s.x rs →
    Encoded 45#6 rs rd (.storeb rs rd) ∧ Encoded 46#6 rs rd (.storew rs rd) ∧
    (InWindow s a → ∀ i, i = .storeb rs rd ∨ i = .storew rs rd →
      (PlainLong s (a &&& 0xFFFFFFFC#32) →
        ∃ t, exec i s = .next t ∧ StoresLong s t (a &&& 0xFFFFFFFC#32) (s.x rd)) ∧
      ∀ k, ReachesCtrl s (a &&& 0xFFFFFFFC#32) k → exec i s = ctrlWrite .inStep k (s.x rd) 0xFFFFFFFF#32 s) ∧
    (¬ InWindow s a → MissesCtrl s a 1 → ∃ t, exec (.storeb rs rd) s = .next t ∧ StoresOnly s t a 1 ∧
      t.byteAt (busAddr a 0) = (s.x rd).setWidth 8) ∧
    (¬ InWindow s a → a.toNat % 2 = 0 → MissesCtrl s a 2 → ∃ t, exec (.storew rs rd) s = .next t ∧
      StoresOnly s t a 2 ∧ t.byteAt (busAddr a 0) ++ t.byteAt (busAddr a 1) = (s.x rd).setWidth 16) ∧
    (¬ InWindow s a → ¬ MissesCtrl s a 1 → exec (.storeb rs rd) s = .refused .narrowCtrlAccess) ∧
    (¬ InWindow s a → a.toNat % 2 = 0 → ¬ MissesCtrl s a 2 → exec (.storew rs rd) s = .refused .narrowCtrlAccess) ∧
    (¬ InWindow s a → a.toNat % 2 = 1 → exec (.storew rs rd) s = .refused .misaligned)

/-- `STOREP` of the `GPU` (R224): inside the window one long; outside it `HIDATA` at the lower address, then the register,
as it was before the first request, at the next; each of the two goes to the control port where its address is mapped
(R304). That the register is read before a first request which switches the bank is the model's inference from R366
(DEDUCED, log entry 11). -/
def Obligations.PhraseStore : Prop :=
  ∀ (s : State) (rs rd : Reg) (a : Word), a = s.x rs →
    EncodedOn .gpu 48#6 rs rd (.storep rs rd) ∧
    (InWindow s a → PlainLong s (a &&& 0xFFFFFFFC#32) →
      ∃ t, exec (.storep rs rd) s = .next t ∧ StoresLong s t (a &&& 0xFFFFFFFC#32) (s.x rd)) ∧
    (InWindow s a → ∀ k, ReachesCtrl s (a &&& 0xFFFFFFFC#32) k →
      exec (.storep rs rd) s = ctrlWrite .inStep k (s.x rd) 0xFFFFFFFF#32 s) ∧
    (¬ InWindow s a → PlainLong s a → PlainLong s (a + 4#32) →
      ∃ t, exec (.storep rs rd) s = .next t ∧ StoresOnly s t a 8 ∧ t.memLong a = s.hiMod ∧
        t.memLong (a + 4#32) = s.x rd) ∧
    (¬ InWindow s a → ∀ k, PlainLong s a → ReachesCtrl s (a + 4#32) k → ∃ u, StoresLong s u a s.hiMod ∧
      exec (.storep rs rd) s = ctrlWrite .inStep k (s.x rd) 0xFFFFFFFF#32 u) ∧
    (¬ InWindow s a → ∀ k u, ReachesCtrl s a k → ctrlWrite .inStep k s.hiMod 0xFFFFFFFF#32 s = .next u →
      exec (.storep rs rd) s = writeLong (a + 4#32) (s.x rd) u) ∧
    (¬ InWindow s a → a.toNat % 4 ≠ 0 → exec (.storep rs rd) s = .refused .misaligned)

/-- Byte order (R72, R73, R75): after a long write, the bytes and words at its addresses. -/
def Obligations.BigEndian : Prop :=
  ∀ (s t : State) (a v : Word), PlainLong s a → MissesCtrl s a 4 → writeLong a v s = .next t →
    t.readLong a = .ok v ∧
    t.readHalf a = .ok (v.extractLsb' 16 16) ∧ t.readHalf (a + 2#32) = .ok (v.extractLsb' 0 16) ∧
    ∀ k, k < 4 → t.readByte (a + BitVec.ofNat 32 k) = .ok (v.extractLsb' (8 * (3 - k)) 8)

/-! The control port. -/

/-- Writes of the plain control registers (R288, R291 to R295, R302): the merged word is stored, and nothing else
changes. -/
def Obligations.PlainControlWrites : Prop :=
  ∀ (s : State) (why : Cause) (off : Nat) (v mask old new : Word),
    (off = 1 → old = s.mtxc) → (off = 2 → old = s.mtxa) → (off = 3 → old = s.endian) → (off = 4 → old = s.pc) →
    (off = 6 → old = s.hiMod) → (off = 7 → old = s.divctrl) →
    (∀ b, b < 32 → new.getLsbD b = if mask.getLsbD b then v.getLsbD b else old.getLsbD b) →
    (off < s.cfg.nctrl →
      (off = 1 → ctrlWrite why off v mask s = .next { s with mtxc := new }) ∧
      (off = 2 → ctrlWrite why off v mask s = .next { s with mtxa := new }) ∧
      (off = 3 → ctrlWrite why off v mask s = .next { s with endian := new }) ∧
      (off = 4 → ctrlWrite why off v mask s = .next { s with pc := BitVec.ofNat 32 (new.toNat % 2 ^ 24) }) ∧
      (off = 6 → ctrlWrite why off v mask s = .next { s with hiMod := new }) ∧
      (off = 7 → ctrlWrite why off v mask s = .next { s with divctrl := new })) ∧
    (off = 8 ∨ off = 9 ∨ s.cfg.nctrl ≤ off → ctrlWrite why off v mask s = .next s)

/-- Write of `FLAGS` (R289, R290): the stored bits, `I` kept only where it was set and is written as 1, the acknowledge
strobes, the bank, then the interrupt check. -/
def Obligations.FlagsWrite : Prop :=
  ∀ (s : State) (why : Cause) (v mask new : Word), 0 < s.cfg.nctrl →
    (∀ b, b < 32 → new.getLsbD b = if mask.getLsbD b then v.getLsbD b else s.flags.getLsbD b) →
    ∃ u, ctrlWrite why 0 v mask s = checkIrqs why u ∧
      (∀ b, b < 32 → u.flags.getLsbD b =
        if b = 3 then new.getLsbD 3 && s.flags.getLsbD 3
        else if b < 9 ∨ b = 14 ∨ (b = 16 ∧ s.cfg.variant = .dsp) then new.getLsbD b else false) ∧
      (∀ b, b < 32 → u.ctrl.getLsbD b =
        if 6 ≤ b ∧ b ≤ 10 then s.ctrl.getLsbD b && !new.getLsbD (b + 3)
        else if b = 16 ∧ s.cfg.variant = .dsp then s.ctrl.getLsbD b && !new.getLsbD 17 else s.ctrl.getLsbD b) ∧
      u.cur = (if u.flags.getLsbD 3 then .b0 else if u.flags.getLsbD 14 then .b1 else .b0) ∧
      u.lagPending = (s.lagPending || (decide (u.cur ≠ s.cur) &&
        (decide (why = .inStep) || s.cfg.lagOnExternalSwap))) ∧
      KeepsRegs s u ∧ u.pc = s.pc ∧ KeepsMem s u ∧
      KeepsSpecial { s with cur := u.cur, ctrl := u.ctrl, lagPending := u.lagPending } u

/-- Write of `CTRL` (R296 to R301): stored but for the two strobes, `CPUINT` asserts the output once, `FORCEINT0` latches
level 0 and checks. Whether a start forgets the bytes stored to, as U8 says, is a parameter of the model (DESIGN CHOICE,
log entry 14). -/
def Obligations.ControlWordWrite : Prop :=
  ∀ (s : State) (why : Cause) (v mask new : Word), 5 < s.cfg.nctrl →
    (∀ b, b < 32 → new.getLsbD b = if mask.getLsbD b then v.getLsbD b else s.ctrl.getLsbD b) →
    ∃ u, ctrlWrite why 5 v mask s = (if new.getLsbD 2 then checkIrqs why u else .next u) ∧
      (∀ b, b < 32 → u.ctrl.getLsbD b =
        if b = 1 ∨ b = 2 then false else if b = 6 then new.getLsbD 2 || new.getLsbD 6 else new.getLsbD b) ∧
      u.cpuInts = s.cpuInts + (if new.getLsbD 1 then 1 else 0) ∧
      KeepsRegs s u ∧ u.flags = s.flags ∧ u.pc = s.pc ∧ (∀ a, u.byteAt a = s.byteAt a) ∧
      u.stored = (if new.getLsbD 0 = true ∧ s.run = false ∧ s.cfg.startForgetsStores = true then [] else s.stored) ∧
      KeepsSpecial { s with ctrl := u.ctrl, cpuInts := u.cpuInts } u

/-! Interrupts. -/

/-- No level is taken while `I` is set, nor where none is both latched and enabled (R327). -/
def Obligations.NoInterrupt : Prop :=
  ∀ (s : State) (why : Cause),
    (s.flags.getLsbD 3 = true ∨ (∀ k, k < s.cfg.nlevels → k < 6 → ¬ (s.latch k = true ∧ s.eint k = true))) →
    checkIrqs why s = .next s

/-- Taking an interrupt (R325, R327 to R331): the highest level that is latched and enabled; `I` set, bank 0 active,
`B0[31]` less 4, which is the state `u`; then `pc - 2` is stored there, `pc` is at the level's vector, the latches stay,
and nothing else changes. Where the stack is at a mapped control register, the push is a write of that register (R330).
Where it is misaligned, the entry is refused (R330, R79). -/
def Obligations.InterruptEntry : Prop :=
  ∀ (s : State) (why : Cause) (k : Nat) (sp : Word), s.flags.getLsbD 3 = false → k < s.cfg.nlevels → k < 6 →
    s.latch k = true → s.eint k = true →
    (∀ j, k < j → j < s.cfg.nlevels → j < 6 → ¬ (s.latch j = true ∧ s.eint j = true)) → sp = s.reg .b0 31#5 - 4#32 →
    ∃ u, (∀ b, u.flags.getLsbD b = if b = 3 then true else s.flags.getLsbD b) ∧ u.cur = .b0 ∧
      u.lagPending = (s.lagPending || (decide (s.cur ≠ .b0) && (decide (why = .inStep) || s.cfg.lagOnExternalSwap))) ∧
      u.reg .b0 31#5 = sp ∧ (∀ b r, ¬ (b = .b0 ∧ r = 31#5) → u.reg b r = s.reg b r) ∧ u.pc = s.pc ∧ KeepsMem s u ∧
      KeepsSpecial { s with cur := .b0, lagPending := u.lagPending } u ∧
      (PlainLong s sp → ∃ t, StoresLong u t sp (s.pc - 2#32) ∧
        checkIrqs why s = .next { t with pc := s.cfg.vectorBase + BitVec.ofNat 32 (16 * k) }) ∧
      (∀ j, ReachesCtrl s sp j → checkIrqs why s = andThen (ctrlWrite why j (s.pc - 2#32) 0xFFFFFFFF#32 u)
        fun t => .next { t with pc := s.cfg.vectorBase + BitVec.ofNat 32 (16 * k) }) ∧
      (sp.toNat % 4 ≠ 0 → checkIrqs why s = .refused .misaligned)

/-- `SetLine` (R323): the latch follows the line, an assertion is checked at once, whether or not the core runs (R338); a
line the variant does not have is no event, and that the model refuses it, by the name `noSuchLine`, is its own inference
(DEDUCED, log entry 17). -/
def Obligations.InterruptLine : Prop :=
  ∀ (s : State) (k : Nat),
    (k < s.cfg.nlevels → k < 6 → ∃ u v, applyEvent (.setLine k true) s = checkIrqs .between u ∧
      applyEvent (.setLine k false) s = .next v ∧
      (∀ b, b < 32 → u.ctrl.getLsbD b = (decide (b = if k < 5 then 6 + k else 16) || s.ctrl.getLsbD b)) ∧
      (∀ b, b < 32 → v.ctrl.getLsbD b = (!decide (b = if k < 5 then 6 + k else 16) && s.ctrl.getLsbD b)) ∧
      ∀ t, t = u ∨ t = v → KeepsRegs s t ∧ t.flags = s.flags ∧ t.pc = s.pc ∧ KeepsMem s t ∧
        KeepsSpecial { s with ctrl := t.ctrl } t) ∧
    (s.cfg.nlevels ≤ k → ∀ b, applyEvent (.setLine k b) s = .refused .noSuchLine)

/-- The boundary check (R326 d, R333): a running core with a level to take first enters it, wherever its push goes, and the
same step runs the instruction at the level's vector; no level is left to be taken, so the step is that of the entered
state, but where the push itself has halted the core, whose `Step` then still completes (R297). An entry that is refused
refuses the step. That the check counts as between steps for the lag is R58, which the model follows though R101 runs it
inside the `Step` (DEDUCED, log entry 22). -/
def Obligations.InterruptBeforeInstruction : Prop :=
  ∀ (s : State) (k : Nat), s.run = true → s.agenda = [] → s.winner = some k →
    (∀ r, checkIrqs .between s = .refused r → step s = .refused r) ∧
    ∀ t, checkIrqs .between s = .next t →
      t.pc = s.cfg.vectorBase + BitVec.ofNat 32 (16 * k) ∧ t.winner = none ∧ step s = fetchAndRun exec t.beginStep ∧
      (t.run = true → step s = step t) ∧
      (PlainLong s (s.reg .b0 31#5 - 4#32) → t.i = true ∧ t.run = true)

/-- Return from an interrupt (R335, R337, R239), of every level of the variant, to either bank, with any instruction in the
slot: the handler's store to `FLAGS` clears `I`, acknowledges its level, restores `Z`, `C`, `N` and selects the
interrupted program's bank, and the `JUMP` that follows at once reads its target from the handler's bank 0, in bank 1 as
the lag instruction. The slot's instruction `i` starts from `v`, in the interrupted program's bank. -/
def Obligations.ReturnFromInterrupt : Prop :=
  ∀ (s : State) (rs rd rt : Reg) (k : Nat) (d : Half) (i : Instr), AboutToRun s → Inv s → s.i = true →
    ReachesCtrl s (s.x rs) 0 → k < 6 → (k = 5 → s.cfg.variant = .dsp) →
    (s.x rd).getLsbD 3 = false → (s.x rd).getLsbD (if k < 5 then 9 + k else 17) = true →
    (∀ j, j < s.cfg.nlevels → j < 6 → j ≠ k →
      ¬ (s.latch j = true ∧ (s.x rd).getLsbD (if j < 5 then 4 + j else 16) = true)) →
    s.fetchWord s.pc = .ok (opWord 47#6 rs rd) → s.fetchWord (s.pc + 2#32) = .ok (opWord 52#6 rt 0#5) →
    s.fetchWord (s.pc + 4#32) = .ok d → decodeWord s.cfg.variant d 0#32 = .ok i →
    ∃ u v, step s = .next u ∧ step u = andThen (exec i v) (fun t => .next { t with delay := .idle }) ∧
      v.delay = .executing ∧ v.pc = s.reg .b0 rt ∧ v.cur = (if (s.x rd).getLsbD 14 then .b1 else .b0) ∧ v.i = false ∧
      v.latch k = false ∧ (∀ b, b < 3 → v.flags.getLsbD b = (s.x rd).getLsbD b) ∧ KeepsRegs s v ∧ KeepsMem s v ∧
      (i = .nop → step u = .next { v with delay := .idle })

/-! Branches. -/

/-- `JUMP` and `JR` (R236, R237, R239, R240): where the condition fails, nothing; where it holds, the word after the branch
is fetched, `pc` becomes the target, which for `JUMP` is the alternate bank's register in the lag instruction, and the
word waits to be dispatched in the same step. Where the fetch of that word is refused, so is the branch. That `exec` of a
branch ends with the word in `State.delay`, the rest of the step being `runSlot`, is the model's choice (DESIGN CHOICE,
log entry 8). -/
def Obligations.Branches : Prop :=
  ∀ (s : State) (f1 : BitVec 5) (cc : CondCode), s.delay ≠ .executing →
    Encoded 52#6 f1 cc (.jump f1 cc) ∧ Encoded 53#6 f1 cc (.jr f1 cc) ∧
    (s.cond cc = false → exec (.jump f1 cc) s = .next s ∧ exec (.jr f1 cc) s = .next s) ∧
    (∀ r, s.cond cc = true → s.fetchWord s.pc = .error r →
      exec (.jump f1 cc) s = .refused r ∧ exec (.jr f1 cc) s = .refused r) ∧
    (∀ w, s.cond cc = true → s.fetchWord s.pc = .ok w →
      exec (.jump f1 cc) s = .next { s with
        pc := if s.lagNow then s.alt f1 else s.x f1, delay := .pending w, cycles := s.cycles + 3 } ∧
      exec (.jr f1 cc) s = .next { s with
        pc := BitVec.ofInt 32 (s.pc.toNat + 2 * f1.toInt), delay := .pending w, cycles := s.cycles + 3 })

/-- The delay slot (R238, R241, R365): the step of a taken branch executes the word after it, with `pc` at the target
already, and only then ends. -/
def Obligations.DelaySlot : Prop :=
  ∀ (s : State) (f1 : BitVec 5) (cc : CondCode) (w d : Half) (j : Instr) (target : Word), AboutToRun s →
    s.fetchWord s.pc = .ok w → s.fetchWord (s.pc + 2#32) = .ok d → s.cond cc = true →
    decodeWord s.cfg.variant d 0#32 = .ok j →
    (w = opWord 52#6 f1 cc ∧ target = (if s.lagPending then s.alt f1 else s.x f1)) ∨
      (w = opWord 53#6 f1 cc ∧ target = s.pc + 2#32 + (f1.signExtend 32 <<< 1)) →
    step s = andThen (exec j { Begun s with pc := target, delay := .executing, cycles := s.cycles + 4 })
      fun t => .next { t with delay := .idle }

/-- What may not stand in the slot of a taken branch (R242). -/
def Obligations.SlotRefusals : Prop :=
  ∀ (s : State) (a b : BitVec 5) (imm : Word), s.delay = .executing →
    exec (.jump a b) s = .refused .branchInDelaySlot ∧ exec (.jr a b) s = .refused .branchInDelaySlot ∧
    exec (.movei imm b) s = .refused .pcDependentInDelaySlot ∧ exec (.movePc b) s = .refused .pcDependentInDelaySlot ∧
    exec (.imultn a b) s = .refused .pcDependentInDelaySlot

/-! Moves and the rest. -/

/-- `MOVE`, `MOVEQ`, `MOVETA`, `MOVEFA` (R270, R271, R273, R274): no flag changes. -/
def Obligations.Moves : Prop :=
  ∀ (s : State) (rs rd : Reg) (n : Imm5),
    (Encoded 34#6 rs rd (.move rs rd) ∧ ∃ t, exec (.move rs rd) s = .next t ∧ WritesQuietly s t rd (s.x rs)) ∧
    (Encoded 35#6 n rd (.moveq n rd) ∧ ∃ t, exec (.moveq n rd) s = .next t ∧
      WritesQuietly s t rd (BitVec.ofNat 32 n.toNat)) ∧
    (Encoded 37#6 rs rd (.movefa rs rd) ∧ ∃ t, exec (.movefa rs rd) s = .next t ∧
      WritesQuietly s t rd (s.reg (if s.cur = .b0 then .b1 else .b0) rs)) ∧
    (Encoded 36#6 rs rd (.moveta rs rd) ∧ ∃ t, exec (.moveta rs rd) s = .next t ∧
      (∀ b r, t.reg b r = if b ≠ s.cur ∧ r = rd then s.x rs else s.reg b r) ∧
      t.flags = s.flags ∧ t.pc = s.pc ∧ KeepsSpecial s t ∧ KeepsMem s t)

/-- `MOVEI` and `MOVE PC` (R272, R275, R106): the immediate's low half is the first extension word; `MOVE PC` gives the
address of the instruction itself. -/
def Obligations.PositionMoves : Prop :=
  ∀ (s : State) (f1 : BitVec 5) (rd : Reg) (lo hi : Half), s.delay ≠ .executing →
    (∀ v, decodeWord v (opWord 38#6 f1 rd) (extOf lo hi) = .ok (.movei (hi ++ lo) rd)) ∧
    (∃ t, exec (.movei (hi ++ lo) rd) s = .next t ∧ WritesQuietly { s with pc := s.pc + 4#32 } t rd (hi ++ lo)) ∧
    Encoded 51#6 f1 rd (.movePc rd) ∧ ∃ t, exec (.movePc rd) s = .next t ∧ WritesQuietly s t rd s.ppc

/-- `MTOI`, `NORMI` (R276, R277): the mantissa under nine copies of the sign; the index of the highest 1 bit less 22. -/
def Obligations.FloatHelpers : Prop :=
  ∀ (s : State) (rs rd : Reg),
    (Encoded 55#6 rs rd (.mtoi rs rd) ∧ ∃ t v, exec (.mtoi rs rd) s = .next t ∧ WritesZN s t rd v ∧
      ∀ i, i < 32 → v.getLsbD i = (s.x rs).getLsbD (if i < 23 then i else 31)) ∧
    (Encoded 56#6 rs rd (.normi rs rd) ∧ ∃ t v, exec (.normi rs rd) s = .next t ∧ WritesZN s t rd v ∧
      (s.x rs = 0#32 → v = 0#32) ∧
      ∀ h, (s.x rs).getLsbD h = true → (∀ j, h < j → (s.x rs).getLsbD j = false) → v.toInt = (h : Int) - 22)

/-- `SAT8`, `SAT16`, `SAT24` of the `GPU`, `SAT16S`, `SAT32S` of the `DSP` (R251 to R253, R257, R258): the nearest value of
the range; `SAT32S` by the accumulator's high half, read as signed. -/
def Obligations.Saturates : Prop :=
  ∀ (s : State) (f1 : BitVec 5) (rd : Reg) (high : Int), high = s.acc.toInt / 2 ^ 32 →
    (EncodedOn .gpu 32#6 f1 rd (.sat8 rd) ∧ ∃ t v, exec (.sat8 rd) s = .next t ∧ WritesZN s t rd v ∧
      v.toInt = max 0 (min 255 (s.x rd).toInt)) ∧
    (EncodedOn .gpu 33#6 f1 rd (.sat16 rd) ∧ ∃ t v, exec (.sat16 rd) s = .next t ∧ WritesZN s t rd v ∧
      v.toInt = max 0 (min 65535 (s.x rd).toInt)) ∧
    (EncodedOn .gpu 62#6 f1 rd (.sat24 rd) ∧ ∃ t v, exec (.sat24 rd) s = .next t ∧ WritesZN s t rd v ∧
      v.toInt = max 0 (min 0xFFFFFF (s.x rd).toInt)) ∧
    (EncodedOn .dsp 33#6 f1 rd (.sat16s rd) ∧ ∃ t v, exec (.sat16s rd) s = .next t ∧ WritesZN s t rd v ∧
      v.toInt = max (-32768) (min 32767 (s.x rd).toInt)) ∧
    (EncodedOn .dsp 42#6 f1 rd (.sat32s rd) ∧ ∃ t v, exec (.sat32s rd) s = .next t ∧ WritesZN s t rd v ∧
      (high < -1 → v = 0x80000000#32) ∧ (0 < high → v = 0x7FFFFFFF#32) ∧ (high = -1 ∨ high = 0 → v = s.x rd))

/-- `PACK`, `UNPACK` of the `GPU` and `MIRROR` of the `DSP` (R254, R255, R259), bit by bit. -/
def Obligations.BitPlacements : Prop :=
  ∀ (s : State) (f1 : BitVec 5) (rd : Reg),
    (EncodedOn .gpu 63#6 0#5 rd (.pack rd) ∧ ∃ t v, exec (.pack rd) s = .next t ∧ WritesZN s t rd v ∧
      ∀ i, i < 32 → v.getLsbD i = if i < 8 then (s.x rd).getLsbD i else if i < 12 then (s.x rd).getLsbD (i + 5)
        else if i < 16 then (s.x rd).getLsbD (i + 10) else false) ∧
    (EncodedOn .gpu 63#6 1#5 rd (.unpack rd) ∧ ∃ t v, exec (.unpack rd) s = .next t ∧ WritesZN s t rd v ∧
      ∀ i, i < 32 → v.getLsbD i = if i < 8 then (s.x rd).getLsbD i
        else if 13 ≤ i ∧ i < 17 then (s.x rd).getLsbD (i - 5)
        else if 22 ≤ i ∧ i < 26 then (s.x rd).getLsbD (i - 10) else false) ∧
    (EncodedOn .dsp 48#6 f1 rd (.mirror rd) ∧ ∃ t v, exec (.mirror rd) s = .next t ∧ WritesZN s t rd v ∧
      ∀ i, i < 32 → v.getLsbD i = (s.x rd).getLsbD (31 - i))

/-- `NOP`, and the illegal slot of the `DSP`, change nothing; a step of one moves past its word and that is all (R278,
R264). -/
def Obligations.NoOperations : Prop :=
  ∀ (s : State) (f1 f2 : BitVec 5),
    Encoded 57#6 f1 f2 .nop ∧ exec .nop s = .next s ∧ EncodedOn .dsp 62#6 f1 f2 .illegal ∧ exec .illegal s = .next s ∧
    (AboutToRun s → ∀ w, s.fetchWord s.pc = .ok w →
      w = opWord 57#6 f1 f2 ∨ (s.cfg.variant = .dsp ∧ w = opWord 62#6 f1 f2) → step s = .next (Begun s))
end

