-- ==== Sys2Proof/Laws/Decode.lean ====
section
/-! SUPPORT. Fields of an opcode word, bytes of a word, and what decoding gives, said once. -/

namespace Sys2Proof

@[simp] theorem opcOf_opWord (o : BitVec 6) (a b : BitVec 5) : opcOf (opWord o a b) = o := by
  apply BitVec.eq_of_getLsbD_eq
  intro i hi
  simp only [opcOf, opWord, BitVec.getLsbD_extractLsb', BitVec.getLsbD_append]
  simp [hi, show ¬ 10 + i < 5 by omega, show 10 + i - 5 - 5 = i by omega, show ¬ 10 + i - 5 < 5 by omega]

@[simp] theorem f1Of_opWord (o : BitVec 6) (a b : BitVec 5) : f1Of (opWord o a b) = a := by
  apply BitVec.eq_of_getLsbD_eq
  intro i hi
  simp only [f1Of, opWord, BitVec.getLsbD_extractLsb', BitVec.getLsbD_append]
  simp [hi, show ¬ 5 + i < 5 by omega, show 5 + i - 5 = i by omega]

@[simp] theorem f2Of_opWord (o : BitVec 6) (a b : BitVec 5) : f2Of (opWord o a b) = b := by
  apply BitVec.eq_of_getLsbD_eq
  intro i hi
  simp only [f2Of, opWord, BitVec.getLsbD_extractLsb', BitVec.getLsbD_append]
  simp [hi]

/-- An opcode word is made of its fields. -/
theorem opWord_fields (w : Half) : opWord (opcOf w) (f1Of w) (f2Of w) = w := by
  apply BitVec.eq_of_getLsbD_eq
  intro i hi
  simp only [opWord, opcOf, f1Of, f2Of, BitVec.getLsbD_append, BitVec.getLsbD_extractLsb']
  by_cases h1 : i < 5
  · simp [h1]
  by_cases h2 : i - 5 < 5
  · simp [h1, h2, show 5 + (i - 5) = i by omega]
  · simp [h1, h2, show i - 5 - 5 < 6 by omega, show 10 + (i - 5 - 5) = i by omega]

/-- Decoding the word of three fields looks up those fields (R107). -/
@[simp] theorem decodeWord_opWord (v : Variant) (o : BitVec 6) (a b : BitVec 5) (ext : Word) :
    decodeWord v (opWord o a b) ext = decodeFields v o a b ext := by
  simp [decodeWord]

/-- A word is made of its two bytes (R74). -/
@[simp] theorem halfOf_bytes (w : Half) : halfOf (w.extractLsb' 8 8) (w.extractLsb' 0 8) = w := by
  apply BitVec.eq_of_getLsbD_eq
  intro i hi
  simp only [halfOf, BitVec.getLsbD_append, BitVec.getLsbD_extractLsb']
  by_cases h : i < 8
  · simp [h]
  · simp [h, show i - 8 < 8 by omega, show 8 + (i - 8) = i by omega]

/-- The immediate of `MOVEI` is made of its two halves (R106). -/
@[simp] theorem extOf_halves (w : Word) : extOf (w.extractLsb' 0 16) (w.extractLsb' 16 16) = w := by
  apply BitVec.eq_of_getLsbD_eq
  intro i hi
  simp only [extOf, BitVec.getLsbD_append, BitVec.getLsbD_extractLsb']
  by_cases h : i < 16
  · simp [h]
  · simp [h, show i - 16 < 16 by omega, show 16 + (i - 16) = i by omega]

end Sys2Proof
end

