-- ==== Sys2Proof/Laws/State.lean ====
section
/-! SUPPORT. The fields of a state after each update: none of these needs unfolding again. -/

namespace Sys2Proof.Machine

variable (s : State) (b : Bank) (r : Reg) (v : Word) (f : Bool)

@[simp] theorem setReg_cfg : (s.setReg b r v).cfg = s.cfg := by cases b <;> rfl
@[simp] theorem setReg_cur : (s.setReg b r v).cur = s.cur := by cases b <;> rfl
@[simp] theorem setReg_pc : (s.setReg b r v).pc = s.pc := by cases b <;> rfl
@[simp] theorem setReg_flags : (s.setReg b r v).flags = s.flags := by cases b <;> rfl
@[simp] theorem setReg_ctrl : (s.setReg b r v).ctrl = s.ctrl := by cases b <;> rfl
@[simp] theorem setReg_mtxc : (s.setReg b r v).mtxc = s.mtxc := by cases b <;> rfl
@[simp] theorem setReg_mtxa : (s.setReg b r v).mtxa = s.mtxa := by cases b <;> rfl
@[simp] theorem setReg_endian : (s.setReg b r v).endian = s.endian := by cases b <;> rfl
@[simp] theorem setReg_hiMod : (s.setReg b r v).hiMod = s.hiMod := by cases b <;> rfl
@[simp] theorem setReg_divctrl : (s.setReg b r v).divctrl = s.divctrl := by cases b <;> rfl
@[simp] theorem setReg_remainder : (s.setReg b r v).remainder = s.remainder := by cases b <;> rfl
@[simp] theorem setReg_acc : (s.setReg b r v).acc = s.acc := by cases b <;> rfl
@[simp] theorem setReg_ppc : (s.setReg b r v).ppc = s.ppc := by cases b <;> rfl
@[simp] theorem setReg_lagPending : (s.setReg b r v).lagPending = s.lagPending := by cases b <;> rfl
@[simp] theorem setReg_lagNow : (s.setReg b r v).lagNow = s.lagNow := by cases b <;> rfl
@[simp] theorem setReg_delay : (s.setReg b r v).delay = s.delay := by cases b <;> rfl
@[simp] theorem setReg_cpuInts : (s.setReg b r v).cpuInts = s.cpuInts := by cases b <;> rfl
@[simp] theorem setReg_mem : (s.setReg b r v).mem = s.mem := by cases b <;> rfl
@[simp] theorem setReg_stored : (s.setReg b r v).stored = s.stored := by cases b <;> rfl
@[simp] theorem setReg_cycles : (s.setReg b r v).cycles = s.cycles := by cases b <;> rfl
@[simp] theorem setReg_agenda : (s.setReg b r v).agenda = s.agenda := by cases b <;> rfl

@[simp] theorem setX_cfg : (s.setX r v).cfg = s.cfg := setReg_cfg s s.cur r v
@[simp] theorem setX_cur : (s.setX r v).cur = s.cur := setReg_cur s s.cur r v
@[simp] theorem setX_pc : (s.setX r v).pc = s.pc := setReg_pc s s.cur r v
@[simp] theorem setX_flags : (s.setX r v).flags = s.flags := setReg_flags s s.cur r v
@[simp] theorem setX_ctrl : (s.setX r v).ctrl = s.ctrl := setReg_ctrl s s.cur r v
@[simp] theorem setX_mtxc : (s.setX r v).mtxc = s.mtxc := setReg_mtxc s s.cur r v
@[simp] theorem setX_mtxa : (s.setX r v).mtxa = s.mtxa := setReg_mtxa s s.cur r v
@[simp] theorem setX_endian : (s.setX r v).endian = s.endian := setReg_endian s s.cur r v
@[simp] theorem setX_hiMod : (s.setX r v).hiMod = s.hiMod := setReg_hiMod s s.cur r v
@[simp] theorem setX_divctrl : (s.setX r v).divctrl = s.divctrl := setReg_divctrl s s.cur r v
@[simp] theorem setX_remainder : (s.setX r v).remainder = s.remainder := setReg_remainder s s.cur r v
@[simp] theorem setX_acc : (s.setX r v).acc = s.acc := setReg_acc s s.cur r v
@[simp] theorem setX_ppc : (s.setX r v).ppc = s.ppc := setReg_ppc s s.cur r v
@[simp] theorem setX_lagPending : (s.setX r v).lagPending = s.lagPending := setReg_lagPending s s.cur r v
@[simp] theorem setX_lagNow : (s.setX r v).lagNow = s.lagNow := setReg_lagNow s s.cur r v
@[simp] theorem setX_delay : (s.setX r v).delay = s.delay := setReg_delay s s.cur r v
@[simp] theorem setX_cpuInts : (s.setX r v).cpuInts = s.cpuInts := setReg_cpuInts s s.cur r v
@[simp] theorem setX_mem : (s.setX r v).mem = s.mem := setReg_mem s s.cur r v
@[simp] theorem setX_stored : (s.setX r v).stored = s.stored := setReg_stored s s.cur r v
@[simp] theorem setX_cycles : (s.setX r v).cycles = s.cycles := setReg_cycles s s.cur r v
@[simp] theorem setX_agenda : (s.setX r v).agenda = s.agenda := setReg_agenda s s.cur r v

@[simp] theorem setAlt_cfg : (s.setAlt r v).cfg = s.cfg := setReg_cfg s s.cur.other r v
@[simp] theorem setAlt_cur : (s.setAlt r v).cur = s.cur := setReg_cur s s.cur.other r v
@[simp] theorem setAlt_pc : (s.setAlt r v).pc = s.pc := setReg_pc s s.cur.other r v
@[simp] theorem setAlt_flags : (s.setAlt r v).flags = s.flags := setReg_flags s s.cur.other r v
@[simp] theorem setAlt_ctrl : (s.setAlt r v).ctrl = s.ctrl := setReg_ctrl s s.cur.other r v
@[simp] theorem setAlt_mtxc : (s.setAlt r v).mtxc = s.mtxc := setReg_mtxc s s.cur.other r v
@[simp] theorem setAlt_mtxa : (s.setAlt r v).mtxa = s.mtxa := setReg_mtxa s s.cur.other r v
@[simp] theorem setAlt_endian : (s.setAlt r v).endian = s.endian := setReg_endian s s.cur.other r v
@[simp] theorem setAlt_hiMod : (s.setAlt r v).hiMod = s.hiMod := setReg_hiMod s s.cur.other r v
@[simp] theorem setAlt_divctrl : (s.setAlt r v).divctrl = s.divctrl := setReg_divctrl s s.cur.other r v
@[simp] theorem setAlt_remainder : (s.setAlt r v).remainder = s.remainder := setReg_remainder s s.cur.other r v
@[simp] theorem setAlt_acc : (s.setAlt r v).acc = s.acc := setReg_acc s s.cur.other r v
@[simp] theorem setAlt_ppc : (s.setAlt r v).ppc = s.ppc := setReg_ppc s s.cur.other r v
@[simp] theorem setAlt_lagPending : (s.setAlt r v).lagPending = s.lagPending := setReg_lagPending s s.cur.other r v
@[simp] theorem setAlt_lagNow : (s.setAlt r v).lagNow = s.lagNow := setReg_lagNow s s.cur.other r v
@[simp] theorem setAlt_delay : (s.setAlt r v).delay = s.delay := setReg_delay s s.cur.other r v
@[simp] theorem setAlt_cpuInts : (s.setAlt r v).cpuInts = s.cpuInts := setReg_cpuInts s s.cur.other r v
@[simp] theorem setAlt_mem : (s.setAlt r v).mem = s.mem := setReg_mem s s.cur.other r v
@[simp] theorem setAlt_stored : (s.setAlt r v).stored = s.stored := setReg_stored s s.cur.other r v
@[simp] theorem setAlt_cycles : (s.setAlt r v).cycles = s.cycles := setReg_cycles s s.cur.other r v
@[simp] theorem setAlt_agenda : (s.setAlt r v).agenda = s.agenda := setReg_agenda s s.cur.other r v

@[simp] theorem setZ_cfg : (s.setZ f).cfg = s.cfg := rfl
@[simp] theorem setZ_b0 : (s.setZ f).b0 = s.b0 := rfl
@[simp] theorem setZ_b1 : (s.setZ f).b1 = s.b1 := rfl
@[simp] theorem setZ_cur : (s.setZ f).cur = s.cur := rfl
@[simp] theorem setZ_pc : (s.setZ f).pc = s.pc := rfl
@[simp] theorem setZ_ctrl : (s.setZ f).ctrl = s.ctrl := rfl
@[simp] theorem setZ_mtxc : (s.setZ f).mtxc = s.mtxc := rfl
@[simp] theorem setZ_mtxa : (s.setZ f).mtxa = s.mtxa := rfl
@[simp] theorem setZ_endian : (s.setZ f).endian = s.endian := rfl
@[simp] theorem setZ_hiMod : (s.setZ f).hiMod = s.hiMod := rfl
@[simp] theorem setZ_divctrl : (s.setZ f).divctrl = s.divctrl := rfl
@[simp] theorem setZ_remainder : (s.setZ f).remainder = s.remainder := rfl
@[simp] theorem setZ_acc : (s.setZ f).acc = s.acc := rfl
@[simp] theorem setZ_ppc : (s.setZ f).ppc = s.ppc := rfl
@[simp] theorem setZ_lagPending : (s.setZ f).lagPending = s.lagPending := rfl
@[simp] theorem setZ_lagNow : (s.setZ f).lagNow = s.lagNow := rfl
@[simp] theorem setZ_delay : (s.setZ f).delay = s.delay := rfl
@[simp] theorem setZ_cpuInts : (s.setZ f).cpuInts = s.cpuInts := rfl
@[simp] theorem setZ_mem : (s.setZ f).mem = s.mem := rfl
@[simp] theorem setZ_stored : (s.setZ f).stored = s.stored := rfl
@[simp] theorem setZ_cycles : (s.setZ f).cycles = s.cycles := rfl
@[simp] theorem setZ_agenda : (s.setZ f).agenda = s.agenda := rfl

@[simp] theorem setI_cfg : (s.setI f).cfg = s.cfg := rfl
@[simp] theorem setI_b0 : (s.setI f).b0 = s.b0 := rfl
@[simp] theorem setI_b1 : (s.setI f).b1 = s.b1 := rfl
@[simp] theorem setI_cur : (s.setI f).cur = s.cur := rfl
@[simp] theorem setI_pc : (s.setI f).pc = s.pc := rfl
@[simp] theorem setI_ctrl : (s.setI f).ctrl = s.ctrl := rfl
@[simp] theorem setI_mtxc : (s.setI f).mtxc = s.mtxc := rfl
@[simp] theorem setI_mtxa : (s.setI f).mtxa = s.mtxa := rfl
@[simp] theorem setI_endian : (s.setI f).endian = s.endian := rfl
@[simp] theorem setI_hiMod : (s.setI f).hiMod = s.hiMod := rfl
@[simp] theorem setI_divctrl : (s.setI f).divctrl = s.divctrl := rfl
@[simp] theorem setI_remainder : (s.setI f).remainder = s.remainder := rfl
@[simp] theorem setI_acc : (s.setI f).acc = s.acc := rfl
@[simp] theorem setI_ppc : (s.setI f).ppc = s.ppc := rfl
@[simp] theorem setI_lagPending : (s.setI f).lagPending = s.lagPending := rfl
@[simp] theorem setI_lagNow : (s.setI f).lagNow = s.lagNow := rfl
@[simp] theorem setI_delay : (s.setI f).delay = s.delay := rfl
@[simp] theorem setI_cpuInts : (s.setI f).cpuInts = s.cpuInts := rfl
@[simp] theorem setI_mem : (s.setI f).mem = s.mem := rfl
@[simp] theorem setI_stored : (s.setI f).stored = s.stored := rfl
@[simp] theorem setI_cycles : (s.setI f).cycles = s.cycles := rfl
@[simp] theorem setI_agenda : (s.setI f).agenda = s.agenda := rfl

@[simp] theorem setZN_cfg : (s.setZN v).cfg = s.cfg := rfl
@[simp] theorem setZN_b0 : (s.setZN v).b0 = s.b0 := rfl
@[simp] theorem setZN_b1 : (s.setZN v).b1 = s.b1 := rfl
@[simp] theorem setZN_cur : (s.setZN v).cur = s.cur := rfl
@[simp] theorem setZN_pc : (s.setZN v).pc = s.pc := rfl
@[simp] theorem setZN_ctrl : (s.setZN v).ctrl = s.ctrl := rfl
@[simp] theorem setZN_mtxc : (s.setZN v).mtxc = s.mtxc := rfl
@[simp] theorem setZN_mtxa : (s.setZN v).mtxa = s.mtxa := rfl
@[simp] theorem setZN_endian : (s.setZN v).endian = s.endian := rfl
@[simp] theorem setZN_hiMod : (s.setZN v).hiMod = s.hiMod := rfl
@[simp] theorem setZN_divctrl : (s.setZN v).divctrl = s.divctrl := rfl
@[simp] theorem setZN_remainder : (s.setZN v).remainder = s.remainder := rfl
@[simp] theorem setZN_acc : (s.setZN v).acc = s.acc := rfl
@[simp] theorem setZN_ppc : (s.setZN v).ppc = s.ppc := rfl
@[simp] theorem setZN_lagPending : (s.setZN v).lagPending = s.lagPending := rfl
@[simp] theorem setZN_lagNow : (s.setZN v).lagNow = s.lagNow := rfl
@[simp] theorem setZN_delay : (s.setZN v).delay = s.delay := rfl
@[simp] theorem setZN_cpuInts : (s.setZN v).cpuInts = s.cpuInts := rfl
@[simp] theorem setZN_mem : (s.setZN v).mem = s.mem := rfl
@[simp] theorem setZN_stored : (s.setZN v).stored = s.stored := rfl
@[simp] theorem setZN_cycles : (s.setZN v).cycles = s.cycles := rfl
@[simp] theorem setZN_agenda : (s.setZN v).agenda = s.agenda := rfl

@[simp] theorem setZNC_cfg : (s.setZNC v f).cfg = s.cfg := rfl
@[simp] theorem setZNC_b0 : (s.setZNC v f).b0 = s.b0 := rfl
@[simp] theorem setZNC_b1 : (s.setZNC v f).b1 = s.b1 := rfl
@[simp] theorem setZNC_cur : (s.setZNC v f).cur = s.cur := rfl
@[simp] theorem setZNC_pc : (s.setZNC v f).pc = s.pc := rfl
@[simp] theorem setZNC_ctrl : (s.setZNC v f).ctrl = s.ctrl := rfl
@[simp] theorem setZNC_mtxc : (s.setZNC v f).mtxc = s.mtxc := rfl
@[simp] theorem setZNC_mtxa : (s.setZNC v f).mtxa = s.mtxa := rfl
@[simp] theorem setZNC_endian : (s.setZNC v f).endian = s.endian := rfl
@[simp] theorem setZNC_hiMod : (s.setZNC v f).hiMod = s.hiMod := rfl
@[simp] theorem setZNC_divctrl : (s.setZNC v f).divctrl = s.divctrl := rfl
@[simp] theorem setZNC_remainder : (s.setZNC v f).remainder = s.remainder := rfl
@[simp] theorem setZNC_acc : (s.setZNC v f).acc = s.acc := rfl
@[simp] theorem setZNC_ppc : (s.setZNC v f).ppc = s.ppc := rfl
@[simp] theorem setZNC_lagPending : (s.setZNC v f).lagPending = s.lagPending := rfl
@[simp] theorem setZNC_lagNow : (s.setZNC v f).lagNow = s.lagNow := rfl
@[simp] theorem setZNC_delay : (s.setZNC v f).delay = s.delay := rfl
@[simp] theorem setZNC_cpuInts : (s.setZNC v f).cpuInts = s.cpuInts := rfl
@[simp] theorem setZNC_mem : (s.setZNC v f).mem = s.mem := rfl
@[simp] theorem setZNC_stored : (s.setZNC v f).stored = s.stored := rfl
@[simp] theorem setZNC_cycles : (s.setZNC v f).cycles = s.cycles := rfl
@[simp] theorem setZNC_agenda : (s.setZNC v f).agenda = s.agenda := rfl

@[simp] theorem poke_cfg (cells : List Host.Cell) : (s.poke cells).cfg = s.cfg := rfl
@[simp] theorem poke_b0 (cells : List Host.Cell) : (s.poke cells).b0 = s.b0 := rfl
@[simp] theorem poke_b1 (cells : List Host.Cell) : (s.poke cells).b1 = s.b1 := rfl
@[simp] theorem poke_cur (cells : List Host.Cell) : (s.poke cells).cur = s.cur := rfl
@[simp] theorem poke_pc (cells : List Host.Cell) : (s.poke cells).pc = s.pc := rfl
@[simp] theorem poke_flags (cells : List Host.Cell) : (s.poke cells).flags = s.flags := rfl
@[simp] theorem poke_ctrl (cells : List Host.Cell) : (s.poke cells).ctrl = s.ctrl := rfl
@[simp] theorem poke_mtxc (cells : List Host.Cell) : (s.poke cells).mtxc = s.mtxc := rfl
@[simp] theorem poke_mtxa (cells : List Host.Cell) : (s.poke cells).mtxa = s.mtxa := rfl
@[simp] theorem poke_endian (cells : List Host.Cell) : (s.poke cells).endian = s.endian := rfl
@[simp] theorem poke_hiMod (cells : List Host.Cell) : (s.poke cells).hiMod = s.hiMod := rfl
@[simp] theorem poke_divctrl (cells : List Host.Cell) : (s.poke cells).divctrl = s.divctrl := rfl
@[simp] theorem poke_remainder (cells : List Host.Cell) : (s.poke cells).remainder = s.remainder := rfl
@[simp] theorem poke_acc (cells : List Host.Cell) : (s.poke cells).acc = s.acc := rfl
@[simp] theorem poke_ppc (cells : List Host.Cell) : (s.poke cells).ppc = s.ppc := rfl
@[simp] theorem poke_lagPending (cells : List Host.Cell) : (s.poke cells).lagPending = s.lagPending := rfl
@[simp] theorem poke_lagNow (cells : List Host.Cell) : (s.poke cells).lagNow = s.lagNow := rfl
@[simp] theorem poke_delay (cells : List Host.Cell) : (s.poke cells).delay = s.delay := rfl
@[simp] theorem poke_cpuInts (cells : List Host.Cell) : (s.poke cells).cpuInts = s.cpuInts := rfl
@[simp] theorem poke_cycles (cells : List Host.Cell) : (s.poke cells).cycles = s.cycles := rfl
@[simp] theorem poke_agenda (cells : List Host.Cell) : (s.poke cells).agenda = s.agenda := rfl

@[simp] theorem accumulate_cfg (ra rb : Reg) : (s.accumulate ra rb).cfg = s.cfg := rfl
@[simp] theorem accumulate_b0 (ra rb : Reg) : (s.accumulate ra rb).b0 = s.b0 := rfl
@[simp] theorem accumulate_b1 (ra rb : Reg) : (s.accumulate ra rb).b1 = s.b1 := rfl
@[simp] theorem accumulate_cur (ra rb : Reg) : (s.accumulate ra rb).cur = s.cur := rfl
@[simp] theorem accumulate_pc (ra rb : Reg) : (s.accumulate ra rb).pc = s.pc := rfl
@[simp] theorem accumulate_flags (ra rb : Reg) : (s.accumulate ra rb).flags = s.flags := rfl
@[simp] theorem accumulate_ctrl (ra rb : Reg) : (s.accumulate ra rb).ctrl = s.ctrl := rfl
@[simp] theorem accumulate_mtxc (ra rb : Reg) : (s.accumulate ra rb).mtxc = s.mtxc := rfl
@[simp] theorem accumulate_mtxa (ra rb : Reg) : (s.accumulate ra rb).mtxa = s.mtxa := rfl
@[simp] theorem accumulate_endian (ra rb : Reg) : (s.accumulate ra rb).endian = s.endian := rfl
@[simp] theorem accumulate_hiMod (ra rb : Reg) : (s.accumulate ra rb).hiMod = s.hiMod := rfl
@[simp] theorem accumulate_divctrl (ra rb : Reg) : (s.accumulate ra rb).divctrl = s.divctrl := rfl
@[simp] theorem accumulate_remainder (ra rb : Reg) : (s.accumulate ra rb).remainder = s.remainder := rfl
@[simp] theorem accumulate_ppc (ra rb : Reg) : (s.accumulate ra rb).ppc = s.ppc := rfl
@[simp] theorem accumulate_lagPending (ra rb : Reg) : (s.accumulate ra rb).lagPending = s.lagPending := rfl
@[simp] theorem accumulate_lagNow (ra rb : Reg) : (s.accumulate ra rb).lagNow = s.lagNow := rfl
@[simp] theorem accumulate_delay (ra rb : Reg) : (s.accumulate ra rb).delay = s.delay := rfl
@[simp] theorem accumulate_cpuInts (ra rb : Reg) : (s.accumulate ra rb).cpuInts = s.cpuInts := rfl
@[simp] theorem accumulate_mem (ra rb : Reg) : (s.accumulate ra rb).mem = s.mem := rfl
@[simp] theorem accumulate_stored (ra rb : Reg) : (s.accumulate ra rb).stored = s.stored := rfl
@[simp] theorem accumulate_cycles (ra rb : Reg) : (s.accumulate ra rb).cycles = s.cycles := rfl
@[simp] theorem accumulate_agenda (ra rb : Reg) : (s.accumulate ra rb).agenda = s.agenda := rfl

@[simp] theorem skipWord_cfg : (s.skipWord).cfg = s.cfg := rfl
@[simp] theorem skipWord_b0 : (s.skipWord).b0 = s.b0 := rfl
@[simp] theorem skipWord_b1 : (s.skipWord).b1 = s.b1 := rfl
@[simp] theorem skipWord_cur : (s.skipWord).cur = s.cur := rfl
@[simp] theorem skipWord_flags : (s.skipWord).flags = s.flags := rfl
@[simp] theorem skipWord_ctrl : (s.skipWord).ctrl = s.ctrl := rfl
@[simp] theorem skipWord_mtxc : (s.skipWord).mtxc = s.mtxc := rfl
@[simp] theorem skipWord_mtxa : (s.skipWord).mtxa = s.mtxa := rfl
@[simp] theorem skipWord_endian : (s.skipWord).endian = s.endian := rfl
@[simp] theorem skipWord_hiMod : (s.skipWord).hiMod = s.hiMod := rfl
@[simp] theorem skipWord_divctrl : (s.skipWord).divctrl = s.divctrl := rfl
@[simp] theorem skipWord_remainder : (s.skipWord).remainder = s.remainder := rfl
@[simp] theorem skipWord_acc : (s.skipWord).acc = s.acc := rfl
@[simp] theorem skipWord_ppc : (s.skipWord).ppc = s.ppc := rfl
@[simp] theorem skipWord_lagPending : (s.skipWord).lagPending = s.lagPending := rfl
@[simp] theorem skipWord_lagNow : (s.skipWord).lagNow = s.lagNow := rfl
@[simp] theorem skipWord_delay : (s.skipWord).delay = s.delay := rfl
@[simp] theorem skipWord_cpuInts : (s.skipWord).cpuInts = s.cpuInts := rfl
@[simp] theorem skipWord_mem : (s.skipWord).mem = s.mem := rfl
@[simp] theorem skipWord_stored : (s.skipWord).stored = s.stored := rfl
@[simp] theorem skipWord_cycles : (s.skipWord).cycles = s.cycles := rfl
@[simp] theorem skipWord_agenda : (s.skipWord).agenda = s.agenda := rfl
@[simp] theorem skipWord_pc : s.skipWord.pc = s.pc + 2#32 := rfl

@[simp] theorem deliver_cfg : (s.deliver r).cfg = s.cfg := setX_cfg s r _
@[simp] theorem deliver_cur : (s.deliver r).cur = s.cur := setX_cur s r _
@[simp] theorem deliver_pc : (s.deliver r).pc = s.pc := setX_pc s r _
@[simp] theorem deliver_flags : (s.deliver r).flags = s.flags := setX_flags s r _
@[simp] theorem deliver_ctrl : (s.deliver r).ctrl = s.ctrl := setX_ctrl s r _
@[simp] theorem deliver_mtxc : (s.deliver r).mtxc = s.mtxc := setX_mtxc s r _
@[simp] theorem deliver_mtxa : (s.deliver r).mtxa = s.mtxa := setX_mtxa s r _
@[simp] theorem deliver_endian : (s.deliver r).endian = s.endian := setX_endian s r _
@[simp] theorem deliver_hiMod : (s.deliver r).hiMod = s.hiMod := setX_hiMod s r _
@[simp] theorem deliver_divctrl : (s.deliver r).divctrl = s.divctrl := setX_divctrl s r _
@[simp] theorem deliver_remainder : (s.deliver r).remainder = s.remainder := setX_remainder s r _
@[simp] theorem deliver_acc : (s.deliver r).acc = s.acc := setX_acc s r _
@[simp] theorem deliver_ppc : (s.deliver r).ppc = s.ppc := setX_ppc s r _
@[simp] theorem deliver_lagPending : (s.deliver r).lagPending = s.lagPending := setX_lagPending s r _
@[simp] theorem deliver_lagNow : (s.deliver r).lagNow = s.lagNow := setX_lagNow s r _
@[simp] theorem deliver_delay : (s.deliver r).delay = s.delay := setX_delay s r _
@[simp] theorem deliver_cpuInts : (s.deliver r).cpuInts = s.cpuInts := setX_cpuInts s r _
@[simp] theorem deliver_mem : (s.deliver r).mem = s.mem := setX_mem s r _
@[simp] theorem deliver_stored : (s.deliver r).stored = s.stored := setX_stored s r _
@[simp] theorem deliver_cycles : (s.deliver r).cycles = s.cycles := setX_cycles s r _
@[simp] theorem deliver_agenda : (s.deliver r).agenda = s.agenda := setX_agenda s r _

@[simp] theorem fetched_cfg : (s.fetched).cfg = s.cfg := rfl
@[simp] theorem fetched_b0 : (s.fetched).b0 = s.b0 := rfl
@[simp] theorem fetched_b1 : (s.fetched).b1 = s.b1 := rfl
@[simp] theorem fetched_cur : (s.fetched).cur = s.cur := rfl
@[simp] theorem fetched_flags : (s.fetched).flags = s.flags := rfl
@[simp] theorem fetched_ctrl : (s.fetched).ctrl = s.ctrl := rfl
@[simp] theorem fetched_mtxc : (s.fetched).mtxc = s.mtxc := rfl
@[simp] theorem fetched_mtxa : (s.fetched).mtxa = s.mtxa := rfl
@[simp] theorem fetched_endian : (s.fetched).endian = s.endian := rfl
@[simp] theorem fetched_hiMod : (s.fetched).hiMod = s.hiMod := rfl
@[simp] theorem fetched_divctrl : (s.fetched).divctrl = s.divctrl := rfl
@[simp] theorem fetched_remainder : (s.fetched).remainder = s.remainder := rfl
@[simp] theorem fetched_acc : (s.fetched).acc = s.acc := rfl
@[simp] theorem fetched_lagPending : (s.fetched).lagPending = s.lagPending := rfl
@[simp] theorem fetched_lagNow : (s.fetched).lagNow = s.lagNow := rfl
@[simp] theorem fetched_delay : (s.fetched).delay = s.delay := rfl
@[simp] theorem fetched_cpuInts : (s.fetched).cpuInts = s.cpuInts := rfl
@[simp] theorem fetched_mem : (s.fetched).mem = s.mem := rfl
@[simp] theorem fetched_stored : (s.fetched).stored = s.stored := rfl
@[simp] theorem fetched_cycles : (s.fetched).cycles = s.cycles := rfl
@[simp] theorem fetched_agenda : (s.fetched).agenda = s.agenda := rfl
@[simp] theorem fetched_pc : s.fetched.pc = s.pc + 2#32 := rfl
@[simp] theorem fetched_ppc : s.fetched.ppc = s.pc := rfl

@[simp] theorem beginStep_cfg : (s.beginStep).cfg = s.cfg := rfl
@[simp] theorem beginStep_b0 : (s.beginStep).b0 = s.b0 := rfl
@[simp] theorem beginStep_b1 : (s.beginStep).b1 = s.b1 := rfl
@[simp] theorem beginStep_cur : (s.beginStep).cur = s.cur := rfl
@[simp] theorem beginStep_pc : (s.beginStep).pc = s.pc := rfl
@[simp] theorem beginStep_flags : (s.beginStep).flags = s.flags := rfl
@[simp] theorem beginStep_ctrl : (s.beginStep).ctrl = s.ctrl := rfl
@[simp] theorem beginStep_mtxc : (s.beginStep).mtxc = s.mtxc := rfl
@[simp] theorem beginStep_mtxa : (s.beginStep).mtxa = s.mtxa := rfl
@[simp] theorem beginStep_endian : (s.beginStep).endian = s.endian := rfl
@[simp] theorem beginStep_hiMod : (s.beginStep).hiMod = s.hiMod := rfl
@[simp] theorem beginStep_divctrl : (s.beginStep).divctrl = s.divctrl := rfl
@[simp] theorem beginStep_remainder : (s.beginStep).remainder = s.remainder := rfl
@[simp] theorem beginStep_acc : (s.beginStep).acc = s.acc := rfl
@[simp] theorem beginStep_ppc : (s.beginStep).ppc = s.ppc := rfl
@[simp] theorem beginStep_delay : (s.beginStep).delay = s.delay := rfl
@[simp] theorem beginStep_cpuInts : (s.beginStep).cpuInts = s.cpuInts := rfl
@[simp] theorem beginStep_mem : (s.beginStep).mem = s.mem := rfl
@[simp] theorem beginStep_stored : (s.beginStep).stored = s.stored := rfl
@[simp] theorem beginStep_agenda : (s.beginStep).agenda = s.agenda := rfl
@[simp] theorem beginStep_lagNow : s.beginStep.lagNow = s.lagPending := rfl
@[simp] theorem beginStep_lagPending : s.beginStep.lagPending = false := rfl
@[simp] theorem beginStep_cycles : s.beginStep.cycles = s.cycles + 1 := rfl

@[simp] theorem setLatch_cfg (k : Nat) : (s.setLatch k f).cfg = s.cfg := rfl
@[simp] theorem acknowledge_cfg : (s.acknowledge v).cfg = s.cfg := rfl
@[simp] theorem storeCtrl_cfg : (s.storeCtrl v).cfg = s.cfg := rfl
@[simp] theorem storeCtrl_b0 : (s.storeCtrl v).b0 = s.b0 := rfl
@[simp] theorem storeCtrl_b1 : (s.storeCtrl v).b1 = s.b1 := rfl
@[simp] theorem storeCtrl_cur : (s.storeCtrl v).cur = s.cur := rfl
@[simp] theorem storeCtrl_pc : (s.storeCtrl v).pc = s.pc := rfl
@[simp] theorem storeCtrl_flags : (s.storeCtrl v).flags = s.flags := rfl
@[simp] theorem storeCtrl_mtxc : (s.storeCtrl v).mtxc = s.mtxc := rfl
@[simp] theorem storeCtrl_mtxa : (s.storeCtrl v).mtxa = s.mtxa := rfl
@[simp] theorem storeCtrl_endian : (s.storeCtrl v).endian = s.endian := rfl
@[simp] theorem storeCtrl_hiMod : (s.storeCtrl v).hiMod = s.hiMod := rfl
@[simp] theorem storeCtrl_divctrl : (s.storeCtrl v).divctrl = s.divctrl := rfl
@[simp] theorem storeCtrl_remainder : (s.storeCtrl v).remainder = s.remainder := rfl
@[simp] theorem storeCtrl_acc : (s.storeCtrl v).acc = s.acc := rfl
@[simp] theorem storeCtrl_ppc : (s.storeCtrl v).ppc = s.ppc := rfl
@[simp] theorem storeCtrl_lagPending : (s.storeCtrl v).lagPending = s.lagPending := rfl
@[simp] theorem storeCtrl_lagNow : (s.storeCtrl v).lagNow = s.lagNow := rfl
@[simp] theorem storeCtrl_delay : (s.storeCtrl v).delay = s.delay := rfl
@[simp] theorem storeCtrl_mem : (s.storeCtrl v).mem = s.mem := rfl
@[simp] theorem storeCtrl_cycles : (s.storeCtrl v).cycles = s.cycles := rfl
@[simp] theorem storeCtrl_agenda : (s.storeCtrl v).agenda = s.agenda := rfl
@[simp] theorem storeCtrl_ctrl : (s.storeCtrl v).ctrl = storedCtrl v := rfl
@[simp] theorem storeCtrl_cpuInts : (s.storeCtrl v).cpuInts = s.cpuInts + (v.getLsbD 1).toNat := rfl
theorem storeCtrl_stored : (s.storeCtrl v).stored = if s.cfg.startForgetsStores && s.starts v then [] else s.stored := rfl
@[simp] theorem setLatch_b0 (k : Nat) : (s.setLatch k f).b0 = s.b0 := rfl
@[simp] theorem acknowledge_b0 : (s.acknowledge v).b0 = s.b0 := rfl
@[simp] theorem setLatch_b1 (k : Nat) : (s.setLatch k f).b1 = s.b1 := rfl
@[simp] theorem acknowledge_b1 : (s.acknowledge v).b1 = s.b1 := rfl
@[simp] theorem setLatch_cur (k : Nat) : (s.setLatch k f).cur = s.cur := rfl
@[simp] theorem acknowledge_cur : (s.acknowledge v).cur = s.cur := rfl
@[simp] theorem setLatch_pc (k : Nat) : (s.setLatch k f).pc = s.pc := rfl
@[simp] theorem acknowledge_pc : (s.acknowledge v).pc = s.pc := rfl
@[simp] theorem setLatch_flags (k : Nat) : (s.setLatch k f).flags = s.flags := rfl
@[simp] theorem acknowledge_flags : (s.acknowledge v).flags = s.flags := rfl
@[simp] theorem setLatch_mtxc (k : Nat) : (s.setLatch k f).mtxc = s.mtxc := rfl
@[simp] theorem acknowledge_mtxc : (s.acknowledge v).mtxc = s.mtxc := rfl
@[simp] theorem setLatch_mtxa (k : Nat) : (s.setLatch k f).mtxa = s.mtxa := rfl
@[simp] theorem acknowledge_mtxa : (s.acknowledge v).mtxa = s.mtxa := rfl
@[simp] theorem setLatch_endian (k : Nat) : (s.setLatch k f).endian = s.endian := rfl
@[simp] theorem acknowledge_endian : (s.acknowledge v).endian = s.endian := rfl
@[simp] theorem setLatch_hiMod (k : Nat) : (s.setLatch k f).hiMod = s.hiMod := rfl
@[simp] theorem acknowledge_hiMod : (s.acknowledge v).hiMod = s.hiMod := rfl
@[simp] theorem setLatch_divctrl (k : Nat) : (s.setLatch k f).divctrl = s.divctrl := rfl
@[simp] theorem acknowledge_divctrl : (s.acknowledge v).divctrl = s.divctrl := rfl
@[simp] theorem setLatch_remainder (k : Nat) : (s.setLatch k f).remainder = s.remainder := rfl
@[simp] theorem acknowledge_remainder : (s.acknowledge v).remainder = s.remainder := rfl
@[simp] theorem setLatch_acc (k : Nat) : (s.setLatch k f).acc = s.acc := rfl
@[simp] theorem acknowledge_acc : (s.acknowledge v).acc = s.acc := rfl
@[simp] theorem setLatch_ppc (k : Nat) : (s.setLatch k f).ppc = s.ppc := rfl
@[simp] theorem acknowledge_ppc : (s.acknowledge v).ppc = s.ppc := rfl
@[simp] theorem setLatch_lagPending (k : Nat) : (s.setLatch k f).lagPending = s.lagPending := rfl
@[simp] theorem acknowledge_lagPending : (s.acknowledge v).lagPending = s.lagPending := rfl
@[simp] theorem setLatch_lagNow (k : Nat) : (s.setLatch k f).lagNow = s.lagNow := rfl
@[simp] theorem acknowledge_lagNow : (s.acknowledge v).lagNow = s.lagNow := rfl
@[simp] theorem setLatch_delay (k : Nat) : (s.setLatch k f).delay = s.delay := rfl
@[simp] theorem acknowledge_delay : (s.acknowledge v).delay = s.delay := rfl
@[simp] theorem setLatch_cpuInts (k : Nat) : (s.setLatch k f).cpuInts = s.cpuInts := rfl
@[simp] theorem acknowledge_cpuInts : (s.acknowledge v).cpuInts = s.cpuInts := rfl
@[simp] theorem setLatch_mem (k : Nat) : (s.setLatch k f).mem = s.mem := rfl
@[simp] theorem acknowledge_mem : (s.acknowledge v).mem = s.mem := rfl
@[simp] theorem setLatch_stored (k : Nat) : (s.setLatch k f).stored = s.stored := rfl
@[simp] theorem acknowledge_stored : (s.acknowledge v).stored = s.stored := rfl
@[simp] theorem setLatch_cycles (k : Nat) : (s.setLatch k f).cycles = s.cycles := rfl
@[simp] theorem acknowledge_cycles : (s.acknowledge v).cycles = s.cycles := rfl
@[simp] theorem setLatch_agenda (k : Nat) : (s.setLatch k f).agenda = s.agenda := rfl
@[simp] theorem acknowledge_agenda : (s.acknowledge v).agenda = s.agenda := rfl

@[simp] theorem masterWrite_cfg (a : Nat) (x : Byte) : (masterWrite a x s).cfg = s.cfg := rfl
@[simp] theorem masterWrite_b0 (a : Nat) (x : Byte) : (masterWrite a x s).b0 = s.b0 := rfl
@[simp] theorem masterWrite_b1 (a : Nat) (x : Byte) : (masterWrite a x s).b1 = s.b1 := rfl
@[simp] theorem masterWrite_cur (a : Nat) (x : Byte) : (masterWrite a x s).cur = s.cur := rfl
@[simp] theorem masterWrite_pc (a : Nat) (x : Byte) : (masterWrite a x s).pc = s.pc := rfl
@[simp] theorem masterWrite_flags (a : Nat) (x : Byte) : (masterWrite a x s).flags = s.flags := rfl
@[simp] theorem masterWrite_ctrl (a : Nat) (x : Byte) : (masterWrite a x s).ctrl = s.ctrl := rfl
@[simp] theorem masterWrite_mtxc (a : Nat) (x : Byte) : (masterWrite a x s).mtxc = s.mtxc := rfl
@[simp] theorem masterWrite_mtxa (a : Nat) (x : Byte) : (masterWrite a x s).mtxa = s.mtxa := rfl
@[simp] theorem masterWrite_endian (a : Nat) (x : Byte) : (masterWrite a x s).endian = s.endian := rfl
@[simp] theorem masterWrite_hiMod (a : Nat) (x : Byte) : (masterWrite a x s).hiMod = s.hiMod := rfl
@[simp] theorem masterWrite_divctrl (a : Nat) (x : Byte) : (masterWrite a x s).divctrl = s.divctrl := rfl
@[simp] theorem masterWrite_remainder (a : Nat) (x : Byte) : (masterWrite a x s).remainder = s.remainder := rfl
@[simp] theorem masterWrite_acc (a : Nat) (x : Byte) : (masterWrite a x s).acc = s.acc := rfl
@[simp] theorem masterWrite_ppc (a : Nat) (x : Byte) : (masterWrite a x s).ppc = s.ppc := rfl
@[simp] theorem masterWrite_lagPending (a : Nat) (x : Byte) : (masterWrite a x s).lagPending = s.lagPending := rfl
@[simp] theorem masterWrite_lagNow (a : Nat) (x : Byte) : (masterWrite a x s).lagNow = s.lagNow := rfl
@[simp] theorem masterWrite_delay (a : Nat) (x : Byte) : (masterWrite a x s).delay = s.delay := rfl
@[simp] theorem masterWrite_cpuInts (a : Nat) (x : Byte) : (masterWrite a x s).cpuInts = s.cpuInts := rfl
@[simp] theorem masterWrite_stored (a : Nat) (x : Byte) : (masterWrite a x s).stored = s.stored := rfl
@[simp] theorem masterWrite_cycles (a : Nat) (x : Byte) : (masterWrite a x s).cycles = s.cycles := rfl
@[simp] theorem masterWrite_agenda (a : Nat) (x : Byte) : (masterWrite a x s).agenda = s.agenda := rfl

@[simp] theorem markBankSwitch_cfg (why : Cause) : (markBankSwitch why s).cfg = s.cfg := by cases why <;> simp only [markBankSwitch]; split <;> rfl
@[simp] theorem markBankSwitch_b0 (why : Cause) : (markBankSwitch why s).b0 = s.b0 := by cases why <;> simp only [markBankSwitch]; split <;> rfl
@[simp] theorem markBankSwitch_b1 (why : Cause) : (markBankSwitch why s).b1 = s.b1 := by cases why <;> simp only [markBankSwitch]; split <;> rfl
@[simp] theorem markBankSwitch_cur (why : Cause) : (markBankSwitch why s).cur = s.cur := by cases why <;> simp only [markBankSwitch]; split <;> rfl
@[simp] theorem markBankSwitch_pc (why : Cause) : (markBankSwitch why s).pc = s.pc := by cases why <;> simp only [markBankSwitch]; split <;> rfl
@[simp] theorem markBankSwitch_flags (why : Cause) : (markBankSwitch why s).flags = s.flags := by cases why <;> simp only [markBankSwitch]; split <;> rfl
@[simp] theorem markBankSwitch_ctrl (why : Cause) : (markBankSwitch why s).ctrl = s.ctrl := by cases why <;> simp only [markBankSwitch]; split <;> rfl
@[simp] theorem markBankSwitch_mtxc (why : Cause) : (markBankSwitch why s).mtxc = s.mtxc := by cases why <;> simp only [markBankSwitch]; split <;> rfl
@[simp] theorem markBankSwitch_mtxa (why : Cause) : (markBankSwitch why s).mtxa = s.mtxa := by cases why <;> simp only [markBankSwitch]; split <;> rfl
@[simp] theorem markBankSwitch_endian (why : Cause) : (markBankSwitch why s).endian = s.endian := by cases why <;> simp only [markBankSwitch]; split <;> rfl
@[simp] theorem markBankSwitch_hiMod (why : Cause) : (markBankSwitch why s).hiMod = s.hiMod := by cases why <;> simp only [markBankSwitch]; split <;> rfl
@[simp] theorem markBankSwitch_divctrl (why : Cause) : (markBankSwitch why s).divctrl = s.divctrl := by cases why <;> simp only [markBankSwitch]; split <;> rfl
@[simp] theorem markBankSwitch_remainder (why : Cause) : (markBankSwitch why s).remainder = s.remainder := by cases why <;> simp only [markBankSwitch]; split <;> rfl
@[simp] theorem markBankSwitch_acc (why : Cause) : (markBankSwitch why s).acc = s.acc := by cases why <;> simp only [markBankSwitch]; split <;> rfl
@[simp] theorem markBankSwitch_ppc (why : Cause) : (markBankSwitch why s).ppc = s.ppc := by cases why <;> simp only [markBankSwitch]; split <;> rfl
@[simp] theorem markBankSwitch_lagNow (why : Cause) : (markBankSwitch why s).lagNow = s.lagNow := by cases why <;> simp only [markBankSwitch]; split <;> rfl
@[simp] theorem markBankSwitch_delay (why : Cause) : (markBankSwitch why s).delay = s.delay := by cases why <;> simp only [markBankSwitch]; split <;> rfl
@[simp] theorem markBankSwitch_cpuInts (why : Cause) : (markBankSwitch why s).cpuInts = s.cpuInts := by cases why <;> simp only [markBankSwitch]; split <;> rfl
@[simp] theorem markBankSwitch_mem (why : Cause) : (markBankSwitch why s).mem = s.mem := by cases why <;> simp only [markBankSwitch]; split <;> rfl
@[simp] theorem markBankSwitch_stored (why : Cause) : (markBankSwitch why s).stored = s.stored := by cases why <;> simp only [markBankSwitch]; split <;> rfl
@[simp] theorem markBankSwitch_cycles (why : Cause) : (markBankSwitch why s).cycles = s.cycles := by cases why <;> simp only [markBankSwitch]; split <;> rfl
@[simp] theorem markBankSwitch_agenda (why : Cause) : (markBankSwitch why s).agenda = s.agenda := by cases why <;> simp only [markBankSwitch]; split <;> rfl
@[simp] theorem updateBanks_cfg (why : Cause) : (updateBanks why s).cfg = s.cfg := by simp only [updateBanks]; split <;> simp
@[simp] theorem updateBanks_b0 (why : Cause) : (updateBanks why s).b0 = s.b0 := by simp only [updateBanks]; split <;> simp
@[simp] theorem updateBanks_b1 (why : Cause) : (updateBanks why s).b1 = s.b1 := by simp only [updateBanks]; split <;> simp
@[simp] theorem updateBanks_pc (why : Cause) : (updateBanks why s).pc = s.pc := by simp only [updateBanks]; split <;> simp
@[simp] theorem updateBanks_flags (why : Cause) : (updateBanks why s).flags = s.flags := by simp only [updateBanks]; split <;> simp
@[simp] theorem updateBanks_ctrl (why : Cause) : (updateBanks why s).ctrl = s.ctrl := by simp only [updateBanks]; split <;> simp
@[simp] theorem updateBanks_mtxc (why : Cause) : (updateBanks why s).mtxc = s.mtxc := by simp only [updateBanks]; split <;> simp
@[simp] theorem updateBanks_mtxa (why : Cause) : (updateBanks why s).mtxa = s.mtxa := by simp only [updateBanks]; split <;> simp
@[simp] theorem updateBanks_endian (why : Cause) : (updateBanks why s).endian = s.endian := by simp only [updateBanks]; split <;> simp
@[simp] theorem updateBanks_hiMod (why : Cause) : (updateBanks why s).hiMod = s.hiMod := by simp only [updateBanks]; split <;> simp
@[simp] theorem updateBanks_divctrl (why : Cause) : (updateBanks why s).divctrl = s.divctrl := by simp only [updateBanks]; split <;> simp
@[simp] theorem updateBanks_remainder (why : Cause) : (updateBanks why s).remainder = s.remainder := by simp only [updateBanks]; split <;> simp
@[simp] theorem updateBanks_acc (why : Cause) : (updateBanks why s).acc = s.acc := by simp only [updateBanks]; split <;> simp
@[simp] theorem updateBanks_ppc (why : Cause) : (updateBanks why s).ppc = s.ppc := by simp only [updateBanks]; split <;> simp
@[simp] theorem updateBanks_lagNow (why : Cause) : (updateBanks why s).lagNow = s.lagNow := by simp only [updateBanks]; split <;> simp
@[simp] theorem updateBanks_delay (why : Cause) : (updateBanks why s).delay = s.delay := by simp only [updateBanks]; split <;> simp
@[simp] theorem updateBanks_cpuInts (why : Cause) : (updateBanks why s).cpuInts = s.cpuInts := by simp only [updateBanks]; split <;> simp
@[simp] theorem updateBanks_mem (why : Cause) : (updateBanks why s).mem = s.mem := by simp only [updateBanks]; split <;> simp
@[simp] theorem updateBanks_stored (why : Cause) : (updateBanks why s).stored = s.stored := by simp only [updateBanks]; split <;> simp
@[simp] theorem updateBanks_cycles (why : Cause) : (updateBanks why s).cycles = s.cycles := by simp only [updateBanks]; split <;> simp
@[simp] theorem updateBanks_agenda (why : Cause) : (updateBanks why s).agenda = s.agenda := by simp only [updateBanks]; split <;> simp

end Sys2Proof.Machine
end

