-- ==== Sys2Proof/Laws/Memory.lean ====
section
/-! SUPPORT. Memory: a read after a write, and that every memory operation keeps the canonical form. -/

namespace Sys2Proof.Machine

theorem read_insert_same (m : List Host.Cell) (a : Nat) (b : Byte) (h : ∀ c ∈ m, c.1 ≠ a) :
    Memory.read (Memory.insert m a b) a = b := by
  induction m with
  | nil => simp [Memory.insert, Memory.read]
  | cons c m ih =>
    have hc := h c (by simp)
    by_cases hlt : a < c.1
    · simp [Memory.insert, Memory.read, hlt]
    · simp [Memory.insert, Memory.read, hlt, hc, ih fun d hd => h d (by simp [hd])]

theorem read_insert_ne (m : List Host.Cell) (a a' : Nat) (b : Byte) (h : a' ≠ a) :
    Memory.read (Memory.insert m a b) a' = Memory.read m a' := by
  induction m with
  | nil => simp [Memory.insert, Memory.read, Ne.symm h]
  | cons c m ih =>
    by_cases hlt : a < c.1
    · simp [Memory.insert, Memory.read, hlt, Ne.symm h]
    · simp [Memory.insert, Memory.read, hlt, ih]

theorem read_filter_same (m : List Host.Cell) (a : Nat) :
    Memory.read (m.filter fun c => c.1 != a) a = Memory.unwritten := by
  induction m with
  | nil => rfl
  | cons c m ih =>
    by_cases hc : c.1 = a
    · simpa [List.filter, hc] using ih
    · have : (c.1 != a) = true := by simpa using hc
      simpa [List.filter, this, Memory.read, hc] using ih

theorem read_filter_ne (m : List Host.Cell) (a a' : Nat) (h : a' ≠ a) :
    Memory.read (m.filter fun c => c.1 != a) a' = Memory.read m a' := by
  induction m with
  | nil => rfl
  | cons c m ih =>
    by_cases hc : c.1 = a
    · have : c.1 ≠ a' := by rw [hc]; exact Ne.symm h
      simpa [List.filter, hc, Memory.read, this, Ne.symm h] using ih
    · have : (c.1 != a) = true := by simpa using hc
      simp [List.filter, this, Memory.read, ih]

/-- A read after a write to the same address gives the byte written. -/
@[simp] theorem read_write_same (m : List Host.Cell) (a : Nat) (b : Byte) :
    Memory.read (Memory.write m a b) a = b := by
  unfold Memory.write
  split
  · next h => rw [read_filter_same, h]
  · exact read_insert_same _ _ _ fun c hc => by simpa using (List.mem_filter.mp hc).2

/-- A write leaves every other address alone. -/
theorem read_write_ne (m : List Host.Cell) (a a' : Nat) (b : Byte) (h : a' ≠ a) :
    Memory.read (Memory.write m a b) a' = Memory.read m a' := by
  unfold Memory.write
  split
  · exact read_filter_ne m a a' h
  · rw [read_insert_ne _ _ _ _ h, read_filter_ne m a a' h]

theorem wfFrom_mono {lo lo' : Nat} {m : List Host.Cell} (hle : lo' ≤ lo) (h : Memory.wfFrom lo m = true) :
    Memory.wfFrom lo' m = true := by
  cases m with
  | nil => rfl
  | cons c m =>
    simp only [Memory.wfFrom, Bool.and_eq_true, decide_eq_true_eq] at h ⊢
    exact ⟨⟨⟨le_trans hle h.1.1.1, h.1.1.2⟩, h.1.2⟩, h.2⟩

theorem wfFrom_filter {lo : Nat} {m : List Host.Cell} (p : Host.Cell → Bool) (h : Memory.wfFrom lo m = true) :
    Memory.wfFrom lo (m.filter p) = true := by
  induction m generalizing lo with
  | nil => rfl
  | cons c m ih =>
    simp only [Memory.wfFrom, Bool.and_eq_true, decide_eq_true_eq] at h
    by_cases hp : p c
    · simp only [List.filter, hp, Memory.wfFrom, Bool.and_eq_true, decide_eq_true_eq]
      exact ⟨h.1, ih h.2⟩
    · simp only [List.filter, hp]
      exact ih (wfFrom_mono (by omega) h.2)

theorem wfFrom_insert {lo : Nat} {m : List Host.Cell} {a : Nat} {b : Byte} (ha : a < 2 ^ 24) (hlo : lo ≤ a)
    (hb : b ≠ Memory.unwritten) (hne : ∀ c ∈ m, c.1 ≠ a) (h : Memory.wfFrom lo m = true) :
    Memory.wfFrom lo (Memory.insert m a b) = true := by
  induction m generalizing lo with
  | nil => simp [Memory.insert, Memory.wfFrom, hlo, hb]; omega
  | cons c m ih =>
    have hc := hne c (by simp)
    simp only [Memory.wfFrom, Bool.and_eq_true, decide_eq_true_eq] at h
    by_cases hlt : a < c.1
    · simp only [Memory.insert, hlt, if_true, Memory.wfFrom, Bool.and_eq_true, decide_eq_true_eq, bne_iff_ne]
      exact ⟨⟨⟨hlo, ha⟩, hb⟩, ⟨⟨hlt, h.1.1.2⟩, by simpa using h.1.2⟩, h.2⟩
    · simp only [Memory.insert, hlt, if_false, Memory.wfFrom, Bool.and_eq_true, decide_eq_true_eq]
      exact ⟨h.1, ih (by omega) (fun d hd => hne d (by simp [hd])) h.2⟩

/-- A write inside the address space keeps the canonical form. -/
theorem write_wf {m : List Host.Cell} {a : Nat} {b : Byte} (ha : a < 2 ^ 24) (h : Memory.wf m = true) :
    Memory.wf (Memory.write m a b) = true := by
  unfold Memory.write
  split
  · exact wfFrom_filter _ h
  · next hb =>
    exact wfFrom_insert ha (Nat.zero_le _) hb (fun c hc => by simpa using (List.mem_filter.mp hc).2)
      (wfFrom_filter _ h)

theorem writeAll_wf {m : List Host.Cell} {cells : List Host.Cell} (ha : ∀ c ∈ cells, c.1 < 2 ^ 24)
    (h : Memory.wf m = true) : Memory.wf (Memory.writeAll m cells) = true := by
  induction cells generalizing m with
  | nil => exact h
  | cons c cells ih =>
    exact ih (fun d hd => ha d (by simp [hd])) (write_wf (ha c (by simp)) h)

@[simp] theorem reset_mem_wf : Memory.wf State.reset.mem = true := rfl

/-- Below its first address a canonical memory reads as unwritten. -/
theorem read_of_lt {lo a : Nat} {m : List Host.Cell} (h : Memory.wfFrom lo m = true) (ha : a < lo) :
    Memory.read m a = Memory.unwritten := by
  induction m generalizing lo with
  | nil => rfl
  | cons c m ih =>
    simp only [Memory.wfFrom, Bool.and_eq_true, decide_eq_true_eq] at h
    rw [Memory.read, if_neg (by omega)]
    exact ih h.2 (by omega)

theorem mark_mem (l : List Nat) (a x : Nat) : x ∈ Memory.mark l a ↔ x = a ∨ x ∈ l := by
  induction l with
  | nil => simp [Memory.mark]
  | cons k l ih =>
    simp only [Memory.mark]
    split
    · simp
    · split
      · next h => subst h; simp
      · simp [ih]; tauto

theorem mark_rising {l : List Nat} (a : Nat) (h : l.Pairwise (· < ·)) : (Memory.mark l a).Pairwise (· < ·) := by
  induction l with
  | nil => simp [Memory.mark]
  | cons k l ih =>
    rw [List.pairwise_cons] at h
    simp only [Memory.mark]
    split
    · next hlt =>
      refine List.pairwise_cons.mpr ⟨fun x hx => ?_, List.pairwise_cons.mpr h⟩
      rcases List.mem_cons.mp hx with rfl | hx
      · exact hlt
      · exact lt_trans hlt (h.1 x hx)
    · split
      · exact List.pairwise_cons.mpr h
      · refine List.pairwise_cons.mpr ⟨fun x hx => ?_, ih h.2⟩
        rcases (mark_mem l a x).mp hx with rfl | hx
        · omega
        · exact h.1 x hx

end Sys2Proof.Machine
end

