-- ==== Sys2Proof/Laws/Regs.lean ====
section
/-! SUPPORT. Registers, flags and banks: what one update does to each read. -/

namespace Sys2Proof.Machine

variable (s : State)

/-! Registers. -/

theorem regIdx_inj {r r' : Reg} (h : (regIdx r : Nat) = regIdx r') : r = r' :=
  BitVec.eq_of_toNat_eq (by simpa [regIdx] using h)

/-- A register read after a register write. -/
theorem reg_setReg (b b' : Bank) (r r' : Reg) (v : Word) :
    (s.setReg b r v).reg b' r' = if b' = b ∧ r' = r then v else s.reg b' r' := by
  by_cases hr : r' = r
  · subst hr
    cases b <;> cases b' <;> simp [State.setReg, State.reg]
  · have : (regIdx r : Nat) ≠ regIdx r' := fun h => hr (regIdx_inj h).symm
    cases b <;> cases b' <;> simp [State.setReg, State.reg, hr, this]

@[simp] theorem reg_setReg_same (b : Bank) (r : Reg) (v : Word) : (s.setReg b r v).reg b r = v := by
  simp [reg_setReg]

@[simp] theorem other_ne (b : Bank) : b.other ≠ b := by cases b <;> decide

@[simp] theorem ne_other (b : Bank) : b ≠ b.other := by cases b <;> decide

@[simp] theorem x_setX_same (r : Reg) (v : Word) : (s.setX r v).x r = v := by simp [State.x, State.setX]

theorem x_setX_ne (r r' : Reg) (v : Word) (h : r' ≠ r) : (s.setX r v).x r' = s.x r' := by
  simp [State.x, State.setX, reg_setReg, h]

@[simp] theorem alt_setX (r r' : Reg) (v : Word) : (s.setX r v).alt r' = s.alt r' := by
  simp [State.alt, State.setX, reg_setReg]

@[simp] theorem alt_setAlt_same (r : Reg) (v : Word) : (s.setAlt r v).alt r = v := by
  simp [State.alt, State.setAlt]

@[simp] theorem x_setAlt (r r' : Reg) (v : Word) : (s.setAlt r v).x r' = s.x r' := by
  simp [State.x, State.setAlt, reg_setReg]

/-- Banks that are the same registers read the same. -/
theorem reg_congr {s t : State} (h0 : t.b0 = s.b0) (h1 : t.b1 = s.b1) (b : Bank) (r : Reg) : t.reg b r = s.reg b r := by
  cases b <;> simp [State.reg, h0, h1]

/-- `x[rd] <- v` writes that register alone. -/
theorem writesReg_setX (rd : Reg) (v : Word) : WritesReg s (s.setX rd v) rd v :=
  ⟨by simp [State.setX], fun b r h => by simp [State.setX, reg_setReg, h]⟩

/-- A register write followed by updates that touch no bank. -/
theorem WritesReg.congr {s t t' : State} {rd : Reg} {v : Word} (h : WritesReg s t rd v) (h0 : t'.b0 = t.b0)
    (h1 : t'.b1 = t.b1) : WritesReg s t' rd v :=
  ⟨(reg_congr h0 h1 _ _).trans h.1, fun b r hr => (reg_congr h0 h1 _ _).trans (h.2 b r hr)⟩

/-! Flags. -/

theorem getLsbD_putBit (w : Word) (i j : Nat) (b : Bool) (hi : i < 32) :
    (putBit w i b).getLsbD j = if j = i then b else w.getLsbD j := by
  unfold putBit
  by_cases hj : j = i
  · subst hj
    cases b <;> simp [hi]
  · have hij : ¬ i = j := fun h => hj h.symm
    cases b
    · by_cases h32 : j < 32
      · simp [hj, h32]
      · simp [hj, BitVec.getLsbD_of_ge w j (by omega)]
    · simp [BitVec.getLsbD_twoPow, hj, hij]

/-- The bits of a flags word with `Z`, `C`, `N` replaced. -/
theorem getLsbD_putZCN (w : Word) (z c n : Bool) (j : Nat) :
    (putZCN w z c n).getLsbD j = if j = 0 then z else if j = 1 then c else if j = 2 then n else w.getLsbD j := by
  simp only [putZCN, getLsbD_putBit _ _ _ _ (by decide : 2 < 32), getLsbD_putBit _ _ _ _ (by decide : 1 < 32),
    getLsbD_putBit _ _ _ _ (by decide : 0 < 32)]
  split <;> split <;> simp_all

/-- `setZNC` replaces `Z`, `C`, `N` and nothing else of `FLAGS`. -/
theorem flagsBecome_setZNC (r : Word) (c : Bool) : FlagsBecome s (s.setZNC r c) (r == 0#32) c (r.getLsbD 31) := by
  refine ⟨?_, ?_, ?_, fun i hi => ?_⟩ <;>
    simp only [State.z, State.c, State.n, State.setZNC, getLsbD_putZCN] <;> (try simp)
  · simp [show i ≠ 0 by omega, show i ≠ 1 by omega, show i ≠ 2 by omega]

/-- `setZN` replaces `Z`, `N` and nothing else of `FLAGS`. -/
theorem flagsBecome_setZN (r : Word) : FlagsBecome s (s.setZN r) (r == 0#32) s.c (r.getLsbD 31) := by
  refine ⟨?_, ?_, ?_, fun i hi => ?_⟩ <;>
    simp only [State.z, State.c, State.n, State.setZN, getLsbD_putBit _ _ _ _ (by decide : 2 < 32),
      getLsbD_putBit _ _ _ _ (by decide : 0 < 32)] <;> (try simp)
  · simp [show i ≠ 0 by omega, show i ≠ 2 by omega]

theorem FlagsBecome.congr {s s' t t' : State} {z c n : Bool} (h : FlagsBecome s t z c n) (hs : s'.flags = s.flags)
    (ht : t'.flags = t.flags) : FlagsBecome s' t' z c n := by
  simpa only [FlagsBecome, State.z, State.c, State.n, hs, ht] using h

/-- Bit 31 of a word, as a comparison of its number. -/
theorem getLsbD_31 (r : Word) : r.getLsbD 31 = decide (2 ^ 31 ≤ r.toNat) := by
  have h := BitVec.msb_eq_decide r
  rw [BitVec.msb_eq_getLsbD_last] at h
  simpa using h

theorem beq_zero (r : Word) : (r == 0#32) = decide (r.toNat = 0) := by
  have : (r = 0#32) ↔ r.toNat = 0 := ⟨fun h => by simp [h], fun h => BitVec.eq_of_toNat_eq (by simpa using h)⟩
  simp [beq_eq_decide, this]

theorem i_setI (b : Bool) : (s.setI b).i = b := by
  show (putBit s.flags 3 b).getLsbD 3 = b
  rw [getLsbD_putBit _ _ _ _ (by decide), if_pos rfl]

/-! Banks. -/

/-- `update_register_banks` leaves the bank the flags require active (R24). -/
@[simp] theorem updateBanks_cur (why : Cause) : (updateBanks why s).cur = s.required := by
  unfold updateBanks
  split
  · next h => exact h.symm
  · simp

@[simp] theorem required_updateBanks (why : Cause) : (updateBanks why s).required = s.required := by
  simp [State.required, State.i, State.rpage]

@[simp] theorem reg_updateBanks (why : Cause) (b : Bank) (r : Reg) : (updateBanks why s).reg b r = s.reg b r :=
  reg_congr (by simp) (by simp) b r

/-- While `I` is set the required bank is 0. -/
theorem required_of_i (h : s.i = true) : s.required = .b0 := by simp [State.required, h]

/-- A change that leaves `I` and `RPAGE` leaves the required bank. -/
theorem required_congr {s t : State} (h3 : t.flags.getLsbD 3 = s.flags.getLsbD 3)
    (h14 : t.flags.getLsbD 14 = s.flags.getLsbD 14) : t.required = s.required := by
  have hi : t.i = s.i := h3
  have hr : t.rpage = s.rpage := h14
  rw [State.required, State.required, hi, hr]

end Sys2Proof.Machine
end

