-- ==== Sys2Proof/Laws/Ops.lean ====
section
/-! SUPPORT. What each shared operation can do, said once: sequencing, addresses, reads, writes, the primitive moves of
the control port and of the interrupt entry, and why two levels of recheck are all there are. -/

namespace Sys2Proof.Machine

/-! Sequencing. -/

@[simp] theorem andThen_next (s : State) (f : State → Res) : andThen (.next s) f = f s := rfl

@[simp] theorem andThen_refused (r : Refusal) (f : State → Res) : andThen (.refused r) f = .refused r := rfl

@[simp] theorem andThen_fault (r : Fault) (f : State → Res) : andThen (.fault r) f = .fault r := rfl

@[simp] theorem withValue_ok {α : Type} (v : α) (f : α → Res) : withValue (.ok v) f = f v := rfl

@[simp] theorem withValue_error {α : Type} (r : Refusal) (f : α → Res) : withValue (.error r) f = .refused r := rfl

theorem andThen_eq_next {o : Res} {f : State → Res} {t : State} :
    andThen o f = .next t ↔ ∃ u, o = .next u ∧ f u = .next t := by
  cases o <;> simp [andThen]

/-- Two continuations that agree on what a result gives. -/
theorem andThen_congr {o : Res} {f g : State → Res} (h : ∀ t, o = .next t → f t = g t) : andThen o f = andThen o g := by
  cases o with
  | next t => exact h t rfl
  | _ => rfl

theorem withValue_eq_next {α : Type} {e : Except Refusal α} {f : α → Res} {t : State} :
    withValue e f = .next t ↔ ∃ v, e = .ok v ∧ f v = .next t := by
  cases e <;> simp [withValue]

/-! Addresses. -/

theorem busAddr_lt (a : Word) (k : Nat) : busAddr a k < 2 ^ 24 := Nat.mod_lt _ (by decide)

/-- Two of the bytes of a long access lie at different addresses. -/
theorem busAddr_ne (a : Word) {k k' : Nat} (hk : k < 4) (hk' : k' < 4) (h : k ≠ k') : busAddr a k ≠ busAddr a k' := by
  simp only [busAddr, busSize]; omega

/-- Bits 31:24 of an address are dropped (R71). -/
theorem busAddr_congr {a b : Word} (h : a.toNat % 2 ^ 24 = b.toNat % 2 ^ 24) (k : Nat) : busAddr a k = busAddr b k := by
  simp only [busAddr, busSize]; omega

/-- A long access at a multiple of 4 does not wrap. -/
theorem busAddr_aligned {a : Word} (h : misaligned a 4 = false) {k : Nat} (hk : k < 4) :
    busAddr a k = busAddr a 0 + k := by
  simp only [misaligned, bne_eq_false_iff_eq] at h
  simp only [busAddr, busSize]; omega

/-! Memory reads after core writes. -/

@[simp] theorem byteAt_setReg (s : State) (b : Bank) (r : Reg) (v : Word) (a : Nat) :
    (s.setReg b r v).byteAt a = s.byteAt a := by simp [State.byteAt]

theorem byteAt_congr {s t : State} (h : t.mem = s.mem) (a : Nat) : t.byteAt a = s.byteAt a := by simp [State.byteAt, h]

/-- A read after several byte writes that miss it. -/
theorem read_writeAll_ne (m : List Host.Cell) (cells : List Host.Cell) (a : Nat) (h : ∀ c ∈ cells, c.1 ≠ a) :
    Memory.read (Memory.writeAll m cells) a = Memory.read m a := by
  induction cells generalizing m with
  | nil => rfl
  | cons c cs ih =>
    simp only [Memory.writeAll, List.foldl_cons] at ih ⊢
    rw [ih _ fun x hx => h x (List.mem_cons_of_mem _ hx)]
    exact read_write_ne _ _ _ _ fun he => h c List.mem_cons_self he.symm

/-- A long write leaves every byte outside the access. -/
theorem byteAt_poke_long_ne (s : State) (a v : Word) (b : Nat) (h : ¬ InAccess a 4 b) :
    (s.poke (longCells a v)).byteAt b = s.byteAt b := by
  refine read_writeAll_ne _ _ _ fun c hc he => h ?_
  simp only [longCells, List.mem_cons, List.not_mem_nil, or_false] at hc
  rcases hc with rfl | rfl | rfl | rfl
  · exact ⟨0, by decide, he.symm⟩
  · exact ⟨1, by decide, he.symm⟩
  · exact ⟨2, by decide, he.symm⟩
  · exact ⟨3, by decide, he.symm⟩

/-- A word write leaves every byte outside the access. -/
theorem byteAt_poke_half_ne (s : State) (a : Word) (v : Half) (b : Nat) (h : ¬ InAccess a 2 b) :
    (s.poke (halfCells a v)).byteAt b = s.byteAt b := by
  refine read_writeAll_ne _ _ _ fun c hc he => h ?_
  simp only [halfCells, List.mem_cons, List.not_mem_nil, or_false] at hc
  rcases hc with rfl | rfl
  · exact ⟨0, by decide, he.symm⟩
  · exact ⟨1, by decide, he.symm⟩

/-- The bytes of a long write, most significant at the lowest address (R73). -/
theorem byteAt_poke_long (s : State) (a v : Word) {k : Nat} (hk : k < 4) :
    (s.poke (longCells a v)).byteAt (busAddr a k) = v.extractLsb' (8 * (3 - k)) 8 := by
  have h01 := busAddr_ne a (k := 0) (k' := 1) (by decide) (by decide) (by decide)
  have h02 := busAddr_ne a (k := 0) (k' := 2) (by decide) (by decide) (by decide)
  have h03 := busAddr_ne a (k := 0) (k' := 3) (by decide) (by decide) (by decide)
  have h12 := busAddr_ne a (k := 1) (k' := 2) (by decide) (by decide) (by decide)
  have h13 := busAddr_ne a (k := 1) (k' := 3) (by decide) (by decide) (by decide)
  have h23 := busAddr_ne a (k := 2) (k' := 3) (by decide) (by decide) (by decide)
  simp only [State.byteAt, State.poke, Memory.writeAll, longCells, List.foldl_cons, List.foldl_nil]
  match k, hk with
  | 0, _ => rw [read_write_ne _ _ _ _ h03, read_write_ne _ _ _ _ h02, read_write_ne _ _ _ _ h01, read_write_same]
  | 1, _ => rw [read_write_ne _ _ _ _ h13, read_write_ne _ _ _ _ h12, read_write_same]
  | 2, _ => rw [read_write_ne _ _ _ _ h23, read_write_same]
  | 3, _ => rw [read_write_same]

/-- A long read after a long write at the same address gives the value written. -/
theorem memLong_poke (s : State) (a v : Word) : (s.poke (longCells a v)).memLong a = v := by
  simp only [State.memLong, byteAt_poke_long s a v (by decide : 0 < 4), byteAt_poke_long s a v (by decide : 1 < 4),
    byteAt_poke_long s a v (by decide : 2 < 4), byteAt_poke_long s a v (by decide : 3 < 4)]
  apply BitVec.eq_of_getLsbD_eq
  intro i hi
  simp only [BitVec.getLsbD_append, BitVec.getLsbD_extractLsb']
  by_cases h1 : i < 8
  · simp [h1]
  by_cases h2 : i - 8 < 8
  · simp [h1, h2, show 8 + (i - 8) = i by omega]
  by_cases h3 : i - 8 - 8 < 8
  · simp [h1, h2, h3, show 16 + (i - 8 - 8) = i by omega]
  · simp [h1, h2, h3, show i - 8 - 8 - 8 < 8 by omega, show 24 + (i - 8 - 8 - 8) = i by omega]

theorem poke_mem_wf {s : State} {cells : List Host.Cell} (hc : ∀ c ∈ cells, c.1 < 2 ^ 24)
    (h : Memory.wf s.mem = true) : Memory.wf (s.poke cells).mem = true := writeAll_wf hc h

theorem longCells_lt (a v : Word) : ∀ c ∈ longCells a v, c.1 < 2 ^ 24 := by
  intro c hc
  simp only [longCells, List.mem_cons, List.not_mem_nil, or_false] at hc
  rcases hc with rfl | rfl | rfl | rfl <;> exact busAddr_lt _ _

theorem halfCells_lt (a : Word) (v : Half) : ∀ c ∈ halfCells a v, c.1 < 2 ^ 24 := by
  intro c hc
  simp only [halfCells, List.mem_cons, List.not_mem_nil, or_false] at hc
  rcases hc with rfl | rfl <;> exact busAddr_lt _ _

/-! Port operations, by cases. -/

theorem readLong_eq_ok {s : State} {a v : Word} : s.readLong a = .ok v ↔ misaligned a 4 = false ∧ v = s.longAt a := by
  unfold State.readLong
  split
  · next h => simp [h]
  · next h => simp [h, eq_comm]

theorem readLong_aligned {s : State} {a : Word} (h : misaligned a 4 = false) : s.readLong a = .ok (s.longAt a) := by
  simp [State.readLong, h]

theorem readHalf_eq_ok {s : State} {a : Word} {v : Half} :
    s.readHalf a = .ok v ↔ misaligned a 2 = false ∧ s.touchesCtrl a 2 = false ∧ v = s.memHalf a := by
  unfold State.readHalf
  split
  · next h => simp [h]
  · next h =>
    split
    · next h' => simp [h']
    · next h' => simp [h, h', eq_comm]

theorem fetchWord_even {s : State} {a : Word} (h : a.getLsbD 0 = false) (hc : s.cfg.fetchCoherent = true) :
    s.fetchWord a = .ok (s.memHalf a) := by
  unfold State.fetchWord
  rw [h, hc]
  rfl

/-- A long write to memory. -/
theorem writeLongWith_mem {recheck : State → Res} {why : Cause} {a v : Word} {s : State} (h : misaligned a 4 = false)
    (hk : s.ctrlIndex a = none) : writeLongWith recheck why a v s = .next (s.poke (longCells a v)) := by
  simp [writeLongWith, h, hk]

/-- A long write to the control port. -/
theorem writeLongWith_ctrl {recheck : State → Res} {why : Cause} {a v : Word} {s : State} {k : Nat}
    (h : misaligned a 4 = false) (hk : s.ctrlIndex a = some k) :
    writeLongWith recheck why a v s = ctrlWriteWith recheck why k v 0xFFFFFFFF#32 s := by
  simp [writeLongWith, h, hk]

theorem ctrlIndex_eq_some {s : State} {a : Word} {k : Nat} (h : s.ctrlIndex a = some k) :
    s.cfg.ctrlMapped = true ∧ busAddr a 0 = s.cfg.ctrlBase + 4 * k ∧ k < s.cfg.nctrl := by
  simp only [State.ctrlIndex] at h
  split at h
  · next hc =>
    simp only [Bool.and_eq_true, decide_eq_true_eq] at hc
    obtain ⟨⟨⟨hm, hb⟩, h4⟩, hn⟩ := hc
    injection h with h
    exact ⟨hm, by omega, by omega⟩
  · cases h

theorem ctrlIndex_congr {s t : State} (h : t.cfg = s.cfg) (a : Word) : t.ctrlIndex a = s.ctrlIndex a := by
  simp only [State.ctrlIndex, h]

/-! Two levels of recheck are all there are. -/

/-- Only writes of `FLAGS` and of `CTRL` recheck. -/
theorem ctrlWriteWith_plain {r r' : State → Res} {why : Cause} {off : Nat} (h0 : off ≠ 0) (h5 : off ≠ 5)
    (v mask : Word) (s : State) : ctrlWriteWith r why off v mask s = ctrlWriteWith r' why off v mask s := by
  unfold ctrlWriteWith
  split
  · split <;> first | rfl | contradiction
  · rfl

theorem winner_of_i {s : State} (h : s.i = true) : s.winner = none := by simp [State.winner, h]

theorem checkIrqsAt_of_winner_none {n : Nat} {why : Cause} {s : State} (h : s.winner = none) :
    checkIrqsAt n why s = .next s := by
  cases n
  · rfl
  · simp [checkIrqsAt, h]

/-- With `I` set a check takes nothing (R327). -/
theorem checkIrqsAt_of_i {n : Nat} {why : Cause} {s : State} (h : s.i = true) : checkIrqsAt n why s = .next s :=
  checkIrqsAt_of_winner_none (winner_of_i h)

theorem i_congr {s t : State} (h : t.flags = s.flags) : t.i = s.i := by simp [State.i, h]

/-- The state of an entry just before its push. -/
theorem takeInterrupt_congr {p p' : Word → Word → State → Res} {why : Cause} {k : Nat} {s : State}
    (h : ∀ v u, u.i = true → u.cfg = s.cfg → u.reg .b0 31#5 = s.reg .b0 31#5 - 4#32 →
      p (s.reg .b0 31#5 - 4#32) v u = p' (s.reg .b0 31#5 - 4#32) v u) :
    takeInterrupt p why k s = takeInterrupt p' why k s := by
  have hr : (updateBanks why (s.setI true)).reg .b0 31#5 = s.reg .b0 31#5 := by
    rw [reg_updateBanks]; exact reg_congr rfl rfl _ _
  simp only [takeInterrupt, hr]
  rw [h _ _ (by rw [i_congr (setReg_flags _ _ _ _), i_congr (updateBanks_flags _ _), i_setI]) (by simp [State.setI])
    (by simp)]

/-- A write below `FLAGS` rechecks nothing. -/
theorem writeLongWith_below {r r' : State → Res} {why : Cause} {a v : Word} {s : State}
    (h : s.ctrlIndex a = some 0) {u : State} (hu : u.cfg = s.cfg) :
    writeLongWith r why (a - 4#32) v u = writeLongWith r' why (a - 4#32) v u := by
  unfold writeLongWith
  split
  · rfl
  · split
    · next k hk =>
      obtain ⟨_, h1, _⟩ := ctrlIndex_eq_some h
      rw [ctrlIndex_congr hu] at hk
      obtain ⟨_, h2, _⟩ := ctrlIndex_eq_some hk
      have hs : (a - 4#32).toNat % 2 ^ 24 = (a.toNat + (2 ^ 24 - 4)) % 2 ^ 24 := by
        simp only [BitVec.toNat_sub, BitVec.toNat_ofNat]; omega
      simp only [busAddr, busSize, Nat.add_zero] at h1 h2
      exact ctrlWriteWith_plain (by omega) (by omega) _ _ _
    · rfl

/-- A recheck inside the push of an entry takes at most one level more: deeper ones are the same. -/
theorem checkIrqsAt_two (n : Nat) (why : Cause) (s : State) : checkIrqsAt (n + 2) why s = checkIrqsAt 2 why s := by
  rw [checkIrqsAt, checkIrqsAt]
  split
  · rfl
  · next k _ =>
    refine takeInterrupt_congr fun v u hi hc hr => ?_
    unfold writeLongWith
    split
    · rfl
    · split
      · next j hj =>
        by_cases h0 : j = 0
        · subst h0
          simp only [ctrlWriteWith]
          split
          · simp only [writeFlags]
            generalize hw : updateBanks why (u.storeFlags _) = w
            have hwc : w.cfg = u.cfg := by rw [← hw, updateBanks_cfg]; rfl
            have hwr : w.reg .b0 31#5 = s.reg .b0 31#5 - 4#32 := by
              rw [← hw, reg_updateBanks, ← hr]; exact reg_congr rfl rfl _ _
            simp only [checkIrqsAt]
            split
            · rfl
            · refine takeInterrupt_congr fun v' u' _ hc' _ => ?_
              rw [hwr]
              exact writeLongWith_below hj (hc'.trans hwc)
          · rfl
        · by_cases h5 : j = 5
          · subst h5
            simp only [ctrlWriteWith, writeCtrl]
            split
            · split
              · generalize hw : (u.storeCtrl _).setLatch 0 true = w
                have hwi : w.i = true := by rw [← hw, ← hi]; rfl
                rw [checkIrqsAt_of_i hwi, checkIrqsAt_of_i hwi]
              · rfl
            · rfl
          · exact ctrlWriteWith_plain h0 h5 _ _ _
      · rfl

/-- What an entry leaves, by its push: the state `u` it pushes from has `I` set and the stack pointer moved (R327 to
R330). -/
theorem takeInterrupt_eq_next {push : Word → Word → State → Res} {why : Cause} {k : Nat} {s t : State}
    (h : takeInterrupt push why k s = .next t) :
    ∃ u t' pc, u.i = true ∧ u.cfg = s.cfg ∧ u.reg .b0 31#5 = s.reg .b0 31#5 - 4#32 ∧
      push (u.reg .b0 31#5) (u.pc - 2#32) u = .next t' ∧ t = { t' with pc := pc } := by
  obtain ⟨t', h1, h2⟩ := andThen_eq_next.1 h
  cases h2
  have hr : (updateBanks why (s.setI true)).reg .b0 31#5 = s.reg .b0 31#5 := by
    rw [reg_updateBanks]; exact reg_congr rfl rfl _ _
  refine ⟨(updateBanks why (s.setI true)).setReg .b0 31#5 ((updateBanks why (s.setI true)).reg .b0 31#5 - 4#32), t', _,
    ?_, by simp [State.setI], by rw [reg_setReg_same, hr], ?_, rfl⟩
  · rw [i_congr (setReg_flags _ _ _ _), i_congr (updateBanks_flags _ _), i_setI]
  · rw [reg_setReg_same]; exact h1

/-- With `I` set, a long write that does not reach `FLAGS` leaves `I` set. -/
theorem writeLongWith_keeps_i {n : Nat} {why : Cause} {a v : Word} {u t : State} (hi : u.i = true)
    (h0 : u.ctrlIndex a ≠ some 0) (h : writeLongWith (checkIrqsAt n why) why a v u = .next t) : t.i = true := by
  unfold writeLongWith at h
  split at h
  · cases h
  · split at h
    · next k hk =>
      simp only [ctrlWriteWith] at h
      split at h
      · split at h
        case h_1 => exact absurd hk h0
        case h_6 =>
          simp only [writeCtrl] at h
          split at h
          · rw [checkIrqsAt_of_i (by exact hi)] at h; cases h; exact hi
          · cases h; exact hi
        all_goals (cases h; exact hi)
      · cases h; exact hi
    · cases h; exact hi

/-- The long below `FLAGS` is not `FLAGS`. -/
theorem ctrlIndex_below {s u : State} {a : Word} (h : s.ctrlIndex a = some 0) (hu : u.cfg = s.cfg) :
    u.ctrlIndex (a - 4#32) ≠ some 0 := by
  intro hk
  obtain ⟨_, h1, _⟩ := ctrlIndex_eq_some h
  rw [ctrlIndex_congr hu] at hk
  obtain ⟨_, h2, _⟩ := ctrlIndex_eq_some hk
  have hs : (a - 4#32).toNat % 2 ^ 24 = (a.toNat + (2 ^ 24 - 4)) % 2 ^ 24 := by
    simp only [BitVec.toNat_sub, BitVec.toNat_ofNat]; omega
  simp only [busAddr, busSize, Nat.add_zero] at h1 h2
  omega

/-- A check leaves no level to be taken (R327): what its own push may have uncovered is taken in it. -/
theorem checkIrqs_settled {why : Cause} {s t : State} (h : checkIrqs why s = .next t) : t.winner = none := by
  rw [checkIrqs, checkIrqsAt] at h
  split at h
  · next hw => cases h; exact hw
  · obtain ⟨u, t', pc, hi, -, hr, hp, rfl⟩ := takeInterrupt_eq_next h
    show t'.winner = none
    by_cases h0 : u.ctrlIndex (u.reg .b0 31#5) = some 0
    · unfold writeLongWith at hp
      split at hp
      · cases hp
      · rw [h0] at hp
        simp only [ctrlWriteWith, if_pos (ctrlIndex_eq_some h0).2.2, writeFlags] at hp
        generalize hw : updateBanks why (u.storeFlags _) = w at hp
        rw [checkIrqsAt] at hp
        split at hp
        · next hn => cases hp; exact hn
        · obtain ⟨u', t'', pc', hi', hc', hr', hp', rfl⟩ := takeInterrupt_eq_next hp
          have hwc : w.cfg = u.cfg := by rw [← hw, updateBanks_cfg]; rfl
          have hwr : w.reg .b0 31#5 = u.reg .b0 31#5 := by rw [← hw, reg_updateBanks]; exact reg_congr rfl rfl _ _
          refine winner_of_i (s := { t'' with pc := pc' }) ?_
          show t''.i = true
          refine writeLongWith_keeps_i hi' ?_ hp'
          rw [hr', hwr]
          exact ctrlIndex_below h0 (hc'.trans hwc)
    · exact winner_of_i (writeLongWith_keeps_i hi h0 hp)

/-! The primitive moves of the control port and of an interrupt entry. -/

/-- Everything a long write of the core, a control-port write or an interrupt check is made of. -/
inductive PortMove (why : Cause) : State → State → Prop where
  | poke (s : State) (a v : Word) : PortMove why s (s.poke (longCells a v))
  | mtxc (s : State) (v : Word) : PortMove why s { s with mtxc := v }
  | mtxa (s : State) (v : Word) : PortMove why s { s with mtxa := v }
  | endian (s : State) (v : Word) : PortMove why s { s with endian := v }
  | hiMod (s : State) (v : Word) : PortMove why s { s with hiMod := v }
  | divctrl (s : State) (v : Word) : PortMove why s { s with divctrl := v }
  | pc (s : State) (v : Word) : PortMove why s { s with pc := v }
  | flags (s : State) (new : Word) : PortMove why s
      (updateBanks why (s.storeFlags new))
  | ctrl (s : State) (new : Word) : PortMove why s (s.storeCtrl new)
  | latch (s : State) (k : Nat) (b : Bool) : PortMove why s (s.setLatch k b)
  | enter (s : State) : PortMove why s (updateBanks why (s.setI true))
  | sp (s : State) (v : Word) : PortMove why s (s.setReg .b0 31#5 v)

/-- Any number of primitive moves. -/
abbrev PortMoves (why : Cause) : State → State → Prop := Relation.ReflTransGen (PortMove why)

theorem ctrlWriteWith_moves {recheck : State → Res} {why : Cause}
    (hr : ∀ s t, recheck s = .next t → PortMoves why s t) {off : Nat} {v mask : Word} {s t : State}
    (h : ctrlWriteWith recheck why off v mask s = .next t) : PortMoves why s t := by
  simp only [ctrlWriteWith] at h
  split at h
  · split at h
    · exact .head (.flags _ _) (hr _ _ h)
    · cases h; exact .single (.mtxc _ _)
    · cases h; exact .single (.mtxa _ _)
    · cases h; exact .single (.endian _ _)
    · cases h; exact .single (.pc _ _)
    · simp only [writeCtrl] at h
      split at h
      · exact ((Relation.ReflTransGen.single (.ctrl _ _)).tail (.latch _ _ _)).trans (hr _ _ h)
      · cases h; exact .single (.ctrl _ _)
    · cases h; exact .single (.hiMod _ _)
    · cases h; exact .single (.divctrl _ _)
    · cases h; exact .refl
  · cases h; exact .refl

theorem writeLongWith_moves {recheck : State → Res} {why : Cause}
    (hr : ∀ s t, recheck s = .next t → PortMoves why s t) {a v : Word} {s t : State}
    (h : writeLongWith recheck why a v s = .next t) : PortMoves why s t := by
  unfold writeLongWith at h
  split at h
  · cases h
  · split at h
    · exact ctrlWriteWith_moves hr h
    · cases h; exact .single (.poke _ _ _)

theorem takeInterrupt_moves {push : Word → Word → State → Res} {why : Cause}
    (hp : ∀ a v s t, push a v s = .next t → PortMoves why s t) {k : Nat} {s t : State}
    (h : takeInterrupt push why k s = .next t) : PortMoves why s t := by
  simp only [takeInterrupt] at h
  obtain ⟨u, hu, ht⟩ := andThen_eq_next.1 h
  cases ht
  exact (((Relation.ReflTransGen.single (.enter _)).tail (.sp _ _)).trans (hp _ _ _ _ hu)).tail (.pc _ _)

theorem checkIrqsAt_moves (n : Nat) {why : Cause} {s t : State} (h : checkIrqsAt n why s = .next t) :
    PortMoves why s t := by
  induction n generalizing s t with
  | zero => cases h; exact .refl
  | succ n ih =>
    simp only [checkIrqsAt] at h
    split at h
    · cases h; exact .refl
    · exact takeInterrupt_moves (fun _ _ _ _ h' => writeLongWith_moves (fun _ _ => ih) h') h

theorem checkIrqs_moves {why : Cause} {s t : State} (h : checkIrqs why s = .next t) : PortMoves why s t :=
  checkIrqsAt_moves 2 h

theorem ctrlWrite_moves {why : Cause} {off : Nat} {v mask : Word} {s t : State}
    (h : ctrlWrite why off v mask s = .next t) : PortMoves why s t :=
  ctrlWriteWith_moves (fun _ _ => checkIrqs_moves) h

/-- A long write of the core makes primitive moves only. -/
theorem writeLong_moves {a v : Word} {s t : State} (h : writeLong a v s = .next t) : PortMoves .inStep s t :=
  writeLongWith_moves (fun _ _ => checkIrqs_moves) h

end Sys2Proof.Machine
end

