-- ==== Sys2Proof/Laws/Effects.lean ====
section
/-! SUPPORT. The effect of each way a meaning ends, in the terms of Safety.lean: the statements about an instruction cite
these and unfold nothing below them. -/

namespace Sys2Proof.Machine

variable (s : State)

theorem keepsSpecial_refl : KeepsSpecial s s := ⟨rfl, rfl, rfl, rfl, rfl, rfl, rfl, rfl, rfl, rfl, rfl, rfl, rfl, rfl, rfl, rfl, rfl⟩

theorem keepsMem_of {s t : State} (hm : t.mem = s.mem) (hs : t.stored = s.stored) : KeepsMem s t :=
  ⟨fun a => byteAt_congr hm a, hs⟩

theorem keepsRegs_of {s t : State} (h0 : t.b0 = s.b0) (h1 : t.b1 = s.b1) : KeepsRegs s t := fun b r => reg_congr h0 h1 b r

/-- A register write and any new `FLAGS`. -/
theorem onlyWrites_setX (rd : Reg) (v w : Word) : OnlyWrites s { s.setX rd v with flags := w } rd v :=
  ⟨(writesReg_setX s rd v).congr rfl rfl, by simp, by simp [KeepsSpecial], keepsMem_of (by simp) (by simp)⟩

/-- A register write alone. -/
theorem writesQuietly_setX (rd : Reg) (v : Word) : WritesQuietly s (s.setX rd v) rd v :=
  ⟨⟨writesReg_setX s rd v, by simp, by simp [KeepsSpecial], keepsMem_of (by simp) (by simp)⟩, by simp⟩

/-- The flags of a result as comparisons of its number. -/
theorem flagsBecome_result {s t : State} {v : Word} {c : Bool} (h : FlagsBecome s t (v == 0#32) c (v.getLsbD 31)) :
    FlagsBecome s t (decide (v.toNat = 0)) c (decide (2 ^ 31 ≤ v.toNat)) := by
  rw [← beq_zero, ← getLsbD_31]; exact h

theorem finishQuiet_writes (rd : Reg) (v : Word) : ∃ t, finishQuiet rd v s = .next t ∧ WritesQuietly s t rd v :=
  ⟨_, rfl, writesQuietly_setX s rd v⟩

theorem finishZN_writes (rd : Reg) (v : Word) : ∃ t, finishZN rd v s = .next t ∧ WritesZN s t rd v := by
  have hc : (s.setX rd v).c = s.c := by simp [State.c]
  have h := (flagsBecome_setZN (s.setX rd v) v).congr (s' := s) (setX_flags s rd v).symm rfl
  exact ⟨_, rfl, onlyWrites_setX s rd v _, flagsBecome_result (hc ▸ h)⟩

theorem finishZNC_writes (rd : Reg) (rc : Word × Bool) :
    ∃ t, finishZNC rd rc s = .next t ∧ WritesZNC s t rd rc.1 rc.2 :=
  ⟨_, rfl, onlyWrites_setX s rd rc.1 _, flagsBecome_result ((flagsBecome_setZNC (s.setX rd rc.1) rc.1 rc.2).congr (by simp) rfl)⟩

theorem compareZNC_flags (rc : Word × Bool) :
    ∃ t, compareZNC rc s = .next t ∧ OnlyFlags s t (rc.1 == 0#32) rc.2 (rc.1.getLsbD 31) :=
  ⟨_, rfl, keepsRegs_of rfl rfl, rfl, by simp [KeepsSpecial, State.setZNC], keepsMem_of rfl rfl,
    flagsBecome_setZNC s rc.1 rc.2⟩

end Sys2Proof.Machine
end

