-- ==== Sys2Proof/Laws/Frames.lean ====
section
/-! SUPPORT. Frames of whole families: what no instruction but a store can change, what a store's port moves keep, and that
both keep the invariant. -/

namespace Sys2Proof.Machine

/-- Nothing but general registers, `Z`, `C`, `N` and `PC` differs. -/
structure Calm (s t : State) : Prop where
  special : KeepsSpecial s t
  mem     : t.mem = s.mem
  stored  : t.stored = s.stored
  flags   : ∀ b, 3 ≤ b → t.flags.getLsbD b = s.flags.getLsbD b

theorem Calm.refl (s : State) : Calm s s := ⟨keepsSpecial_refl s, rfl, rfl, fun _ _ => rfl⟩

theorem KeepsSpecial.trans {s t u : State} (h : KeepsSpecial s t) (k : KeepsSpecial t u) : KeepsSpecial s u := by
  simp only [KeepsSpecial] at *
  simp_all

theorem Calm.trans {s t u : State} (h : Calm s t) (k : Calm t u) : Calm s u :=
  ⟨h.special.trans k.special, k.mem.trans h.mem, k.stored.trans h.stored,
    fun b hb => (k.flags b hb).trans (h.flags b hb)⟩

theorem calm_setReg (s : State) (b : Bank) (r : Reg) (v : Word) : Calm s (s.setReg b r v) :=
  ⟨by simp [KeepsSpecial], by simp, by simp, fun _ _ => by simp⟩

theorem calm_setX (s : State) (r : Reg) (v : Word) : Calm s (s.setX r v) := calm_setReg s s.cur r v

theorem calm_setZNC (s : State) (r : Word) (c : Bool) : Calm s (s.setZNC r c) :=
  ⟨by simp [KeepsSpecial, State.setZNC], rfl, rfl, (flagsBecome_setZNC s r c).2.2.2⟩

theorem calm_setZN (s : State) (r : Word) : Calm s (s.setZN r) :=
  ⟨by simp [KeepsSpecial, State.setZN], rfl, rfl, (flagsBecome_setZN s r).2.2.2⟩

theorem calm_pc (s : State) (v : Word) : Calm s { s with pc := v } :=
  ⟨by simp [KeepsSpecial], rfl, rfl, fun _ _ => rfl⟩

theorem finishZNC_calm {s t : State} {rd : Reg} {rc : Word × Bool} (h : finishZNC rd rc s = .next t) : Calm s t := by
  cases h; exact (calm_setX _ _ _).trans (calm_setZNC _ _ _)

theorem finishZN_calm {s t : State} {rd : Reg} {r : Word} (h : finishZN rd r s = .next t) : Calm s t := by
  cases h; exact (calm_setX _ _ _).trans (calm_setZN _ _)

theorem finishQuiet_calm {s t : State} {rd : Reg} {r : Word} (h : finishQuiet rd r s = .next t) : Calm s t := by
  cases h; exact calm_setX _ _ _

theorem compareZNC_calm {s t : State} {rc : Word × Bool} (h : compareZNC rc s = .next t) : Calm s t := by
  cases h; exact calm_setZNC _ _ _

theorem loadLong_calm {s t : State} {a : Word} {rd : Reg} (h : loadLong a rd s = .next t) : Calm s t := by
  obtain ⟨v, _, h⟩ := withValue_eq_next.1 h
  cases h; exact calm_setX _ _ _

/-- The absorb loop changes registers, `PC` and `acc`. -/
theorem absorb_calm (n : Nat) {s t : State} (h : absorb n s = .next t) : Calm { s with acc := t.acc } t := by
  induction n generalizing s with
  | zero => cases h
  | succ n ih =>
    simp only [absorb] at h
    split at h
    · cases h
    · split at h
      · have k := ih h
        exact (calm_pc { s with acc := t.acc } (s.pc + 2#32)).trans k
      · split at h
        · cases h
          exact (calm_setX { s with acc := _ } _ _).trans (calm_pc _ _) |> fun k => by
            simpa [State.deliver, State.skipWord] using k
        · cases h; exact .refl _

/-- Instructions that write memory or the control port. -/
def Instr.stores : Instr → Bool
  | .storeb _ _ | .storew _ _ | .store _ _ | .storep _ _ | .storeR14n _ _ | .storeR15n _ _ | .storeR14r _ _
  | .storeR15r _ _ => true
  | _ => false

/-- Everything an instruction that is no store can change: registers, `Z`, `C`, `N`, `PC`, and, of the rest, what these five
fields' owners write. -/
theorem exec_calm {i : Instr} {s t : State} (hi : Instr.stores i = false) (h : exec i s = .next t) :
    Calm { s with remainder := t.remainder, acc := t.acc, hiMod := t.hiMod, delay := t.delay, cycles := t.cycles } t ∧
    ((∀ rs rd, i ≠ .div rs rd) → t.remainder = s.remainder) ∧
    ((∀ rs rd, i ≠ .imultn rs rd ∧ i ≠ .imacn rs rd) → t.acc = s.acc) ∧
    ((∀ rs rd, i ≠ .loadp rs rd) → t.hiMod = s.hiMod) ∧
    ((∀ a b, i ≠ .jump a b ∧ i ≠ .jr a b) → t.delay = s.delay ∧ t.cycles = s.cycles) := by
  have hcalm : Calm s t → Calm { s with
      remainder := t.remainder, acc := t.acc, hiMod := t.hiMod, delay := t.delay, cycles := t.cycles } t ∧
      t.remainder = s.remainder ∧ t.acc = s.acc ∧ t.hiMod = s.hiMod ∧ t.delay = s.delay ∧ t.cycles = s.cycles := by
    intro hc
    obtain ⟨h1, h2, h3, h4, h5, h6, h7, h8, h9, h10, h11, h12, h13, h14, h15, h16, h17⟩ := hc.special
    refine ⟨?_, h9, h10, h7, h14, h16⟩
    rw [h9, h10, h7, h14, h16]; exact hc
  have fin : Calm s t → _ ∧ ((∀ rs rd, i ≠ .div rs rd) → t.remainder = s.remainder) ∧
      ((∀ rs rd, i ≠ .imultn rs rd ∧ i ≠ .imacn rs rd) → t.acc = s.acc) ∧
      ((∀ rs rd, i ≠ .loadp rs rd) → t.hiMod = s.hiMod) ∧
      ((∀ a b, i ≠ .jump a b ∧ i ≠ .jr a b) → t.delay = s.delay ∧ t.cycles = s.cycles) := fun hc =>
    have k := hcalm hc
    ⟨k.1, fun _ => k.2.1, fun _ => k.2.2.1, fun _ => k.2.2.2.1, fun _ => k.2.2.2.2⟩
  cases i with
  | add _ _ | addc _ _ | addq _ _ | sub _ _ | subc _ _ | subq _ _ | neg _ | sh _ _ | shlq _ _ | shrq _ _ | sha _ _
  | sharq _ _ | ror _ _ | rorq _ _ | subqmod _ _ | addqmod _ _ => exact fin (finishZNC_calm h)
  | and _ _ | or _ _ | xor _ _ | not _ | bset _ _ | bclr _ _ | mult _ _ | imult _ _ | sat8 _ | sat16s _ | sat16 _
  | sat32s _ | mirror _ | mtoi _ _ | normi _ _ | sat24 _ | pack _ | unpack _ => exact fin (finishZN_calm h)
  | addqt _ _ | subqt _ _ | move _ _ | moveq _ _ | movefa _ _ => exact fin (finishQuiet_calm h)
  | cmp _ _ | cmpq _ _ => exact fin (compareZNC_calm h)
  | load _ _ | loadR14n _ _ | loadR15n _ _ | loadR14r _ _ | loadR15r _ _ => exact fin (loadLong_calm h)
  | nop | illegal => cases h; exact fin (.refl s)
  | resmac _ => cases h; exact fin (calm_setX _ _ _)
  | moveta _ _ => cases h; exact fin (calm_setReg _ _ _ _)
  | btst n rd =>
    cases h
    refine fin ⟨by simp [KeepsSpecial, State.setZ], rfl, rfl, fun b hb => ?_⟩
    simp only [State.setZ, getLsbD_putBit _ _ _ _ (by decide : 0 < 32)]
    rw [if_neg (by omega)]
  | abs rd =>
    cases h
    refine fin ⟨by simp [KeepsSpecial], by simp, by simp, fun b hb => ?_⟩
    simp only [getLsbD_putZCN]
    rw [if_neg (by omega), if_neg (by omega), if_neg (by omega)]
  | loadb rs rd | loadw rs rd =>
    simp only [exec, execLoadb, execLoadw] at h
    split at h
    · exact fin (loadLong_calm h)
    · obtain ⟨v, _, h⟩ := withValue_eq_next.1 h
      cases h; exact fin (calm_setX _ _ _)
  | movei imm rd =>
    simp only [exec, execMovei] at h
    split at h
    · cases h
    · cases h; exact fin ((calm_pc _ _).trans (calm_setX _ _ _))
  | movePc rd =>
    simp only [exec, execMovePc] at h
    split at h
    · cases h
    · exact fin (finishQuiet_calm h)
  | mmult rs rd =>
    obtain ⟨v, _, h⟩ := withValue_eq_next.1 h
    exact fin (finishZN_calm h)
  | div rs rd =>
    simp only [exec, execDiv] at h
    split at h
    · cases h; exact fin (calm_setX _ _ _)
    · cases h
      refine ⟨?_, fun k => absurd rfl (k rs rd), fun _ => by simp, fun _ => by simp, fun _ => by simp⟩
      exact ⟨by simp [KeepsSpecial], by simp, by simp, fun _ _ => by simp⟩
  | imacn rs rd =>
    cases h
    exact ⟨⟨by simp [KeepsSpecial, State.accumulate], rfl, rfl, fun _ _ => rfl⟩, fun _ => rfl,
      fun k => absurd rfl (k rs rd).2, fun _ => rfl, fun _ => ⟨rfl, rfl⟩⟩
  | imultn rs rd =>
    simp only [exec, execImultn] at h
    split at h
    · cases h
    · have hc := absorb_calm _ h
      have hz : Calm { s with acc := t.acc } { ({ s with acc := BitVec.ofInt 64 (s.product rs rd) } : State).setZN
          (BitVec.ofInt 32 (s.product rs rd)) with acc := t.acc } :=
        ⟨by simp [KeepsSpecial, State.setZN], rfl, rfl, (flagsBecome_setZN s _).2.2.2⟩
      have k := hz.trans hc
      obtain ⟨h1, h2, h3, h4, h5, h6, h7, h8, h9, h10, h11, h12, h13, h14, h15, h16, h17⟩ := k.special
      refine ⟨?_, fun _ => h9, fun k' => absurd rfl (k' rs rd).1, fun _ => h7, fun _ => ⟨h14, h16⟩⟩
      rw [h9, h7, h14, h16]; exact k
  | loadp rs rd =>
    simp only [exec, execLoadp] at h
    split at h
    · exact fin (loadLong_calm h)
    · obtain ⟨v, _, h⟩ := withValue_eq_next.1 h
      have k := loadLong_calm h
      obtain ⟨h1, h2, h3, h4, h5, h6, h7, h8, h9, h10, h11, h12, h13, h14, h15, h16, h17⟩ := k.special
      refine ⟨?_, fun _ => h9, fun _ => h10, fun k' => absurd rfl (k' rs rd), fun _ => ⟨h14, h16⟩⟩
      rw [h9, h10, h7, h14, h16]; exact k
  | jump _ _ | jr _ _ =>
    simp only [exec, execJump, execJr] at h
    split at h
    · cases h
    · split at h
      · obtain ⟨v, _, h⟩ := withValue_eq_next.1 h
        cases h
        exact ⟨⟨by simp [KeepsSpecial], rfl, rfl, fun _ _ => rfl⟩, fun _ => rfl, fun _ => rfl, fun _ => rfl,
          fun k' => by first | exact absurd rfl (k' _ _).1 | exact absurd rfl (k' _ _).2⟩
      · cases h; exact fin (.refl s)
  | storeb _ _ | storew _ _ | store _ _ | storep _ _ | storeR14n _ _ | storeR15n _ _ | storeR14r _ _
  | storeR15r _ _ => cases hi

/-! Stores. -/

/-- What no primitive move of the port changes. -/
structure PortFrame (s t : State) : Prop where
  cfg       : t.cfg = s.cfg
  remainder : t.remainder = s.remainder
  acc       : t.acc = s.acc
  ppc       : t.ppc = s.ppc
  lagNow    : t.lagNow = s.lagNow
  delay     : t.delay = s.delay
  cycles    : t.cycles = s.cycles
  agenda    : t.agenda = s.agenda

theorem PortFrame.refl (s : State) : PortFrame s s := ⟨rfl, rfl, rfl, rfl, rfl, rfl, rfl, rfl⟩

theorem PortFrame.trans {s t u : State} (h : PortFrame s t) (k : PortFrame t u) : PortFrame s u :=
  ⟨k.1.trans h.1, k.2.trans h.2, k.3.trans h.3, k.4.trans h.4, k.5.trans h.5, k.6.trans h.6, k.7.trans h.7,
    k.8.trans h.8⟩

theorem portMove_frame {why : Cause} {s t : State} (h : PortMove why s t) : PortFrame s t := by
  cases h <;> constructor <;> first | rfl | simp [State.storeFlags, State.setI]

theorem portMoves_frame {why : Cause} {s t : State} (h : PortMoves why s t) : PortFrame s t := by
  induction h with
  | refl => exact .refl _
  | tail _ k ih => exact ih.trans (portMove_frame k)

/-- An entry, whatever its push reaches (R327 to R331): the recheck inside the push is `check_irqs()` itself. -/
theorem checkIrqs_enters {s : State} {why : Cause} {k : Nat} (hw : s.winner = some k) :
    checkIrqs why s =
      andThen (writeLongWith (checkIrqs why) why (s.reg .b0 31#5 - 4#32) (s.pc - 2#32)
        ((updateBanks why (s.setI true)).setReg .b0 31#5 (s.reg .b0 31#5 - 4#32)))
      fun t => .next { t with pc := s.cfg.vectorBase + BitVec.ofNat 32 (16 * k) } := by
  have h3 : checkIrqs why s = checkIrqsAt 3 why s := (checkIrqsAt_two 1 why s).symm
  have hr : (updateBanks why (s.setI true)).reg .b0 31#5 = s.reg .b0 31#5 := by
    rw [reg_updateBanks]; exact reg_congr rfl rfl _ _
  rw [h3, checkIrqsAt]
  simp only [hw, takeInterrupt, hr]
  rw [show ((updateBanks why (s.setI true)).setReg .b0 31#5 (s.reg .b0 31#5 - 4#32)).pc = s.pc by simp [State.setI]]
  refine andThen_congr fun t ht => ?_
  have hc := (portMoves_frame (writeLongWith_moves (fun _ _ h => checkIrqsAt_moves _ h) ht)).cfg
  rw [hc]; simp [State.setI]

/-- A narrow write to memory. -/
theorem poke_frame (s : State) (cells : List Host.Cell) : PortFrame s (s.poke cells) :=
  ⟨rfl, rfl, rfl, rfl, rfl, rfl, rfl, rfl⟩

/-! The invariant. -/

/-- `FLAGS` legality, bit by bit. -/
theorem flagsLegal_iff {s : State} :
    FlagsLegal s ↔ ∀ b, b < 32 → s.flags.getLsbD b = true → (writableFlags s.cfg.variant ||| 8#32).getLsbD b = true := by
  constructor
  · intro h b hb hs
    have := congrArg (fun w => w.getLsbD b) h
    simp only [BitVec.getLsbD_and, BitVec.getLsbD_not, hs, hb, decide_true, Bool.true_and, BitVec.getLsbD_zero] at this
    simpa only [Bool.not_eq_false'] using this
  · intro h
    refine BitVec.eq_of_getLsbD_eq fun b hb => ?_
    simp only [BitVec.getLsbD_and, BitVec.getLsbD_not, hb, decide_true, Bool.true_and, BitVec.getLsbD_zero]
    cases hs : s.flags.getLsbD b
    · rfl
    · rw [h b hb hs]; rfl

/-- Bits 0 to 2 of `FLAGS` are stored bits. -/
theorem writable_low (v : Variant) {b : Nat} (hb : b < 3) : (writableFlags v ||| 8#32).getLsbD b = true := by
  have : ∀ (v : Variant) (j : Fin 3), (writableFlags v ||| 8#32).getLsbD j = true := by
    intro v; cases v <;> decide
  exact this v ⟨b, hb⟩

theorem flagsLegal_congr {s t : State} (hc : t.cfg = s.cfg)
    (hf : ∀ b, 3 ≤ b → t.flags.getLsbD b = s.flags.getLsbD b) (h : FlagsLegal s) : FlagsLegal t := by
  rw [flagsLegal_iff] at *
  intro b hb ht
  rw [hc]
  by_cases h3 : b < 3
  · exact writable_low _ h3
  · exact h b hb ((hf b (by omega)) ▸ ht)

/-- What keeps everything but registers, `Z`, `C`, `N` and `PC` keeps the invariant. -/
theorem Calm.inv {s t : State} (k : Calm s t) (h : InvInside s) : InvInside t := by
  obtain ⟨hm, hf, hc, hb, hs⟩ := h
  obtain ⟨hcfg, hcur, hctrl, -⟩ := k.special
  refine ⟨k.mem ▸ hm, flagsLegal_congr hcfg k.flags hf, ?_, ?_, ?_⟩
  · unfold CtrlLegal; rw [hctrl]; exact hc
  · unfold BankLegal
    rw [hcur, required_congr (k.flags 3 (by decide)) (k.flags 14 (by decide))]; exact hb
  · unfold StoredLegal; rw [k.stored, hcfg]; exact hs

theorem storedCtrl_legal (new : Word) : (storedCtrl new).getLsbD 1 = false ∧ (storedCtrl new).getLsbD 2 = false := by
  simp only [storedCtrl, getLsbD_putBit _ _ _ _ (by decide : 2 < 32), getLsbD_putBit _ _ _ _ (by decide : 1 < 32)]
  simp

theorem foldl_mark_legal {cells : List Host.Cell} (hc : ∀ c ∈ cells, c.1 < 2 ^ 24) {l : List Nat}
    (h : l.Pairwise (· < ·) ∧ ∀ a ∈ l, a < busSize) :
    (cells.foldl (fun l c => Memory.mark l c.1) l).Pairwise (· < ·) ∧
      ∀ a ∈ cells.foldl (fun l c => Memory.mark l c.1) l, a < busSize := by
  induction cells generalizing l with
  | nil => exact h
  | cons c cs ih =>
    refine ih (fun x hx => hc x (List.mem_cons_of_mem _ hx)) ⟨mark_rising _ h.1, fun a ha => ?_⟩
    rcases (mark_mem _ _ _).1 ha with rfl | ha
    · exact hc c List.mem_cons_self
    · exact h.2 a ha

/-- A core write keeps the invariant. -/
theorem poke_inv {s : State} {cells : List Host.Cell} (hc : ∀ c ∈ cells, c.1 < 2 ^ 24) (h : InvInside s) :
    InvInside (s.poke cells) := by
  obtain ⟨hm, hf, hcl, hb, hs⟩ := h
  refine ⟨poke_mem_wf hc hm, hf, hcl, hb, ?_⟩
  obtain ⟨h1, h2⟩ := hs
  unfold StoredLegal State.poke
  cases hk : s.cfg.fetchCoherent
  · simp only [Bool.false_eq_true, if_false]
    exact ⟨fun h => absurd h (by simp), foldl_mark_legal hc h2⟩
  · simp only [if_true]
    exact ⟨fun _ => h1 hk, h2⟩

theorem storedLegal_congr {s t : State} (hc : t.cfg = s.cfg) (hs : t.stored = s.stored) (h : StoredLegal s) :
    StoredLegal t := by
  unfold StoredLegal; rw [hc, hs]; exact h

/-- A start may forget every stored-to byte. -/
theorem storeCtrl_storedLegal {s : State} (new : Word) (h : StoredLegal s) : StoredLegal (s.storeCtrl new) := by
  unfold StoredLegal State.storeCtrl
  split
  · exact ⟨fun _ => rfl, .nil, by simp⟩
  · exact h

/-- Every primitive move of the port keeps the invariant. -/
theorem portMove_inv {why : Cause} {s t : State} (k : PortMove why s t) (h : InvInside s) : InvInside t := by
  have h0 := h
  obtain ⟨hm, hf, hc, hb, hs⟩ := h
  cases k with
  | poke a v => exact poke_inv (longCells_lt a v) h0
  | mtxc v => exact ⟨hm, hf, hc, hb, hs⟩
  | mtxa v => exact ⟨hm, hf, hc, hb, hs⟩
  | endian v => exact ⟨hm, hf, hc, hb, hs⟩
  | hiMod v => exact ⟨hm, hf, hc, hb, hs⟩
  | divctrl v => exact ⟨hm, hf, hc, hb, hs⟩
  | pc v => exact ⟨hm, hf, hc, hb, hs⟩
  | ctrl new => exact ⟨hm, hf, storedCtrl_legal new, hb, storeCtrl_storedLegal new hs⟩
  | latch k b =>
    refine ⟨hm, hf, ?_, hb, hs⟩
    unfold CtrlLegal State.setLatch latchBit
    simp only [getLsbD_putBit _ _ _ _ (by split <;> omega : (if k < 5 then 6 + k else 16) < 32)]
    rw [if_neg (by split <;> omega), if_neg (by split <;> omega)]
    exact hc
  | sp v => exact (calm_setReg _ _ _ _).inv h0
  | enter =>
    refine ⟨by rw [updateBanks_mem]; exact hm, ?_, ?_, ?_, storedLegal_congr (by simp [State.setI]) (by simp [State.setI]) hs⟩
    · rw [flagsLegal_iff] at *
      intro b hb' ht
      rw [updateBanks_flags] at ht
      simp only [updateBanks_cfg, State.setI] at ht ⊢
      rw [getLsbD_putBit _ _ _ _ (by decide)] at ht
      by_cases h3 : b = 3
      · subst h3
        cases s.cfg.variant <;> decide
      · rw [if_neg h3] at ht; exact hf b hb' ht
    · unfold CtrlLegal; rw [updateBanks_ctrl]; exact hc
    · unfold BankLegal; rw [updateBanks_cur, required_updateBanks]
  | flags new =>
    refine ⟨by rw [updateBanks_mem]; exact hm, ?_, ?_, ?_,
      storedLegal_congr (by simp [State.storeFlags]) (by simp [State.storeFlags]) hs⟩
    · rw [flagsLegal_iff]
      intro b hb' ht
      rw [updateBanks_flags] at ht
      simp only [updateBanks_cfg, State.storeFlags, acknowledge_flags, acknowledge_cfg, storedFlags] at ht ⊢
      rw [getLsbD_putBit _ _ _ _ (by decide)] at ht
      by_cases h3 : b = 3
      · subst h3
        cases s.cfg.variant <;> decide
      · rw [if_neg h3, BitVec.getLsbD_and, Bool.and_eq_true] at ht
        rw [BitVec.getLsbD_or, ht.2, Bool.true_or]
    · unfold CtrlLegal
      rw [updateBanks_ctrl]
      simp only [State.storeFlags, State.acknowledge, BitVec.getLsbD_and, hc.1, hc.2, Bool.false_and, and_self]
    · unfold BankLegal; rw [updateBanks_cur, required_updateBanks]

theorem portMoves_inv {why : Cause} {s t : State} (k : PortMoves why s t) (h : InvInside s) : InvInside t := by
  induction k with
  | refl => exact h
  | tail _ m ih => exact portMove_inv m ih

/-- A store makes port moves, or one narrow write. -/
theorem exec_stores {i : Instr} {s t : State} (hi : Instr.stores i = true) (h : exec i s = .next t) :
    PortMoves .inStep s t ∨ ∃ cells : List Host.Cell, (∀ c ∈ cells, c.1 < 2 ^ 24) ∧ t = s.poke cells := by
  cases i with
  | store _ _ | storeR14n _ _ | storeR15n _ _ | storeR14r _ _ | storeR15r _ _ => exact .inl (writeLong_moves h)
  | storeb rs rd =>
    simp only [exec, execStoreb] at h
    split at h
    · exact .inl (writeLong_moves h)
    · simp only [writeByte] at h
      split at h
      · cases h
      · cases h
        refine .inr ⟨_, fun c hc => ?_, rfl⟩
        rw [List.mem_singleton] at hc; rw [hc]; exact busAddr_lt _ _
  | storew rs rd =>
    simp only [exec, execStorew] at h
    split at h
    · exact .inl (writeLong_moves h)
    · simp only [writeHalf] at h
      split at h
      · cases h
      · split at h
        · cases h
        · cases h; exact .inr ⟨_, halfCells_lt _ _, rfl⟩
  | storep rs rd =>
    simp only [exec, execStorep] at h
    split at h
    · exact .inl (writeLong_moves h)
    · obtain ⟨u, hu, ht⟩ := andThen_eq_next.1 h
      exact .inl ((writeLong_moves hu).trans (writeLong_moves ht))
  | _ => cases hi

theorem exec_stores_frame {i : Instr} {s t : State} (hi : Instr.stores i = true) (h : exec i s = .next t) :
    PortFrame s t := by
  rcases exec_stores hi h with k | ⟨cells, _, rfl⟩
  · exact portMoves_frame k
  · exact poke_frame _ _

/-- The invariant but for the delay slot is blind to fields it does not name. -/
theorem invInside_congr {s t : State} (hc : t.cfg = s.cfg) (hcur : t.cur = s.cur) (hf : t.flags = s.flags)
    (hctrl : t.ctrl = s.ctrl) (hm : t.mem = s.mem) (hs : t.stored = s.stored) (h : InvInside s) : InvInside t := by
  obtain ⟨h1, h2, h3, h4, h5⟩ := h
  refine ⟨hm ▸ h1, ?_, ?_, ?_, storedLegal_congr hc hs h5⟩
  · unfold FlagsLegal; rw [hf, hc]; exact h2
  · unfold CtrlLegal; rw [hctrl]; exact h3
  · unfold BankLegal; rw [hcur, required_congr (s := s) (t := t) (by rw [hf]) (by rw [hf])]; exact h4

end Sys2Proof.Machine
end

