-- ==== Sys2Proof/Laws/PerInstr.lean ====
section
/-! SUPPORT. Statements about every instruction as syntax, one lemma per constructor. -/

/-! The bytes an instruction is encoded in are as many as its first word says (R112). -/

namespace Sys2Proof.Laws.EncodedLength

/-- The encoding is as long as R112 reads from its first word. -/
def Statement (i : Instr) : Prop := (encodeBytes i).length = lengthOf (encodeOpcode i)

/-- One word, no extension words. -/
theorem oneWord {i : Instr} (o : BitVec 6) (h : encodeExt i = []) (hf : (encodeFields i).1 = o) (ho : o ≠ moveiOpc) :
    Statement i := by
  unfold Statement
  simp [encodeBytes, encode, h, bytesOfHalf, lengthOf, encodeOpcode, hf, ho]

theorem add (rs rd : Reg) : Statement (.add rs rd) := oneWord 0#6 rfl rfl (by decide)

theorem addc (rs rd : Reg) : Statement (.addc rs rd) := oneWord 1#6 rfl rfl (by decide)

theorem addq (n : Imm5) (rd : Reg) : Statement (.addq n rd) := oneWord 2#6 rfl rfl (by decide)

theorem addqt (n : Imm5) (rd : Reg) : Statement (.addqt n rd) := oneWord 3#6 rfl rfl (by decide)

theorem sub (rs rd : Reg) : Statement (.sub rs rd) := oneWord 4#6 rfl rfl (by decide)

theorem subc (rs rd : Reg) : Statement (.subc rs rd) := oneWord 5#6 rfl rfl (by decide)

theorem subq (n : Imm5) (rd : Reg) : Statement (.subq n rd) := oneWord 6#6 rfl rfl (by decide)

theorem subqt (n : Imm5) (rd : Reg) : Statement (.subqt n rd) := oneWord 7#6 rfl rfl (by decide)

theorem neg (rd : Reg) : Statement (.neg rd) := oneWord 8#6 rfl rfl (by decide)

theorem and (rs rd : Reg) : Statement (.and rs rd) := oneWord 9#6 rfl rfl (by decide)

theorem or (rs rd : Reg) : Statement (.or rs rd) := oneWord 10#6 rfl rfl (by decide)

theorem xor (rs rd : Reg) : Statement (.xor rs rd) := oneWord 11#6 rfl rfl (by decide)

theorem not (rd : Reg) : Statement (.not rd) := oneWord 12#6 rfl rfl (by decide)

theorem btst (n : Imm5) (rd : Reg) : Statement (.btst n rd) := oneWord 13#6 rfl rfl (by decide)

theorem bset (n : Imm5) (rd : Reg) : Statement (.bset n rd) := oneWord 14#6 rfl rfl (by decide)

theorem bclr (n : Imm5) (rd : Reg) : Statement (.bclr n rd) := oneWord 15#6 rfl rfl (by decide)

theorem mult (rs rd : Reg) : Statement (.mult rs rd) := oneWord 16#6 rfl rfl (by decide)

theorem imult (rs rd : Reg) : Statement (.imult rs rd) := oneWord 17#6 rfl rfl (by decide)

theorem imultn (rs rd : Reg) : Statement (.imultn rs rd) := oneWord 18#6 rfl rfl (by decide)

theorem resmac (rd : Reg) : Statement (.resmac rd) := oneWord 19#6 rfl rfl (by decide)

theorem imacn (rs rd : Reg) : Statement (.imacn rs rd) := oneWord 20#6 rfl rfl (by decide)

theorem div (rs rd : Reg) : Statement (.div rs rd) := oneWord 21#6 rfl rfl (by decide)

theorem abs (rd : Reg) : Statement (.abs rd) := oneWord 22#6 rfl rfl (by decide)

theorem sh (rs rd : Reg) : Statement (.sh rs rd) := oneWord 23#6 rfl rfl (by decide)

theorem shlq (n : Imm5) (rd : Reg) : Statement (.shlq n rd) := oneWord 24#6 rfl rfl (by decide)

theorem shrq (n : Imm5) (rd : Reg) : Statement (.shrq n rd) := oneWord 25#6 rfl rfl (by decide)

theorem sha (rs rd : Reg) : Statement (.sha rs rd) := oneWord 26#6 rfl rfl (by decide)

theorem sharq (n : Imm5) (rd : Reg) : Statement (.sharq n rd) := oneWord 27#6 rfl rfl (by decide)

theorem ror (rs rd : Reg) : Statement (.ror rs rd) := oneWord 28#6 rfl rfl (by decide)

theorem rorq (n : Imm5) (rd : Reg) : Statement (.rorq n rd) := oneWord 29#6 rfl rfl (by decide)

theorem cmp (rs rd : Reg) : Statement (.cmp rs rd) := oneWord 30#6 rfl rfl (by decide)

theorem cmpq (n : Imm5) (rd : Reg) : Statement (.cmpq n rd) := oneWord 31#6 rfl rfl (by decide)

theorem subqmod (n : Imm5) (rd : Reg) : Statement (.subqmod n rd) := oneWord 32#6 rfl rfl (by decide)

theorem sat8 (rd : Reg) : Statement (.sat8 rd) := oneWord 32#6 rfl rfl (by decide)

theorem sat16s (rd : Reg) : Statement (.sat16s rd) := oneWord 33#6 rfl rfl (by decide)

theorem sat16 (rd : Reg) : Statement (.sat16 rd) := oneWord 33#6 rfl rfl (by decide)

theorem move (rs rd : Reg) : Statement (.move rs rd) := oneWord 34#6 rfl rfl (by decide)

theorem moveq (n : Imm5) (rd : Reg) : Statement (.moveq n rd) := oneWord 35#6 rfl rfl (by decide)

theorem moveta (rs rd : Reg) : Statement (.moveta rs rd) := oneWord 36#6 rfl rfl (by decide)

theorem movefa (rs rd : Reg) : Statement (.movefa rs rd) := oneWord 37#6 rfl rfl (by decide)

theorem movei (imm : Word) (rd : Reg) : Statement (.movei imm rd) := by
  unfold Statement
  simp [encodeBytes, encode, encodeExt, bytesOfHalf, lengthOf, encodeOpcode, encodeFields, moveiOpc]

theorem loadb (rs rd : Reg) : Statement (.loadb rs rd) := oneWord 39#6 rfl rfl (by decide)

theorem loadw (rs rd : Reg) : Statement (.loadw rs rd) := oneWord 40#6 rfl rfl (by decide)

theorem load (rs rd : Reg) : Statement (.load rs rd) := oneWord 41#6 rfl rfl (by decide)

theorem sat32s (rd : Reg) : Statement (.sat32s rd) := oneWord 42#6 rfl rfl (by decide)

theorem loadp (rs rd : Reg) : Statement (.loadp rs rd) := oneWord 42#6 rfl rfl (by decide)

theorem loadR14n (n : Imm5) (rd : Reg) : Statement (.loadR14n n rd) := oneWord 43#6 rfl rfl (by decide)

theorem loadR15n (n : Imm5) (rd : Reg) : Statement (.loadR15n n rd) := oneWord 44#6 rfl rfl (by decide)

theorem storeb (rs rd : Reg) : Statement (.storeb rs rd) := oneWord 45#6 rfl rfl (by decide)

theorem storew (rs rd : Reg) : Statement (.storew rs rd) := oneWord 46#6 rfl rfl (by decide)

theorem store (rs rd : Reg) : Statement (.store rs rd) := oneWord 47#6 rfl rfl (by decide)

theorem mirror (rd : Reg) : Statement (.mirror rd) := oneWord 48#6 rfl rfl (by decide)

theorem storep (rs rd : Reg) : Statement (.storep rs rd) := oneWord 48#6 rfl rfl (by decide)

theorem storeR14n (n : Imm5) (rd : Reg) : Statement (.storeR14n n rd) := oneWord 49#6 rfl rfl (by decide)

theorem storeR15n (n : Imm5) (rd : Reg) : Statement (.storeR15n n rd) := oneWord 50#6 rfl rfl (by decide)

theorem movePc (rd : Reg) : Statement (.movePc rd) := oneWord 51#6 rfl rfl (by decide)

theorem jump (rs : Reg) (cc : CondCode) : Statement (.jump rs cc) := oneWord 52#6 rfl rfl (by decide)

theorem jr (n : Imm5) (cc : CondCode) : Statement (.jr n cc) := oneWord 53#6 rfl rfl (by decide)

theorem mmult (rs rd : Reg) : Statement (.mmult rs rd) := oneWord 54#6 rfl rfl (by decide)

theorem mtoi (rs rd : Reg) : Statement (.mtoi rs rd) := oneWord 55#6 rfl rfl (by decide)

theorem normi (rs rd : Reg) : Statement (.normi rs rd) := oneWord 56#6 rfl rfl (by decide)

theorem nop : Statement .nop := oneWord 57#6 rfl rfl (by decide)

theorem loadR14r (rs rd : Reg) : Statement (.loadR14r rs rd) := oneWord 58#6 rfl rfl (by decide)

theorem loadR15r (rs rd : Reg) : Statement (.loadR15r rs rd) := oneWord 59#6 rfl rfl (by decide)

theorem storeR14r (rs rd : Reg) : Statement (.storeR14r rs rd) := oneWord 60#6 rfl rfl (by decide)

theorem storeR15r (rs rd : Reg) : Statement (.storeR15r rs rd) := oneWord 61#6 rfl rfl (by decide)

theorem illegal : Statement .illegal := oneWord 62#6 rfl rfl (by decide)

theorem sat24 (rd : Reg) : Statement (.sat24 rd) := oneWord 62#6 rfl rfl (by decide)

theorem addqmod (n : Imm5) (rd : Reg) : Statement (.addqmod n rd) := oneWord 63#6 rfl rfl (by decide)

theorem pack (rd : Reg) : Statement (.pack rd) := oneWord 63#6 rfl rfl (by decide)

theorem unpack (rd : Reg) : Statement (.unpack rd) := oneWord 63#6 rfl rfl (by decide)

end Sys2Proof.Laws.EncodedLength
end

