-- ==== Sys2Proof/Laws/Ports.lean ====
section
/-! SUPPORT. The ports and the interrupt check under conditions on the address and the state alone: which accesses are plain
memory, which reach a control register, which level wins and what its entry leaves. -/

namespace Sys2Proof.Machine

/-- A long access is aligned at a multiple of 4 (R79). -/
theorem misaligned_long (a : Word) : misaligned a 4 = false ↔ a.toNat % 4 = 0 := by simp [misaligned]

theorem misaligned_half (a : Word) : misaligned a 2 = false ↔ a.toNat % 2 = 0 := by simp [misaligned]

theorem misaligned_long_true (a : Word) : misaligned a 4 = true ↔ a.toNat % 4 ≠ 0 := by simp [misaligned]

theorem misaligned_half_true (a : Word) : misaligned a 2 = true ↔ a.toNat % 2 ≠ 0 := by simp [misaligned]

/-- A plain long access reaches no control register. -/
theorem ctrlIndex_plain {s : State} {a : Word} (h : PlainLong s a) : s.ctrlIndex a = none := by
  simp only [State.ctrlIndex]
  split
  · next hc =>
    simp only [Bool.and_eq_true, decide_eq_true_eq] at hc
    obtain ⟨⟨⟨hm, hb⟩, h4⟩, hn⟩ := hc
    refine absurd ⟨hm, _, hn, ?_⟩ h.2
    simp only [busAddr, busSize] at *; omega
  · rfl

/-- Which control register a long access reaches (R82). -/
theorem ctrlIndex_reaches {s : State} {a : Word} {k} (h : ReachesCtrl s a k) : s.ctrlIndex a = some k := by
  obtain ⟨hm, hk, h4, ha⟩ := h
  have e : busAddr a 0 = s.cfg.ctrlBase + 4 * k := by simp only [busAddr, busSize]; omega
  simp only [State.ctrlIndex, e, hm]
  rw [if_pos]
  · congr 1; omega
  · simp only [Bool.and_eq_true, decide_eq_true_eq]
    exact ⟨⟨⟨trivial, by omega⟩, by omega⟩, by omega⟩

/-- Missing the control block, as the port tests it. -/
theorem missesCtrl_iff {s : State} {a : Word} {n} : MissesCtrl s a n ↔ s.touchesCtrl a n = false := by
  unfold MissesCtrl State.touchesCtrl
  rw [show a.toNat % 2 ^ 24 = busAddr a 0 from rfl]
  generalize busAddr a 0 = x
  cases s.cfg.ctrlMapped
  · simp
  · simp only [Bool.true_and, Bool.and_eq_false_iff, decide_eq_false_iff_not, forall_const]
    omega

/-- The window, as the ports test it. -/
theorem inWindow_iff {s : State} {a : Word} : InWindow s a ↔ s.inWindow a = true := by
  simp [InWindow, State.inWindow]

/-- A plain long read is memory. -/
theorem longAt_plain {s a} (h : PlainLong s a) : s.longAt a = s.memLong a := by simp [State.longAt, ctrlIndex_plain h]

/-- A mapped long read is the control port's. -/
theorem longAt_reaches {s a k} (h : ReachesCtrl s a k) : s.longAt a = s.ctrlRead k := by simp [State.longAt, ctrlIndex_reaches h]

/-- A long load at an aligned address completes. -/
theorem loadLong_aligned {s : State} {a rd} (h : a.toNat % 4 = 0) : ∃ t, loadLong a rd s = .next t ∧ WritesQuietly s t rd (s.longAt a) := by
  rw [loadLong, readLong_aligned ((misaligned_long a).2 h)]; exact ⟨_, rfl, writesQuietly_setX _ _ _⟩

theorem loadLong_misaligned {s : State} {a rd} (h : a.toNat % 4 ≠ 0) : loadLong a rd s = .refused .misaligned := by
  simp [loadLong, State.readLong, (misaligned_long_true a).2 h]

theorem mem_foldl_mark (l : List Nat) (cells : List Host.Cell) (b : Nat) :
    b ∈ cells.foldl (fun l c => Memory.mark l c.1) l ↔ b ∈ l ∨ ∃ c ∈ cells, b = c.1 := by
  induction cells generalizing l with
  | nil => simp
  | cons c cs ih => rw [List.foldl_cons, ih, mark_mem]; simp; tauto

/-- Which bytes count as stored to after a core write (R90). -/
theorem mem_poke_stored {s : State} {cells : List Host.Cell} {a : Word} {n : Nat} (h : ∀ b, (∃ c ∈ cells, b = c.1) ↔ InAccess a n b) (b) :
    b ∈ (s.poke cells).stored ↔ b ∈ s.stored ∨ (s.cfg.fetchCoherent = false ∧ InAccess a n b) := by
  simp only [State.poke]
  cases s.cfg.fetchCoherent
  · simp [mem_foldl_mark, h]
  · simp

theorem longCells_inAccess (a v : Word) (b) : (∃ c ∈ longCells a v, b = c.1) ↔ InAccess a 4 b := by
  simp only [longCells, InAccess]
  constructor
  · rintro ⟨c, hc, rfl⟩
    simp only [List.mem_cons, List.not_mem_nil, or_false] at hc
    rcases hc with rfl | rfl | rfl | rfl
    exacts [⟨0, by decide, rfl⟩, ⟨1, by decide, rfl⟩, ⟨2, by decide, rfl⟩, ⟨3, by decide, rfl⟩]
  · rintro ⟨k, hk, rfl⟩
    interval_cases k <;> simp

theorem halfCells_inAccess (a : Word) (v) (b) : (∃ c ∈ halfCells a v, b = c.1) ↔ InAccess a 2 b := by
  simp only [halfCells, InAccess]
  constructor
  · rintro ⟨c, hc, rfl⟩
    simp only [List.mem_cons, List.not_mem_nil, or_false] at hc
    rcases hc with rfl | rfl
    exacts [⟨0, by decide, rfl⟩, ⟨1, by decide, rfl⟩]
  · rintro ⟨k, hk, rfl⟩
    interval_cases k <;> simp

theorem byteCell_inAccess (a : Word) (v) (b) : (∃ c ∈ [((busAddr a 0, v) : Host.Cell)], b = c.1) ↔ InAccess a 1 b := by
  simp only [InAccess]
  constructor
  · rintro ⟨c, hc, rfl⟩
    simp only [List.mem_cons, List.not_mem_nil, or_false] at hc
    subst hc
    exact ⟨0, by decide, rfl⟩
  · rintro ⟨k, hk, rfl⟩
    interval_cases k; simp

/-- A long write to memory, whole. -/
theorem storesLong_poke (s : State) (a v : Word) : StoresLong s (s.poke (longCells a v)) a v :=
  ⟨⟨keepsRegs_of rfl rfl, rfl, rfl, by simp [KeepsSpecial, State.poke], fun b hb => byteAt_poke_long_ne s a v b hb,
    fun b => mem_poke_stored (longCells_inAccess a v) b⟩, memLong_poke s a v⟩

/-- A plain long write. -/
theorem writeLong_plain {s : State} {a v : Word} (h : PlainLong s a) : writeLong a v s = .next (s.poke (longCells a v)) :=
  writeLongWith_mem ((misaligned_long a).2 h.1) (ctrlIndex_plain h)

/-- A long write to a mapped control register (R304). -/
theorem writeLong_reaches {s : State} {a v : Word} {k} (h : ReachesCtrl s a k) : writeLong a v s = ctrlWrite .inStep k v 0xFFFFFFFF#32 s :=
  writeLongWith_ctrl ((misaligned_long a).2 h.2.2.1) (ctrlIndex_reaches h)

theorem writeLong_misaligned {s : State} {a v : Word} (h : a.toNat % 4 ≠ 0) : writeLong a v s = .refused .misaligned := by
  simp [writeLong, writeLongWith, (misaligned_long_true a).2 h]

theorem plainLong_congr {s t : State} (h : t.cfg = s.cfg) {a} : PlainLong t a ↔ PlainLong s a := by simp only [PlainLong, h]

theorem reachesCtrl_congr {s t : State} (h : t.cfg = s.cfg) {a k} : ReachesCtrl t a k ↔ ReachesCtrl s a k := by simp only [ReachesCtrl, h]

/-! Banks, the control port, interrupts. -/

/-- When a bank update marks the lag (R58). -/
theorem updateBanks_lagPending (why : Cause) (s : State) : (updateBanks why s).lagPending = (s.lagPending || (decide (s.required ≠ s.cur) &&
      (decide (why = .inStep) || s.cfg.lagOnExternalSwap))) := by
  unfold updateBanks
  split
  · next h => simp [h]
  · next h =>
    cases why
    · simp [markBankSwitch, h]
    · simp only [markBankSwitch]
      cases hl : s.cfg.lagOnExternalSwap <;> simp [h]

/-- A second bank update does nothing. -/
theorem updateBanks_idem (why : Cause) (s : State) : updateBanks why (updateBanks why s) = updateBanks why s := by
  rw [updateBanks, required_updateBanks, updateBanks_cur, if_pos rfl]

/-- The masked merge of a control-port write (R288), bit by bit. -/
theorem merged_word {old v mask new : Word} (h : ∀ b, b < 32 → new.getLsbD b = if mask.getLsbD b then v.getLsbD b else old.getLsbD b) :
    (old &&& ~~~ mask) ||| (v &&& mask) = new := by
  apply BitVec.eq_of_getLsbD_eq
  intro i hi
  rw [h i hi]
  simp only [BitVec.getLsbD_or, BitVec.getLsbD_and, BitVec.getLsbD_not, hi]
  cases mask.getLsbD i <;> simp

/-- No level wins while `I` is set or none is both latched and enabled (R327). -/
theorem winner_eq_none {s : State} (h : s.flags.getLsbD 3 = true ∨ (∀ k, k < s.cfg.nlevels → k < 6 → ¬ (s.latch k = true ∧ s.eint k = true))) : s.winner = none := by
  rcases h with h | h
  · exact winner_of_i h
  · simp only [State.winner]
    split
    · rfl
    · rw [List.find?_eq_none]
      intro k hk
      have hk6 : k < 6 := by simp at hk; omega
      simp only [State.pending, Bool.and_eq_true, decide_eq_true_eq]
      rintro ⟨⟨a, b⟩, c⟩
      exact h k a hk6 ⟨b, c⟩

/-- The highest level that is latched and enabled wins (R325). -/
theorem winner_eq_some {s : State} {k : Nat} (hi : s.flags.getLsbD 3 = false) (hn : k < s.cfg.nlevels) (h6 : k < 6)
    (hl : s.latch k = true) (he : s.eint k = true) (hj : ∀ j, k < j → j < s.cfg.nlevels → j < 6 → ¬ (s.latch j = true ∧ s.eint j = true)) :
    s.winner = some k := by
  have hp : s.pending k = true := by simp [State.pending, hn, hl, he]
  have hq : ∀ j, k < j → j < 6 → s.pending j = false := by
    intro j h1 h2
    simp only [State.pending]
    by_cases hh : j < s.cfg.nlevels
    · have := hj j h1 hh h2
      simp only [hh, decide_true, Bool.true_and]
      cases h1 : s.latch j <;> cases h2 : s.eint j <;> first | rfl | exact absurd ⟨h1, h2⟩ this
    · simp [hh]
  simp only [State.winner, State.i, hi]
  interval_cases k
  · simp [List.find?, hp, hq 1, hq 2, hq 3, hq 4, hq 5]
  · simp [List.find?, hp, hq 2, hq 3, hq 4, hq 5]
  · simp [List.find?, hp, hq 3, hq 4, hq 5]
  · simp [List.find?, hp, hq 4, hq 5]
  · simp [List.find?, hp, hq 5]
  · simp [List.find?, hp]

/-- An entry whose push is a plain long write, whole (R327 to R331). -/
theorem checkIrqs_takes {s : State} {why : Cause} {k : Nat} (hw : s.winner = some k) (hp : PlainLong s (s.reg .b0 31#5 - 4#32)) :
    checkIrqs why s = .next { (((updateBanks why (s.setI true)).setReg .b0 31#5 (s.reg .b0 31#5 - 4#32)).poke (longCells (s.reg .b0 31#5 - 4#32) (s.pc - 2#32))) with
      pc := s.cfg.vectorBase + BitVec.ofNat 32 (16 * k) } := by
  simp only [checkIrqs, checkIrqsAt, hw, takeInterrupt]
  have hr : (updateBanks why (s.setI true)).reg .b0 31#5 = s.reg .b0 31#5 := by
    rw [reg_updateBanks]; exact reg_congr rfl rfl _ _
  have hc : ((updateBanks why (s.setI true)).setReg .b0 31#5 (s.reg .b0 31#5 - 4#32)).cfg = s.cfg := by simp [State.setI]
  have hpc : ((updateBanks why (s.setI true)).setReg .b0 31#5 (s.reg .b0 31#5 - 4#32)).pc = s.pc := by simp [State.setI]
  rw [hr, writeLongWith_mem ((misaligned_long _).2 hp.1) (ctrlIndex_plain ((plainLong_congr hc).2 hp)), andThen_next, hpc]
  have : (((updateBanks why (s.setI true)).setReg .b0 31#5 (s.reg .b0 31#5 - 4#32)).poke (longCells (s.reg .b0 31#5 - 4#32) (s.pc - 2#32))).cfg = s.cfg := hc
  rw [this]

end Sys2Proof.Machine
end

