-- ==== Sys2Proof/Laws/Steps.lean ====
section
/-! SUPPORT. The loops of `IMULTN` and `MMULT`, said once, and a step that runs one instruction. -/

namespace Sys2Proof.Machine

/-- The signed low half, in the terms of Safety.lean. -/
theorem s16_eq_lowSigned (v : Word) : s16 v = lowSigned v := by
  rfl

/-- An address is odd. -/
theorem getLsbD_zero_eq (a : Word) : a.getLsbD 0 = decide (a.toNat % 2 = 1) := by
  simp only [BitVec.getLsbD, Nat.testBit_zero]

/-- The absorb loop over a chain that ends inside its look-ahead (R173): the products are added, one `RESMAC` is executed. -/
theorem absorb_spec (n : Nat) : ∀ (ops : List (Reg × Reg)) (s : State) (w : Half), ops.length < n →
    (∀ k (h : k < ops.length), s.fetchWord (s.pc + BitVec.ofNat 32 (2 * k)) = .ok (opWord 20#6 ops[k].1 ops[k].2)) →
    s.fetchWord (s.pc + BitVec.ofNat 32 (2 * ops.length)) = .ok w → opcOf w ≠ 20#6 →
    absorb n s = (let u : State := { s with acc := s.acc + BitVec.ofInt 64 (ops.map fun q => s.product q.1 q.2).sum, pc := s.pc + BitVec.ofNat 32 (2 * ops.length) }
      if opcOf w = resmacOpc then .next (u.deliver (f2Of w)).skipWord else .next u) := by
  induction n with
  | zero => intro ops s w h; omega
  | succ n ih =>
    intro ops s w hl hops hw hne
    cases ops with
    | nil =>
      simp at hw
      simp only [absorb, hw]
      rw [if_neg (show opcOf w ≠ imacnOpc from hne)]
      simp
    | cons q ops =>
      have h0 := hops 0 (by simp)
      simp at h0
      simp only [absorb, h0, opcOf_opWord, f1Of_opWord, f2Of_opWord]
      rw [if_pos (show (20#6) = imacnOpc from rfl)]
      have e : ∀ k : Nat, s.pc + 2#32 + BitVec.ofNat 32 (2 * k) = s.pc + BitVec.ofNat 32 (2 * (k + 1)) := by
        intro k
        rw [BitVec.add_assoc]; congr 1
        apply BitVec.eq_of_toNat_eq; simp [BitVec.toNat_add]; omega
      have g1 : ∀ k (h : k < ops.length), (s.accumulate q.1 q.2).skipWord.fetchWord ((s.accumulate q.1 q.2).skipWord.pc + BitVec.ofNat 32 (2 * k)) = .ok (opWord 20#6 ops[k].1 ops[k].2) := by
        intro k hk
        have := hops (k + 1) (by simpa using hk)
        show s.fetchWord (s.pc + 2#32 + BitVec.ofNat 32 (2 * k)) = _
        rw [e]; exact this
      have g2 : (s.accumulate q.1 q.2).skipWord.fetchWord ((s.accumulate q.1 q.2).skipWord.pc + BitVec.ofNat 32 (2 * ops.length)) = .ok w := by
        show s.fetchWord (s.pc + 2#32 + BitVec.ofNat 32 (2 * ops.length)) = _
        rw [e]; exact hw
      rw [ih ops _ w (by simp at hl; omega) g1 g2 hne]
      · have ha : s.acc + BitVec.ofInt 64 (s.product q.1 q.2) + BitVec.ofInt 64 (ops.map fun q => s.product q.1 q.2).sum = s.acc + BitVec.ofInt 64 ((q :: ops).map fun q => s.product q.1 q.2).sum := by
          rw [List.map_cons, List.sum_cons, BitVec.ofInt_add, BitVec.add_assoc]
        simp only [State.accumulate, State.skipWord, e, State.product, State.x, List.length_cons] at ha ⊢
        show (if _ then _ else _) = _
        have hr : ∀ (b : Bank) (r : Reg) (a : Acc) (p : Word), State.reg { s with acc := a, pc := p } b r = s.reg b r := fun b r a p => reg_congr rfl rfl b r
        simp only [hr, ha]

/-- The absorb loop where the fetch of the word after `IMACN` words is refused (R173, R90). -/
theorem absorb_refused (n : Nat) : ∀ (ops : List (Reg × Reg)) (s : State) (r : Refusal), ops.length < n →
    (∀ k (h : k < ops.length), s.fetchWord (s.pc + BitVec.ofNat 32 (2 * k)) = .ok (opWord 20#6 ops[k].1 ops[k].2)) →
    s.fetchWord (s.pc + BitVec.ofNat 32 (2 * ops.length)) = .error r → absorb n s = .refused r := by
  induction n with
  | zero => intro ops s r h; omega
  | succ n ih =>
    intro ops s r hl hops hr
    cases ops with
    | nil =>
      simp at hr
      simp only [absorb, hr]
    | cons q ops =>
      have h0 := hops 0 (by simp)
      simp at h0
      simp only [absorb, h0, opcOf_opWord, f1Of_opWord, f2Of_opWord]
      rw [if_pos (show (20#6) = imacnOpc from rfl)]
      have e : ∀ k : Nat, s.pc + 2#32 + BitVec.ofNat 32 (2 * k) = s.pc + BitVec.ofNat 32 (2 * (k + 1)) := by
        intro k
        rw [BitVec.add_assoc]; congr 1
        apply BitVec.eq_of_toNat_eq; simp [BitVec.toNat_add]; omega
      refine ih ops _ r (by simp at hl; omega) (fun k hk => ?_) ?_
      · show s.fetchWord (s.pc + 2#32 + BitVec.ofNat 32 (2 * k)) = _
        rw [e]; exact hops (k + 1) (by simpa using hk)
      · show s.fetchWord (s.pc + 2#32 + BitVec.ofNat 32 (2 * ops.length)) = _
        rw [e]; exact hr

/-- Fetches at the same bus address of the same parity agree (R71, R74). -/
theorem fetchWord_congr {s : State} {a b : Word} (h : a.toNat % 2 ^ 24 = b.toNat % 2 ^ 24) : s.fetchWord a = s.fetchWord b := by
  have hb : a.getLsbD 0 = b.getLsbD 0 := by simp only [getLsbD_zero_eq]; congr 1; rw [eq_iff_iff]; omega
  simp only [State.fetchWord, State.memHalf, hb, busAddr_congr h]

/-- A chain that is followed by a word of another kind, or by a refused fetch, is shorter than the look-ahead. -/
theorem chain_short {s : State} {ops : List (Reg × Reg)}
    (hops : ∀ k (h : k < ops.length), s.fetchWord (s.pc + BitVec.ofNat 32 (2 * k)) = .ok (opWord 20#6 ops[k].1 ops[k].2))
    (hne : ∀ w, s.fetchWord (s.pc + BitVec.ofNat 32 (2 * ops.length)) = .ok w → opcOf w ≠ 20#6) : ops.length < chainFuel := by
  by_contra hh
  have hlt : ops.length % 2 ^ 23 < ops.length := by
    have : ops.length % 2 ^ 23 < 2 ^ 23 := Nat.mod_lt _ (by decide)
    unfold chainFuel at hh; omega
  have h1 := hops _ hlt
  rw [fetchWord_congr (b := s.pc + BitVec.ofNat 32 (2 * ops.length))] at h1
  · exact hne _ h1 (by rw [opcOf_opWord])
  · simp only [BitVec.toNat_add, BitVec.toNat_ofNat]; omega

/-- A product of two halves. -/
theorem product_bounds (s : State) (a b : Reg) : -(2 ^ 30) ≤ s.product a b ∧ s.product a b ≤ 2 ^ 30 := by
  have h : ∀ v : Word, -(2 ^ 15) ≤ s16 v ∧ s16 v < 2 ^ 15 := by
    intro v
    rw [s16_eq_lowSigned]
    have := BitVec.le_toInt (v.setWidth 16); have := BitVec.toInt_lt (x := v.setWidth 16)
    simp only [lowSigned]; omega
  have h1 := h (s.x a); have h2 := h (s.x b)
  simp only [State.product]
  constructor <;> nlinarith

theorem readHalf_even {s : State} {a : Word} (h2 : a.toNat % 2 = 0) (hm : MissesCtrl s a 2) : s.readHalf a = .ok (s.memHalf a) :=
  readHalf_eq_ok.2 ⟨by simp [misaligned, h2], missesCtrl_iff.1 hm, rfl⟩

/-- The sum of `MMULT` over its first `m` elements, none of which stops it (R177). -/
theorem mtxSum_prefix {s : State} {rs : Reg} {stride : Nat} (hs : stride = s.mtxStride) (addr : Nat → Word)
    (ha : ∀ i, addr i = s.mtxa + BitVec.ofNat 32 (stride * i)) (m : Nat) : ∀ (todo j : Nat) (sum : Int),
    (∀ i, j ≤ i → i < j + m → rs.toNat + i / 2 ≤ 31 ∧ (addr i).toNat % 2 = 0 ∧ MissesCtrl s (addr i) 2) →
    s.mtxSum rs (m + todo) j (addr j) sum = s.mtxSum rs todo (j + m) (addr (j + m)) (sum + ∑ i ∈ Finset.range m, (s.mtxElement rs (j + i)).toInt * (s.memHalf (addr (j + i))).toInt) := by
  induction m with
  | zero => intro todo j sum _; simp
  | succ m ih =>
    intro todo j sum h
    obtain ⟨h1, h2, h3⟩ := h j (by omega) (by omega)
    have hn : addr j + BitVec.ofNat 32 s.mtxStride = addr (j + 1) := by
      rw [ha, ha, BitVec.add_assoc, ← hs]; congr 1
      apply BitVec.eq_of_toNat_eq
      simp only [BitVec.toNat_add, BitVec.toNat_ofNat, Nat.mul_add, Nat.mul_one]
      omega
    rw [show m + 1 + todo = (m + todo) + 1 by omega, State.mtxSum, if_neg (by omega), readHalf_even h2 h3]
    simp only [hn]
    rw [ih todo (j + 1) _ (fun i a b => h i (by omega) (by omega)), Finset.sum_range_succ']
    have e1 : ∀ i, j + (i + 1) = j + 1 + i := fun i => by omega
    rw [e1 m]
    congr 1
    have e2 : ∑ i ∈ Finset.range m, (s.mtxElement rs (j + (i + 1))).toInt * (s.memHalf (addr (j + (i + 1)))).toInt =
      ∑ i ∈ Finset.range m, (s.mtxElement rs (j + 1 + i)).toInt * (s.memHalf (addr (j + 1 + i))).toInt := Finset.sum_congr rfl fun i _ => by rw [e1]
    rw [e2, Nat.add_zero]
    ring_nf

/-- A fetch at an even address that nothing forbids. -/
theorem fetchWord_of_even {s : State} {a : Word} (h : a.getLsbD 0 = false)
  (hc : s.cfg.fetchCoherent = true ∨ (busAddr a 0 ∉ s.stored ∧ busAddr a 1 ∉ s.stored)) : s.fetchWord a = .ok (s.memHalf a) := by
  unfold State.fetchWord
  rw [h]
  rcases hc with hc | ⟨h0, h1⟩
  · rw [hc]; rfl
  · simp [h0, h1]

theorem even_add (a : Word) (k : Nat) (h : a.getLsbD 0 = false) : (a + BitVec.ofNat 32 (2 * k)).getLsbD 0 = false := by
  rw [getLsbD_zero_eq] at *
  simp only [decide_eq_false_iff_not] at *
  rw [BitVec.toNat_add, BitVec.toNat_ofNat]
  omega

theorem exec_nodelay {i : Instr} {s t : State} (hn : ∀ a b : BitVec 5, i ≠ .jump a b ∧ i ≠ .jr a b) (h : exec i s = .next t) : t.delay = s.delay := by
  cases hi : Instr.stores i
  · exact ((exec_calm hi h).2.2.2.2 hn).1
  · exact (exec_stores_frame hi h).delay

theorem runSlot_idle {t : State} (h : t.delay = .idle) : runSlot exec t = .next t := by simp [runSlot, h]

/-- With no level about to be taken the step fetches and runs. -/
theorem step_of_aboutToRun {s : State} (h : AboutToRun s) : step s = fetchAndRun exec s.beginStep := by
  obtain ⟨hr, ha, hw, hd⟩ := h
  simp only [step, turn, ha, coreStep, hr, if_true]
  rw [checkIrqs, checkIrqsAt_of_winner_none hw, andThen_next]

theorem fetchWord_beginStep (s : State) (a : Word) : s.beginStep.fetchWord a = s.fetchWord a := rfl

end Sys2Proof.Machine
end

