-- ==== Sys2Proof/Tests/Slice0.lean ====
section
/-! SUPPORT. Tests of the model against the spec's own numbers: spec/95_test_vectors.md and the worked values of the rules.
Then a witness for the hypotheses of each statement that has any. -/

namespace Sys2Proof.Machine

/-! Small states. -/

/-- A running core of configuration `c`, `pc` 0x1000, these registers of bank 0 and this `FLAGS`. -/
def given (c : Config) (rs : List (Reg × Word)) (flags : Word) : State :=
  rs.foldl (fun s p => s.setX p.1 p.2) { State.resetOf c with pc := 0x1000#32, flags := flags, ctrl := 1#32 }

/-- Words placed at `pc`. -/
def placed (ws : List Half) (s : State) : State := s.load s.pc (ws.flatMap bytesOfHalf)

/-- One step with these words at `pc`. -/
def runs (ws : List Half) (s : State) : Res := step (placed ws s)

/-- The longs of spec/95_test_vectors.md section 2.6, in memory. -/
def filled (s : State) : State :=
  [(0x4000#32, 0x11223344#32), (0x4004#32, 0x55667788#32), (0xF03100#32, 0xAABBCCDD#32),
    (0xF03104#32, 0x99887766#32)].foldl (fun s p => s.poke (longCells p.1 p.2)) s

/-- The outcome is a next state, and `f` holds of it. -/
def nextWith (o : Res) (f : State → Bool) : Bool :=
  match o with
  | .next t => f t
  | _ => false

/-- The outcome is a next state of which `f` holds. -/
abbrev gives (o : Res) (f : State → Bool) : Prop := nextWith o f = true

/-- The outcome is this refusal. -/
abbrev refuses (o : Res) (r : Refusal) : Prop :=
  (match o with
    | .refused r' => r' == r
    | _ => false) = true

/-- Both variants read the word as the instruction. -/
abbrev BothRead (w : Half) (i : Instr) : Prop := decodeWord .gpu w 0#32 = .ok i ∧ decodeWord .dsp w 0#32 = .ok i

/-- One variant reads the word as the instruction, and it is an instruction of that variant alone. -/
abbrev OneReads (v : Variant) (w : Half) (i : Instr) : Prop := decodeWord v w 0#32 = .ok i ∧ i.onlyOn = some v

/-! Well-formedness: an ill-formed term for each check. -/

theorem test_not_on_the_dsp :
    [Instr.sat8 1#5, .sat16 1#5, .loadp 1#5 2#5, .storep 1#5 2#5, .sat24 1#5, .pack 1#5, .unpack 1#5].all
      (fun i => !i.wf .dsp && i.wf .gpu) = true := by decide

theorem test_not_on_the_gpu :
    [Instr.subqmod 1#5 2#5, .sat16s 1#5, .sat32s 1#5, .mirror 1#5, .illegal, .addqmod 1#5 2#5].all
      (fun i => !i.wf .gpu && i.wf .dsp) = true := by decide

/-! Decoding: the words of the opcode table with `f1` 3 and `f2` 21 (spec/30_encoding.md R102, R108). -/

theorem test_arithmetic_words :
    BothRead 0b000000_00011_10101#16 (.add 3#5 21#5) ∧
    BothRead 0b000001_00011_10101#16 (.addc 3#5 21#5) ∧
    BothRead 0b000010_00011_10101#16 (.addq 3#5 21#5) ∧
    BothRead 0b000011_00011_10101#16 (.addqt 3#5 21#5) ∧
    BothRead 0b000100_00011_10101#16 (.sub 3#5 21#5) ∧
    BothRead 0b000101_00011_10101#16 (.subc 3#5 21#5) ∧
    BothRead 0b000110_00011_10101#16 (.subq 3#5 21#5) ∧
    BothRead 0b000111_00011_10101#16 (.subqt 3#5 21#5) ∧
    BothRead 0b001000_00011_10101#16 (.neg 21#5) ∧
    BothRead 0b011110_00011_10101#16 (.cmp 3#5 21#5) ∧
    BothRead 0b011111_00011_10101#16 (.cmpq 3#5 21#5) := by decide

theorem test_logic_words :
    BothRead 0b001001_00011_10101#16 (.and 3#5 21#5) ∧
    BothRead 0b001010_00011_10101#16 (.or 3#5 21#5) ∧
    BothRead 0b001011_00011_10101#16 (.xor 3#5 21#5) ∧
    BothRead 0b001100_00011_10101#16 (.not 21#5) ∧
    BothRead 0b001101_00011_10101#16 (.btst 3#5 21#5) ∧
    BothRead 0b001110_00011_10101#16 (.bset 3#5 21#5) ∧
    BothRead 0b001111_00011_10101#16 (.bclr 3#5 21#5) := by decide

theorem test_multiply_words :
    BothRead 0b010000_00011_10101#16 (.mult 3#5 21#5) ∧
    BothRead 0b010001_00011_10101#16 (.imult 3#5 21#5) ∧
    BothRead 0b010010_00011_10101#16 (.imultn 3#5 21#5) ∧
    BothRead 0b010011_00011_10101#16 (.resmac 21#5) ∧
    BothRead 0b010100_00011_10101#16 (.imacn 3#5 21#5) ∧
    BothRead 0b010101_00011_10101#16 (.div 3#5 21#5) := by decide

theorem test_shift_words :
    BothRead 0b010110_00011_10101#16 (.abs 21#5) ∧
    BothRead 0b010111_00011_10101#16 (.sh 3#5 21#5) ∧
    BothRead 0b011000_00011_10101#16 (.shlq 3#5 21#5) ∧
    BothRead 0b011001_00011_10101#16 (.shrq 3#5 21#5) ∧
    BothRead 0b011010_00011_10101#16 (.sha 3#5 21#5) ∧
    BothRead 0b011011_00011_10101#16 (.sharq 3#5 21#5) ∧
    BothRead 0b011100_00011_10101#16 (.ror 3#5 21#5) ∧
    BothRead 0b011101_00011_10101#16 (.rorq 3#5 21#5) := by decide

theorem test_move_words :
    BothRead 0b100010_00011_10101#16 (.move 3#5 21#5) ∧
    BothRead 0b100011_00011_10101#16 (.moveq 3#5 21#5) ∧
    BothRead 0b100100_00011_10101#16 (.moveta 3#5 21#5) ∧
    BothRead 0b100101_00011_10101#16 (.movefa 3#5 21#5) ∧
    BothRead 0b110011_00011_10101#16 (.movePc 21#5) ∧
    BothRead 0b110111_00011_10101#16 (.mtoi 3#5 21#5) ∧
    BothRead 0b111000_00011_10101#16 (.normi 3#5 21#5) := by decide

theorem test_memory_words_1 :
    BothRead 0b100111_00011_10101#16 (.loadb 3#5 21#5) ∧
    BothRead 0b101000_00011_10101#16 (.loadw 3#5 21#5) ∧
    BothRead 0b101001_00011_10101#16 (.load 3#5 21#5) ∧
    BothRead 0b101011_00011_10101#16 (.loadR14n 3#5 21#5) ∧
    BothRead 0b101100_00011_10101#16 (.loadR15n 3#5 21#5) ∧
    BothRead 0b101101_00011_10101#16 (.storeb 3#5 21#5) ∧
    BothRead 0b101110_00011_10101#16 (.storew 3#5 21#5) ∧
    BothRead 0b101111_00011_10101#16 (.store 3#5 21#5) ∧
    BothRead 0b110001_00011_10101#16 (.storeR14n 3#5 21#5) ∧
    BothRead 0b110010_00011_10101#16 (.storeR15n 3#5 21#5) ∧
    BothRead 0b111010_00011_10101#16 (.loadR14r 3#5 21#5) ∧
    BothRead 0b111011_00011_10101#16 (.loadR15r 3#5 21#5) := by decide

theorem test_memory_words_2 :
    BothRead 0b111100_00011_10101#16 (.storeR14r 3#5 21#5) ∧
    BothRead 0b111101_00011_10101#16 (.storeR15r 3#5 21#5) := by decide

theorem test_branch_words :
    BothRead 0b110100_00011_10101#16 (.jump 3#5 21#5) ∧
    BothRead 0b110101_00011_10101#16 (.jr 3#5 21#5) ∧
    BothRead 0b110110_00011_10101#16 (.mmult 3#5 21#5) ∧
    BothRead 0b111001_00011_10101#16 .nop := by decide

theorem test_variant_words :
    OneReads .dsp 0b100000_00011_10101#16 (.subqmod 3#5 21#5) ∧
    OneReads .gpu 0b100000_00011_10101#16 (.sat8 21#5) ∧
    OneReads .dsp 0b100001_00011_10101#16 (.sat16s 21#5) ∧
    OneReads .gpu 0b100001_00011_10101#16 (.sat16 21#5) ∧
    OneReads .dsp 0b101010_00011_10101#16 (.sat32s 21#5) ∧
    OneReads .gpu 0b101010_00011_10101#16 (.loadp 3#5 21#5) ∧
    OneReads .dsp 0b110000_00011_10101#16 (.mirror 21#5) ∧
    OneReads .gpu 0b110000_00011_10101#16 (.storep 3#5 21#5) ∧
    OneReads .dsp 0b111110_00011_10101#16 .illegal ∧
    OneReads .gpu 0b111110_00011_10101#16 (.sat24 21#5) ∧
    OneReads .dsp 0b111111_00011_10101#16 (.addqmod 3#5 21#5) ∧
    OneReads .gpu 0b111111_00000_10101#16 (.pack 21#5) ∧
    OneReads .gpu 0b111111_00001_10101#16 (.unpack 21#5) := by decide

theorem test_movei_word :
    decode .gpu [0b10011000#8, 0b01110101#8, 0x56#8, 0x78#8, 0x12#8, 0x34#8, 0xE4#8] =
      .ok (.movei 0x12345678#32 21#5, [0xE4#8]) := by decide

theorem test_reserved_word : decode .gpu [0xFC#8, 0x42#8] = .error (.reserved .packSelector) := by decide

theorem test_truncated : decode .dsp [0x98#8, 0x02#8, 0x56#8, 0x78#8, 0x12#8] = .error .truncated := by decide

theorem test_table_word : decodeTableWord 16 0x0022 = some (.add 1#5 2#5) := by decide

theorem test_table_word_movei : decodeTableWord 48 0x123456789802 = some (.movei 0x12345678#32 2#5) := by decide

theorem test_fetch_word_after_reset :
    gives (step (State.reset.withFetchWord 48 0x123456789802)) (fun t => t.x 2#5 == 0x12345678#32 && t.pc == 6#32) := by
  decide

/-! Arithmetic, multiply, divide, shifts, saturation, moves: spec/95_test_vectors.md sections 2.1 to 2.5, 2.8, 2.9. -/

theorem test_add_carry :
    gives (runs [0x0022#16] (given .gpu [(1#5, 1#32), (2#5, 0xFFFFFFFF#32)] 0#32))
      (fun t => t.x 2#5 == 0#32 && t.z && t.c && !t.n && t.pc == 0x1002#32) := by decide

theorem test_addc_keeps_carry_out :
    gives (runs [0x0422#16] (given .gpu [(1#5, 0xFFFFFFFF#32), (2#5, 0#32)] 2#32))
      (fun t => t.x 2#5 == 0#32 && t.z && t.c && !t.n && t.pc == 0x1002#32) := by decide

theorem test_addc_zero :
    gives (runs [0x0422#16] (given .gpu [(1#5, 0#32), (2#5, 0xFFFFFFFF#32)] 2#32))
      (fun t => t.x 2#5 == 0#32 && t.z && t.c && !t.n && t.pc == 0x1002#32) := by decide

theorem test_addq_field_zero_is_32 :
    gives (runs [0x0802#16] (given .gpu [(2#5, 0xFFFFFFE0#32)] 0#32))
      (fun t => t.x 2#5 == 0#32 && t.z && t.c && !t.n && t.pc == 0x1002#32) := by decide

theorem test_addqt_keeps_flags :
    gives (runs [0x0C02#16] (given .gpu [(2#5, 0xFFFFFFE0#32)] 5#32))
      (fun t => t.x 2#5 == 0#32 && t.z && !t.c && t.n && t.pc == 0x1002#32) := by decide

theorem test_sub_borrow :
    gives (runs [0x1022#16] (given .gpu [(1#5, 1#32), (2#5, 0#32)] 0#32))
      (fun t => t.x 2#5 == 0xFFFFFFFF#32 && !t.z && t.c && t.n && t.pc == 0x1002#32) := by decide

theorem test_subc_full_borrow :
    gives (runs [0x1422#16] (given .gpu [(1#5, 0xFFFFFFFF#32), (2#5, 0#32)] 2#32))
      (fun t => t.x 2#5 == 0#32 && t.z && t.c && !t.n && t.pc == 0x1002#32) := by decide

theorem test_subc_no_borrow :
    gives (runs [0x1422#16] (given .gpu [(1#5, 3#32), (2#5, 10#32)] 2#32))
      (fun t => t.x 2#5 == 6#32 && !t.z && !t.c && !t.n && t.pc == 0x1002#32) := by decide

theorem test_subq_field_zero_is_32 :
    gives (runs [0x1802#16] (given .gpu [(2#5, 0x20#32)] 0#32))
      (fun t => t.x 2#5 == 0#32 && t.z && !t.c && !t.n && t.pc == 0x1002#32) := by decide

theorem test_subqt_keeps_flags :
    gives (runs [0x1FE2#16] (given .gpu [(2#5, 30#32)] 1#32))
      (fun t => t.x 2#5 == 0xFFFFFFFF#32 && t.z && !t.c && !t.n && t.pc == 0x1002#32) := by decide

theorem test_neg_borrow :
    gives (runs [0x2002#16] (given .gpu [(2#5, 1#32)] 0#32))
      (fun t => t.x 2#5 == 0xFFFFFFFF#32 && !t.z && t.c && t.n && t.pc == 0x1002#32) := by decide

theorem test_neg_zero :
    gives (runs [0x2002#16] (given .gpu [(2#5, 0#32)] 6#32))
      (fun t => t.x 2#5 == 0#32 && t.z && !t.c && !t.n && t.pc == 0x1002#32) := by decide

theorem test_cmp_borrow :
    gives (runs [0x7822#16] (given .gpu [(1#5, 6#32), (2#5, 5#32)] 0#32))
      (fun t => !t.z && t.c && t.n && t.pc == 0x1002#32) := by decide

theorem test_cmpq_sign_extends :
    gives (runs [0x7E02#16] (given .gpu [(2#5, 0#32)] 0#32))
      (fun t => !t.z && t.c && !t.n && t.pc == 0x1002#32) := by decide

theorem test_abs_sign_to_carry :
    gives (runs [0x5802#16] (given .gpu [(2#5, 0xFFFFFFFB#32)] 4#32))
      (fun t => t.x 2#5 == 5#32 && !t.z && t.c && !t.n && t.pc == 0x1002#32) := by decide

theorem test_abs_most_negative :
    gives (runs [0x5802#16] (given .gpu [(2#5, 0x80000000#32)] 0#32))
      (fun t => t.x 2#5 == 0x80000000#32 && !t.z && t.c && !t.n && t.pc == 0x1002#32) := by decide

theorem test_and_sign :
    gives (runs [0x2422#16] (given .gpu [(1#5, 0xFF00FF00#32), (2#5, 0x81234567#32)] 0#32))
      (fun t => t.x 2#5 == 0x81004500#32 && !t.z && !t.c && t.n && t.pc == 0x1002#32) := by decide

theorem test_or_keeps_carry :
    gives (runs [0x2822#16] (given .gpu [(1#5, 0#32), (2#5, 0#32)] 2#32))
      (fun t => t.x 2#5 == 0#32 && t.z && t.c && !t.n && t.pc == 0x1002#32) := by decide

theorem test_xor_same_register :
    gives (runs [0x2C42#16] (given .gpu [(2#5, 0x12345678#32)] 6#32))
      (fun t => t.x 2#5 == 0#32 && t.z && t.c && !t.n && t.pc == 0x1002#32) := by decide

theorem test_not_keeps_carry :
    gives (runs [0x3002#16] (given .gpu [(2#5, 0xFFFFFFFF#32)] 2#32))
      (fun t => t.x 2#5 == 0#32 && t.z && t.c && !t.n && t.pc == 0x1002#32) := by decide

theorem test_btst_z_alone :
    gives (runs [0x37E2#16] (given .gpu [(2#5, 0x80000000#32)] 6#32))
      (fun t => !t.z && t.c && t.n && t.pc == 0x1002#32) := by decide

theorem test_bset_bit_31 :
    gives (runs [0x3BE2#16] (given .gpu [(2#5, 0#32)] 2#32))
      (fun t => t.x 2#5 == 0x80000000#32 && !t.z && t.c && t.n && t.pc == 0x1002#32) := by decide

theorem test_bclr_to_zero :
    gives (runs [0x3C62#16] (given .gpu [(2#5, 8#32)] 2#32))
      (fun t => t.x 2#5 == 0#32 && t.z && t.c && !t.n && t.pc == 0x1002#32) := by decide

theorem test_mult_unsigned :
    gives (runs [0x4022#16] (given .gpu [(1#5, 0xFFFFFFFF#32), (2#5, 0xFFFFFFFF#32)] 2#32))
      (fun t => t.x 2#5 == 0xFFFE0001#32 && !t.z && t.c && t.n && t.pc == 0x1002#32) := by decide

theorem test_imult_signed :
    gives (runs [0x4422#16] (given .gpu [(1#5, 0x8000#32), (2#5, 0x7FFF#32)] 0#32))
      (fun t => t.x 2#5 == 0xC0008000#32 && !t.z && !t.c && t.n && t.pc == 0x1002#32) := by decide

theorem test_imultn_alone :
    gives (runs [0x4822#16] ({ given .gpu [(1#5, 0xFFFF#32), (2#5, 1#32)] 0#32 with acc := 0x123456789#64 }))
      (fun t => t.acc == 0xFFFFFFFFFFFFFFFF#64 && t.x 2#5 == 1#32 && !t.z && !t.c && t.n && t.pc == 0x1002#32) := by decide

theorem test_imultn_chain :
    gives (runs [0x4821#16, 0x5021#16, 0x5021#16, 0x5021#16, 0x5021#16, 0x4C07#16] (given .gpu [(1#5, 0x7FFF#32)] 0#32))
      (fun t => t.acc == 0x13FFB0005#64 && t.x 7#5 == 0x3FFB0005#32 && t.pc == 0x100C#32) := by decide

theorem test_imacn_wraps_64_bits :
    gives (runs [0x5022#16] ({ given .gpu [(1#5, 1#32), (2#5, 1#32)] 0#32 with acc := 0x7FFFFFFFFFFFFFFF#64 }))
      (fun t => t.acc == 0x8000000000000000#64 && t.pc == 0x1002#32) := by decide

theorem test_resmac_low_half :
    gives (runs [0x4C07#16] ({ given .gpu [(7#5, 1#32)] 7#32 with acc := 0xFFFFFFFF80000001#64 }))
      (fun t => t.x 7#5 == 0x80000001#32 && t.z && t.c && t.n && t.pc == 0x1002#32) := by decide

theorem test_div_by_zero :
    gives (runs [0x5422#16] ({ given .gpu [(1#5, 0#32), (2#5, 10#32)] 7#32 with divctrl := 0#32, remainder := 0x1234#32 }))
      (fun t => t.x 2#5 == 0xFFFFFFFF#32 && t.remainder == 0x1234#32 && t.z && t.c && t.n && t.pc == 0x1002#32) := by decide

theorem test_div_fixed_point :
    gives (runs [0x5422#16] ({ given .gpu [(1#5, 0x30000#32), (2#5, 0x10000#32)] 0#32 with divctrl := 1#32 }))
      (fun t => t.x 2#5 == 0x5555#32 && t.remainder == 0x10000#32 && t.pc == 0x1002#32) := by decide

theorem test_sh_left :
    gives (runs [0x5C22#16] (given .gpu [(1#5, 0xFFFFFFFC#32), (2#5, 0x80000011#32)] 0#32))
      (fun t => t.x 2#5 == 0x110#32 && !t.z && t.c && !t.n && t.pc == 0x1002#32) := by decide

theorem test_sh_right_32 :
    gives (runs [0x5C22#16] (given .gpu [(1#5, 0x20#32), (2#5, 0x80000011#32)] 0#32))
      (fun t => t.x 2#5 == 0#32 && t.z && t.c && !t.n && t.pc == 0x1002#32) := by decide

theorem test_sha_left :
    gives (runs [0x6822#16] (given .gpu [(1#5, 0xFFFFFFFC#32), (2#5, 0x80000011#32)] 0#32))
      (fun t => t.x 2#5 == 0x110#32 && !t.z && t.c && !t.n && t.pc == 0x1002#32) := by decide

theorem test_sha_right_32 :
    gives (runs [0x6822#16] (given .gpu [(1#5, 0x20#32), (2#5, 0x7FFFFFFF#32)] 0#32))
      (fun t => t.x 2#5 == 0#32 && t.z && t.c && !t.n && t.pc == 0x1002#32) := by decide

theorem test_shlq_field_is_distance :
    gives (runs [0x6382#16] (given .gpu [(2#5, 0x80000011#32)] 0#32))
      (fun t => t.x 2#5 == 0x110#32 && !t.z && t.c && !t.n && t.pc == 0x1002#32) := by decide

theorem test_shlq_field_zero_shifts_by_0 :
    gives (runs [0x6002#16] (given .gpu [(2#5, 0x80000011#32)] 0#32))
      (fun t => t.x 2#5 == 0x80000011#32 && !t.z && t.c && t.n && t.pc == 0x1002#32) := by decide

theorem test_shrq_field_zero_is_32 :
    gives (runs [0x6402#16] (given .gpu [(2#5, 0x80000011#32)] 0#32))
      (fun t => t.x 2#5 == 0#32 && t.z && t.c && !t.n && t.pc == 0x1002#32) := by decide

theorem test_sharq_32 :
    gives (runs [0x6C02#16] (given .gpu [(2#5, 0x80000010#32)] 0#32))
      (fun t => t.x 2#5 == 0xFFFFFFFF#32 && !t.z && !t.c && t.n && t.pc == 0x1002#32) := by decide

theorem test_ror_carry_is_old_sign :
    gives (runs [0x7022#16] (given .gpu [(1#5, 4#32), (2#5, 0x80000011#32)] 0#32))
      (fun t => t.x 2#5 == 0x18000001#32 && !t.z && t.c && !t.n && t.pc == 0x1002#32) := by decide

theorem test_rorq_32 :
    gives (runs [0x7402#16] (given .gpu [(2#5, 17#32)] 2#32))
      (fun t => t.x 2#5 == 17#32 && !t.z && !t.c && !t.n && t.pc == 0x1002#32) := by decide

theorem test_sat8_above :
    gives (runs [0x8002#16] (given .gpu [(2#5, 0x100#32)] 0#32))
      (fun t => t.x 2#5 == 0xFF#32 && t.pc == 0x1002#32) := by decide

theorem test_sat8_negative :
    gives (runs [0x8002#16] (given .gpu [(2#5, 0x80000000#32)] 0#32))
      (fun t => t.x 2#5 == 0#32 && t.z && t.pc == 0x1002#32) := by decide

theorem test_sat16_above :
    gives (runs [0x8402#16] (given .gpu [(2#5, 0x10000#32)] 0#32))
      (fun t => t.x 2#5 == 0xFFFF#32 && t.pc == 0x1002#32) := by decide

theorem test_sat24_negative :
    gives (runs [0xF802#16] (given .gpu [(2#5, 0x80000000#32)] 0#32))
      (fun t => t.x 2#5 == 0#32 && t.z && t.pc == 0x1002#32) := by decide

theorem test_sat16s_below :
    gives (runs [0x8402#16] (given .dsp [(2#5, 0xFFFF7FFF#32)] 0#32))
      (fun t => t.x 2#5 == 0xFFFF8000#32 && t.n && t.pc == 0x1002#32) := by decide

theorem test_sat32s_above :
    gives (runs [0xA802#16] ({ given .dsp [(2#5, 0x37#32)] 0#32 with acc := 0x100000000#64 }))
      (fun t => t.x 2#5 == 0x7FFFFFFF#32 && t.pc == 0x1002#32) := by decide

theorem test_sat32s_keeps :
    gives (runs [0xA802#16] ({ given .dsp [(2#5, 0x37#32)] 0#32 with acc := 0xFFFFFFFF00000000#64 }))
      (fun t => t.x 2#5 == 0x37#32 && t.pc == 0x1002#32) := by decide

theorem test_mirror :
    gives (runs [0xC002#16] (given .dsp [(2#5, 0x12345678#32)] 0#32))
      (fun t => t.x 2#5 == 0x1E6A2C48#32 && t.pc == 0x1002#32) := by decide

theorem test_pack :
    gives (runs [0xFC02#16] (given .gpu [(2#5, 0x12345678#32)] 0#32))
      (fun t => t.x 2#5 == 0x8278#32 && t.pc == 0x1002#32) := by decide

theorem test_unpack :
    gives (runs [0xFC22#16] (given .gpu [(2#5, 0xFFFFFFFF#32)] 0#32))
      (fun t => t.x 2#5 == 0x3C1E0FF#32 && t.pc == 0x1002#32) := by decide

theorem test_addqmod_wraps_in_mask :
    gives (runs [0xFC22#16] ({ given .dsp [(2#5, 0x1007#32)] 0#32 with hiMod := 0xFFFFFFF8#32 }))
      (fun t => t.x 2#5 == 0x1000#32 && !t.z && !t.c && !t.n && t.pc == 0x1002#32) := by decide

theorem test_subqmod_wraps_in_mask :
    gives (runs [0x8022#16] ({ given .dsp [(2#5, 0x1000#32)] 0#32 with hiMod := 0xFFFFFFF8#32 }))
      (fun t => t.x 2#5 == 0x1007#32 && !t.z && !t.c && !t.n && t.pc == 0x1002#32) := by decide

theorem test_illegal_is_nop :
    gives (runs [0xF862#16] (given .dsp [(2#5, 5#32)] 7#32))
      (fun t => t.pc == 0x1002#32) := by decide

theorem test_move_keeps_flags :
    gives (runs [0x8822#16] (given .gpu [(1#5, 0x80000000#32), (2#5, 1#32)] 1#32))
      (fun t => t.x 2#5 == 0x80000000#32 && t.pc == 0x1002#32) := by decide

theorem test_moveq_31 :
    gives (runs [0x8FE2#16] (given .gpu [] 0#32))
      (fun t => t.x 2#5 == 31#32 && t.pc == 0x1002#32) := by decide

theorem test_moveta_alternate_bank :
    gives (runs [0x9022#16] ((given .gpu [(1#5, 0x1234#32), (2#5, 7#32)] 0#32).setAlt 2#5 9#32))
      (fun t => t.alt 2#5 == 0x1234#32 && t.x 2#5 == 7#32 && t.pc == 0x1002#32) := by decide

theorem test_movefa_alternate_bank :
    gives (runs [0x9422#16] ((given .gpu [(1#5, 0x1234#32)] 0#32).setAlt 1#5 0x99#32))
      (fun t => t.x 2#5 == 0x99#32 && t.pc == 0x1002#32) := by decide

theorem test_movei_low_half_first :
    gives (runs [0x9802#16, 0x5678#16, 0x1234#16] (given .gpu [] 0#32))
      (fun t => t.x 2#5 == 0x12345678#32 && t.pc == 0x1006#32) := by decide

theorem test_move_pc_own_address :
    gives (runs [0xCC02#16] ({ given .gpu [] 0#32 with pc := 0xF03010#32 }))
      (fun t => t.x 2#5 == 0xF03010#32 && t.pc == 0xF03012#32) := by decide

theorem test_mtoi_nine_copies :
    gives (runs [0xDC22#16] (given .gpu [(1#5, 0x80800001#32)] 0#32))
      (fun t => t.x 2#5 == 0xFF800001#32 && t.n && t.pc == 0x1002#32) := by decide

theorem test_normi_of_1 :
    gives (runs [0xE022#16] (given .gpu [(1#5, 1#32)] 0#32))
      (fun t => t.x 2#5 == 0xFFFFFFEA#32 && t.n && t.pc == 0x1002#32) := by decide

theorem test_normi_positive :
    gives (runs [0xE022#16] (given .gpu [(1#5, 0x800000#32)] 0#32))
      (fun t => t.x 2#5 == 1#32 && t.pc == 0x1002#32) := by decide

theorem test_nop_keeps_flags :
    gives (runs [0xE7FF#16] (given .gpu [] 7#32))
      (fun t => t.pc == 0x1002#32) := by decide

/-! The matrix multiply (spec/95_test_vectors.md section 2.3). -/

/-- The register vector 1, 2, 3, -1 at `B1[4]`, the words 10, 20, 30, 40 at 0x2000. -/
def matrix : State :=
  ((({ given .gpu [] 0#32 with mtxc := 4#32, mtxa := 0x2000#32 }.setReg .b1 4#5 0x00010002#32).setReg .b1 5#5
    0x0003FFFF#32).poke (longCells 0x2000#32 0x000A0014#32)).poke (longCells 0x2004#32 0x001E0028#32)

theorem test_mmult : gives (runs [0xD882#16] matrix) (fun t => t.x 2#5 == 100#32 && !t.z && !t.n) := by decide

theorem test_mmult_overrun : refuses (runs [0xDBE2#16] { matrix with mtxc := 3#32 }) .mmultRegisterOverrun := by decide

/-! Loads and stores (spec/95_test_vectors.md section 2.6). -/

theorem test_loadb :
    gives (runs [0x9C22#16] (filled (given .gpu [(1#5, 0x4001#32)] 5#32)))
      (fun t => t.x 2#5 == 0x22#32 && t.flags == 5#32) := by decide

theorem test_loadb_in_window :
    gives (runs [0x9C22#16] (filled (given .gpu [(1#5, 0xF03101#32)] 5#32))) (fun t => t.x 2#5 == 0xAABBCCDD#32) := by
  decide

theorem test_loadw :
    gives (runs [0xA022#16] (filled (given .gpu [(1#5, 0x4002#32)] 0#32))) (fun t => t.x 2#5 == 0x3344#32) := by decide

theorem test_loadw_in_window :
    gives (runs [0xA022#16] (filled (given .gpu [(1#5, 0xF03102#32)] 0#32))) (fun t => t.x 2#5 == 0xAABBCCDD#32) := by
  decide

theorem test_load_high_byte_dropped :
    gives (runs [0xA422#16] (filled (given .gpu [(1#5, 0xFF004004#32)] 0#32))) (fun t => t.x 2#5 == 0x55667788#32) := by
  decide

theorem test_load_misaligned :
    refuses (runs [0xA422#16] (filled (given .gpu [(1#5, 0x4002#32)] 0#32))) .misaligned := by decide

theorem test_loadp :
    gives (runs [0xA822#16] (filled (given .gpu [(1#5, 0x4000#32)] 0#32)))
      (fun t => t.x 2#5 == 0x55667788#32 && t.hiMod == 0x11223344#32) := by decide

theorem test_loadp_in_window :
    gives (runs [0xA822#16] (filled { given .gpu [(1#5, 0xF03100#32)] 0#32 with hiMod := 0xDEAD#32 }))
      (fun t => t.x 2#5 == 0xAABBCCDD#32 && t.hiMod == 0xDEAD#32) := by decide

theorem test_load_r14_quick :
    gives (runs [0xAC22#16] (filled (given .gpu [(14#5, 0x4000#32)] 0#32))) (fun t => t.x 2#5 == 0x55667788#32) := by decide

theorem test_load_r15_quick_31 :
    gives (runs [0xB3E2#16] (filled (given .gpu [(15#5, 0x3F88#32)] 0#32))) (fun t => t.x 2#5 == 0x55667788#32) := by decide

theorem test_load_r14_register :
    gives (runs [0xE862#16] (filled (given .gpu [(14#5, 0xFFFFFFFC#32), (3#5, 0x4008#32)] 0#32)))
      (fun t => t.x 2#5 == 0x55667788#32) := by decide

theorem test_load_r15_register :
    gives (runs [0xEC62#16] (filled (given .gpu [(15#5, 0x4000#32), (3#5, 4#32)] 0#32)))
      (fun t => t.x 2#5 == 0x55667788#32) := by decide

theorem test_storeb :
    gives (runs [0xB422#16] (filled (given .gpu [(1#5, 0x4001#32), (2#5, 0xCAFEBABE#32)] 0#32)))
      (fun t => t.memLong 0x4000#32 == 0x11BE3344#32) := by decide

theorem test_storeb_in_window :
    gives (runs [0xB422#16] (filled (given .gpu [(1#5, 0xF03101#32), (2#5, 0xCAFEBABE#32)] 0#32)))
      (fun t => t.memLong 0xF03100#32 == 0xCAFEBABE#32) := by decide

theorem test_storew :
    gives (runs [0xB822#16] (filled (given .gpu [(1#5, 0x4002#32), (2#5, 0xCAFEBABE#32)] 0#32)))
      (fun t => t.memLong 0x4000#32 == 0x1122BABE#32) := by decide

theorem test_store :
    gives (runs [0xBC22#16] (filled (given .gpu [(1#5, 0x4004#32), (2#5, 0xCAFEBABE#32)] 5#32)))
      (fun t => t.memLong 0x4004#32 == 0xCAFEBABE#32 && t.memLong 0x4000#32 == 0x11223344#32 && t.flags == 5#32) := by
  decide

theorem test_storep :
    gives (runs [0xC022#16] (filled { given .gpu [(1#5, 0x4000#32), (2#5, 0xCAFEBABE#32)] 0#32 with hiMod := 0x0BADF00D#32 }))
      (fun t => t.memLong 0x4000#32 == 0x0BADF00D#32 && t.memLong 0x4004#32 == 0xCAFEBABE#32) := by decide

theorem test_store_r14_quick :
    gives (runs [0xC422#16] (given .gpu [(14#5, 0x4000#32), (2#5, 0xCAFEBABE#32)] 0#32))
      (fun t => t.memLong 0x4004#32 == 0xCAFEBABE#32) := by decide

theorem test_store_r15_quick_31 :
    gives (runs [0xCBE2#16] (given .gpu [(15#5, 0x3F88#32), (2#5, 0xCAFEBABE#32)] 0#32))
      (fun t => t.memLong 0x4004#32 == 0xCAFEBABE#32) := by decide

theorem test_store_r14_register :
    gives (runs [0xF062#16] (given .gpu [(14#5, 0x4000#32), (3#5, 4#32), (2#5, 0xCAFEBABE#32)] 0#32))
      (fun t => t.memLong 0x4004#32 == 0xCAFEBABE#32) := by decide

theorem test_store_r15_register :
    gives (runs [0xF462#16] (given .gpu [(15#5, 0x4000#32), (3#5, 4#32), (2#5, 0xCAFEBABE#32)] 0#32))
      (fun t => t.memLong 0x4004#32 == 0xCAFEBABE#32) := by decide

/-- A store to a mapped control register is a write of it (spec/48_ctrl_io.md R304). -/
theorem test_store_to_control :
    gives (runs [0xBC22#16] (given .gpu [(1#5, 0xF02104#32), (2#5, 0x14#32)] 0#32))
      (fun t => t.mtxc == 0x14#32 && t.mem == (placed [0xBC22#16] (given .gpu [] 0#32)).mem) := by decide

theorem test_memory_canonical :
    Memory.writeAll [(3, 7#8)] [(5, 1#8), (3, 0#8), (4, 2#8)] = [(4, 2#8), (5, 1#8)] ∧
      Memory.wf [(4, 2#8), (5, 1#8)] = true ∧ Memory.wf [(4, 0#8)] = false ∧ Memory.wf [(5, 1#8), (4, 2#8)] = false := by
  decide

/-! Branches (spec/95_test_vectors.md S6 and section 2.7). -/

theorem test_jr_delay_slot :
    gives (runs [0xD440#16, 0x0820#16, 0x0821#16] (given .gpu [] 0#32))
      (fun t => t.pc == 0x1006#32 && t.x 0#5 == 1#32 && t.x 1#5 == 0#32 && t.cycles == 4 && t.delay == .idle) := by decide

theorem test_jr_not_taken :
    gives (runs [0xD442#16, 0x0820#16] (given .gpu [] 0#32))
      (fun t => t.pc == 0x1002#32 && t.x 0#5 == 0#32 && t.cycles == 1) := by decide

theorem test_jump_slot_writes_target_register :
    gives (runs [0xD0A0#16, 0x88C5#16] (given .gpu [(5#5, 0x2000#32), (6#5, 0x3000#32)] 0#32))
      (fun t => t.pc == 0x2000#32 && t.x 5#5 == 0x3000#32) := by decide

theorem test_jump_in_slot :
    refuses (runs [0xD440#16, 0xD440#16] (given .gpu [] 0#32)) .branchInDelaySlot := by decide

theorem test_movei_in_slot :
    refuses (runs [0xD440#16, 0x9802#16] (given .gpu [] 0#32)) .pcDependentInDelaySlot := by decide

theorem test_reserved_selector_step : refuses (runs [0xFC42#16] (given .gpu [] 0#32)) .reservedPackSelector := by decide

/-! The control port and interrupts (spec/48_ctrl_io.md, spec/60_exceptions.md, spec/95_test_vectors.md). -/

theorem test_flags_write :
    gives (ctrlWrite .between 0 0xFFFFFFFF#32 0xFFFFFFFF#32 (State.resetOf .gpu))
      (fun t => t.ctrlRead 0 == 0x41F7#32 && t.cur == .b1 && !t.lagPending) := by decide

theorem test_flags_acknowledge :
    gives (ctrlWrite .between 0 0x608#32 0xFFFFFFFF#32 { State.resetOf .gpu with flags := 8#32, ctrl := 0x7C1#32 })
      (fun t => t.flags == 8#32 && t.ctrl == 0x701#32) := by decide

theorem test_control_force_interrupt :
    gives (ctrlWrite .between 5 5#32 0xFFFFFFFF#32
        ({ State.resetOf .gpu with flags := 0x10#32, pc := 0xF03100#32 }.setX 31#5 0x4000#32))
      (fun t => t.ctrl == 0x41#32 && t.flags == 0x18#32 && t.x 31#5 == 0x3FFC#32 && t.memLong 0x3FFC#32 == 0xF030FE#32 &&
        t.pc == 0xF03000#32) := by decide

theorem test_highest_level_wins :
    gives (checkIrqs .between { given .dsp [(31#5, 0xF1C000#32)] 0x101F0#32 with ctrl := 0x10401#32, pc := 0xF1B102#32 })
      (fun t => t.pc == 0xF1B050#32 && t.memLong 0xF1BFFC#32 == 0xF1B100#32 && t.flags == 0x101F8#32) := by decide

theorem test_line_asserted :
    gives (step { given .gpu [(31#5, 0x4000#32)] 0x1F0#32 with pc := 0x5002#32, agenda := [.event (.setLine 3 true)] })
      (fun t => t.ctrl == 0x201#32 && t.flags == 0x1F8#32 && t.x 31#5 == 0x3FFC#32 && t.memLong 0x3FFC#32 == 0x5000#32 &&
        t.pc == 0xF03030#32) := by decide

/-- With the stack pointer at the second control register the push is a write of `FLAGS`, `pc - 2` its value (R330, R289). -/
theorem test_push_to_flags :
    gives (checkIrqs .between { given .gpu [(31#5, 0xF02104#32)] 0x10#32 with ctrl := 0x41#32, pc := 0xF03100#32 })
      (fun t => t.flags == 0xFE#32 && t.ctrl == 0x41#32 && t.x 31#5 == 0xF02100#32 && t.pc == 0xF03000#32 && t.mem == []) := by
  decide

/-- A start, and no other write of `RUN`, counts the stores anew (spec/93_implementation_defined.md U8). -/
theorem test_start_forgets_stores :
    let s := { State.resetOf { Config.gpu with fetchCoherent := false } with stored := [0x1000] }
    gives (ctrlWrite .between 5 1#32 0xFFFFFFFF#32 s) (fun t => t.stored == []) ∧
      gives (ctrlWrite .between 5 1#32 0xFFFFFFFF#32 { s with ctrl := 1#32 }) (fun t => t.stored == [0x1000]) ∧
      gives (ctrlWrite .between 5 0#32 0xFFFFFFFF#32 { s with ctrl := 1#32 }) (fun t => t.stored == [0x1000]) := by decide

theorem test_halted : gives (step (State.resetOf .dsp)) (fun t => t == State.resetOf .dsp) := by decide

/-! Witnesses: a state and operands that meet the hypotheses of each statement, clause by clause. -/

/-- A running core with nothing but `NOP`s of memory before it. -/
def core0 : State := given .gpu [] 0#32

/-- A core that refuses to fetch what it stored, the bytes before and after an instruction at `pc` stored to. -/
def wary : State := { core0 with cfg := { Config.gpu with fetchCoherent := false }, stored := [0xFFF, 0x1006] }

/-- A configuration whose window covers the control block, and whose port has registers past the tenth. -/
def wide : State := { core0 with cfg := { Config.gpu with winLo := 0xF02000#32, nctrl := 12 } }

theorem test_witness_DecodeOfEncode :
    (Instr.unpack 31#5).wf .gpu = true ∧ (Instr.addqmod 0#5 31#5).wf .dsp = true ∧ Instr.nop.wf .dsp = true := by decide

theorem test_witness_DecodedInstructions :
    decode .gpu [0x9B#8, 0xE2#8, 0#8, 0#8, 0#8, 0x80#8, 1#8] = .ok (.movei 0x00800000#32 2#5, [1#8]) ∧
      decode .dsp [0xFB#8, 0xFF#8] = .ok (.illegal, []) := by decide

theorem test_witness_EveryWordDecodes :
    ¬ (Variant.gpu = .gpu ∧ opcOf 0xFC3F#16 = 63#6 ∧ 2 ≤ (f1Of 0xFC3F#16).toNat) ∧
      opcOf 0xFC5F#16 = 63#6 ∧ 2 ≤ (f1Of 0xFC5F#16).toNat ∧ (placed [0xFC5F#16] core0).cfg.variant = .gpu ∧
      AboutToRun (placed [0xFC5F#16] core0) ∧ (placed [0xFC5F#16] core0).fetchWord 0x1000#32 = .ok 0xFC5F#16 := by
  unfold AboutToRun; decide

theorem test_witness_StepKeepsInv : Inv core0 ∧ ∃ t, step core0 = .next t := by
  refine ⟨?_, _, rfl⟩
  unfold Inv InvInside FlagsLegal CtrlLegal BankLegal StoredLegal; decide

theorem test_witness_StepKeepsConfig : ∃ t, step core0 = .next t := ⟨_, rfl⟩

theorem test_witness_WhoWritesWhat :
    (∃ t, exec (.add 1#5 2#5) core0 = .next t) ∧ (∃ t, exec (.store 1#5 2#5) core0 = .next t) ∧
      ∃ t, exec (.div 1#5 2#5) core0 = .next t := ⟨⟨_, rfl⟩, ⟨_, rfl⟩, _, rfl⟩

theorem test_witness_ResetEvent : { core0 with agenda := [.event .reset] }.agenda = .event .reset :: [] := rfl

theorem test_witness_StartFromOutside :
    6 ≤ { Config.gpu with nctrl := 6 }.nctrl ∧ State.reset.delay = .idle ∧ State.reset.run = false ∧
      State.reset.cfg.startForgetsStores = true ∧ core0.run = true := by decide

theorem test_witness_EnvironmentMoves :
    State.reset.run = false ∧ State.reset.agenda = [] ∧ { State.reset with agenda := [.core] }.agenda = .core :: [] ∧
      { core0 with agenda := [.event (.ctrlRead 5)] }.agenda = .event (.ctrlRead 5) :: [] := by decide

theorem test_witness_StepRunsTheDecodedInstruction :
    let s := placed [0x9802#16, 0x5678#16, 0x1234#16] wary
    AboutToRun s ∧ s.pc.getLsbD 0 = false ∧
      decode s.cfg.variant ((List.range 6).map fun k => s.byteAt (busAddr s.pc k)) = .ok (.movei 0x12345678#32 2#5, []) ∧
      ∀ k, k < 6 → s.cfg.fetchCoherent = true ∨ busAddr s.pc k ∉ s.stored := by
  unfold AboutToRun; decide

theorem test_witness_StepRunsTheDecodedInstruction_short :
    let s := { placed [0x0022#16] wary with stored := [0xFFF, 0x1002] }
    AboutToRun s ∧ s.pc.getLsbD 0 = false ∧
      decode s.cfg.variant ((List.range 6).map fun k => s.byteAt (busAddr s.pc k)) =
        .ok (.add 1#5 2#5, [0#8, 0#8, 0#8, 0#8]) ∧
      ∀ k, k < 2 → s.cfg.fetchCoherent = true ∨ busAddr s.pc k ∉ s.stored := by
  unfold AboutToRun; decide

theorem test_witness_FetchPort :
    (0x1001#32 : Word).toNat % 2 = 1 ∧ (0xFFFFFE#32 : Word).toNat % 2 = 0 ∧ wary.cfg.fetchCoherent = false ∧
      (0x1000 % 2 ^ 24 ∉ wary.stored ∧ (0x1000 + 1) % 2 ^ 24 ∉ wary.stored) ∧ (0xFFE + 1) % 2 ^ 24 ∈ wary.stored ∧
      AboutToRun { core0 with pc := 0x1001#32 } ∧
      State.fetchWord { core0 with pc := 0x1001#32 } 0x1001#32 = .error .oddPc := by
  unfold AboutToRun; decide

/-- Each extension word of a `MOVEI` in turn stored to. -/
theorem test_witness_FetchPort_extension :
    let s := { placed [0x9802#16, 0x5678#16, 0x1234#16] wary with stored := [0x1003] }
    let r := { placed [0x9802#16, 0x5678#16, 0x1234#16] wary with stored := [0x1004] }
    (AboutToRun s ∧ s.fetchWord s.pc = .ok 0x9802#16 ∧ opcOf 0x9802#16 = 38#6 ∧
      s.fetchWord (s.pc + 2#32) = .error .fetchAfterStore) ∧
      (AboutToRun r ∧ r.fetchWord r.pc = .ok 0x9802#16 ∧ r.fetchWord (r.pc + 2#32) = .ok 0x5678#16 ∧
        r.fetchWord (r.pc + 4#32) = .error .fetchAfterStore) := by
  unfold AboutToRun; decide

theorem test_witness_BankSwitch :
    (updateBanks .between { core0 with flags := 0x4000#32 }).cur ≠ { core0 with flags := 0x4000#32 }.cur := by decide

theorem test_witness_MultiplyAccumulateChain :
    let s := placed [0x5022#16, 0x5064#16, 0x4C07#16] core0
    s.delay ≠ .executing ∧ s.fetchWord 0x1000#32 = .ok (opWord 20#6 1#5 2#5) ∧
      s.fetchWord 0x1002#32 = .ok (opWord 20#6 3#5 4#5) ∧ s.fetchWord 0x1004#32 = .ok 0x4C07#16 ∧ opcOf 0x4C07#16 ≠ 20#6 ∧
      core0.fetchWord 0x1000#32 = .ok 0#16 ∧ opcOf 0#16 ≠ 20#6 := by decide

theorem test_witness_MultiplyAccumulateChain_refused :
    let s := { placed [0x5022#16] wary with stored := [0x1003] }
    s.delay ≠ .executing ∧ s.fetchWord 0x1000#32 = .ok (opWord 20#6 1#5 2#5) ∧
      s.fetchWord 0x1002#32 = .error .fetchAfterStore ∧ State.fetchWord { core0 with pc := 0x1001#32 } 0x1001#32 = .error .oddPc := by
  decide

theorem test_witness_MatrixMultiply :
    let s := { core0 with mtxc := 0x1F#32, mtxa := 0xF02128#32 }
    ∀ i, i < s.mtxc.toNat % 16 → (24#5 : Reg).toNat + i / 2 ≤ 31 ∧ (s.mtxa + BitVec.ofNat 32 (30 * i)).toNat % 2 = 0 ∧
      MissesCtrl s (s.mtxa + BitVec.ofNat 32 (30 * i)) 2 := by
  unfold MissesCtrl; decide

theorem test_witness_MatrixMultiplyStops :
    (∀ j, j < 2 → (31#5 : Reg).toNat + j / 2 ≤ 31 ∧ (0x2000#32 + BitVec.ofNat 32 (2 * j) : Word).toNat % 2 = 0 ∧
      MissesCtrl core0 (0x2000#32 + BitVec.ofNat 32 (2 * j)) 2) ∧ 31 < (31#5 : Reg).toNat + 2 / 2 ∧
      (0x2001#32 : Word).toNat % 2 = 1 ∧ (0xF02126#32 : Word).toNat % 2 = 0 ∧ ¬ MissesCtrl core0 0xF02126#32 2 := by
  unfold MissesCtrl; decide

theorem test_witness_Divide : core0.x 1#5 = 0#32 ∧ (given .gpu [(1#5, 1#32)] 0#32).x 1#5 ≠ 0#32 := by decide

theorem test_witness_DivideLaws :
    let s := given .gpu [(1#5, 0x10000#32), (2#5, 0xFFFFFFFF#32)] 0#32
    (s.x 1#5).toNat ≠ 0 ∧ s.divctrl.getLsbD 0 = false ∧ { s with divctrl := 1#32 }.divctrl.getLsbD 0 = true ∧
      (s.x 2#5).toNat * 65536 / (s.x 1#5).toNat < 2 ^ 32 := by decide

theorem test_witness_RegisterShifts :
    (0xFFFFFFFF#32 : Word).toInt < 0 ∧ (0x80000000#32 : Word).toInt < 0 ∧ (0 : Int) ≤ (0#32 : Word).toInt := by decide

theorem test_witness_plain_longs :
    PlainLong core0 0xF020FC#32 ∧ PlainLong core0 0xF02128#32 ∧ PlainLong core0 0xFFFFFFFC#32 ∧
      (0xFFFFFFFD#32 : Word).toNat % 4 ≠ 0 := by
  unfold PlainLong; decide

theorem test_witness_LongReadValue :
    (∀ k, k < 10 → ReachesCtrl core0 (0xF02100#32 + BitVec.ofNat 32 (4 * k)) k) ∧ ReachesCtrl wide 0xF0212C#32 11 ∧
      core0.cfg.nctrl ≤ 10 := by
  unfold ReachesCtrl; decide

theorem test_witness_LongLoads :
    let s := given .gpu [(1#5, 0x4000#32), (2#5, 0x4001#32), (14#5, 0xFFFFFFFC#32), (15#5, 2#32)] 0#32
    (s.x 1#5).toNat % 4 = 0 ∧ (s.x 2#5).toNat % 4 ≠ 0 ∧ (s.x 14#5 + BitVec.ofNat 32 (4 * quickValue 0#5)).toNat % 4 = 0 ∧
      (s.x 15#5 + BitVec.ofNat 32 (4 * quickValue 31#5)).toNat % 4 ≠ 0 ∧ (s.x 14#5 + s.x 1#5).toNat % 4 = 0 ∧
      (s.x 15#5 + s.x 1#5).toNat % 4 ≠ 0 := by decide

theorem test_witness_NarrowLoads :
    (InWindow core0 0xF03000#32 ∧ InWindow core0 0xF03FFF#32) ∧
      (¬ InWindow core0 0xF020FF#32 ∧ MissesCtrl core0 0xF020FF#32 1) ∧
      (¬ InWindow core0 0xF02128#32 ∧ MissesCtrl core0 0xF02128#32 1) ∧
      (¬ InWindow core0 0xF020FE#32 ∧ MissesCtrl core0 0xF020FE#32 2) ∧
      (¬ InWindow core0 0xF02127#32 ∧ ¬ MissesCtrl core0 0xF02127#32 1) ∧
      (¬ InWindow core0 0xF02100#32 ∧ ¬ MissesCtrl core0 0xF02100#32 2) ∧ ¬ InWindow core0 0xF04001#32 := by
  unfold InWindow MissesCtrl; decide

theorem test_witness_PhraseLoad :
    InWindow core0 0xF03FFF#32 ∧ (¬ InWindow core0 0xF02FFC#32 ∧ (0xF02FFC#32 : Word).toNat % 4 = 0) ∧
      ¬ InWindow core0 0xF02FFE#32 ∧ (0xF02FFE#32 : Word).toNat % 4 ≠ 0 := by
  unfold InWindow; decide

theorem test_witness_LongStores : PlainLong core0 0x4000#32 ∧ ReachesCtrl core0 0xF02100#32 0 := by
  unfold PlainLong ReachesCtrl; decide

theorem test_witness_NarrowStores :
    (InWindow core0 0xF03003#32 ∧ PlainLong core0 (0xF03003#32 &&& 0xFFFFFFFC#32)) ∧
      (InWindow wide 0xF02107#32 ∧ ReachesCtrl wide (0xF02107#32 &&& 0xFFFFFFFC#32) 1) := by
  unfold InWindow PlainLong ReachesCtrl; decide

theorem test_witness_PhraseStore :
    (InWindow core0 0xF03002#32 ∧ PlainLong core0 (0xF03002#32 &&& 0xFFFFFFFC#32)) ∧
      (InWindow wide 0xF02104#32 ∧ ReachesCtrl wide (0xF02104#32 &&& 0xFFFFFFFC#32) 1) ∧
      (¬ InWindow core0 0xF02FFC#32 ∧ PlainLong core0 0xF02FFC#32 ∧ PlainLong core0 (0xF02FFC#32 + 4#32)) ∧
      (¬ InWindow core0 0xF020FC#32 ∧ PlainLong core0 0xF020FC#32 ∧ ReachesCtrl core0 (0xF020FC#32 + 4#32) 0) := by
  unfold InWindow PlainLong ReachesCtrl; decide

theorem test_witness_PhraseStore_control_first :
    ¬ InWindow core0 0xF02124#32 ∧ ReachesCtrl core0 0xF02124#32 9 ∧
      ∃ u, ctrlWrite .inStep 9 core0.hiMod 0xFFFFFFFF#32 core0 = .next u := by
  refine ⟨?_, ?_, _, rfl⟩
  · unfold InWindow; decide
  · unfold ReachesCtrl; decide

theorem test_witness_BigEndian :
    PlainLong core0 0xF02128#32 ∧ MissesCtrl core0 0xF02128#32 4 ∧ ∃ t, writeLong 0xF02128#32 1#32 core0 = .next t := by
  refine ⟨?_, ?_, _, rfl⟩
  · unfold PlainLong; decide
  · unfold MissesCtrl; decide

/-- A merged control word: the statement's bit by bit condition, met. -/
theorem test_witness_merge :
    ∀ b, b < 32 → (0x1122CCDD#32 : Word).getLsbD b =
      if (0xFFFF#32 : Word).getLsbD b then (0xAABBCCDD#32 : Word).getLsbD b else (0x11223344#32 : Word).getLsbD b := by
  decide

theorem test_witness_PlainControlWrites :
    gives (ctrlWrite .between 1 0xAABBCCDD#32 0xFFFF#32 { core0 with mtxc := 0x11223344#32 })
      (fun t => t.mtxc == 0x1122CCDD#32) ∧ 7 < core0.cfg.nctrl ∧ core0.cfg.nctrl ≤ 10 := by decide

theorem test_witness_FlagsWrite :
    0 < core0.cfg.nctrl ∧ ∀ b, b < 32 → (0x4007#32 : Word).getLsbD b =
      if (0x4000#32 : Word).getLsbD b then (0xFFFFFFFF#32 : Word).getLsbD b
      else (given .gpu [] 7#32).flags.getLsbD b := by decide

theorem test_witness_ControlWordWrite :
    5 < core0.cfg.nctrl ∧ ∀ b, b < 32 → (7#32 : Word).getLsbD b =
      if (6#32 : Word).getLsbD b then (0xFFFFFFFF#32 : Word).getLsbD b else core0.ctrl.getLsbD b := by decide

theorem test_witness_ControlWordWrite_start :
    5 < State.reset.cfg.nctrl ∧ State.reset.run = false ∧ State.reset.cfg.startForgetsStores = true ∧
      ∀ b, b < 32 → (1#32 : Word).getLsbD b =
        if (1#32 : Word).getLsbD b then (0xFFFFFFFF#32 : Word).getLsbD b else State.reset.ctrl.getLsbD b := by decide

theorem test_witness_NoInterrupt :
    (given .gpu [] 0x1F8#32).flags.getLsbD 3 = true ∧
      ∀ k, k < core0.cfg.nlevels → k < 6 → ¬ (core0.latch k = true ∧ core0.eint k = true) := by decide

/-- A `DSP` core with levels 0 and 5 latched and enabled, in bank 1. -/
def levels : State :=
  { given .dsp [(31#5, 0xF1C000#32)] 0x14010#32 with ctrl := 0x10041#32, cur := .b1, pc := 0xF1B100#32 }

theorem test_witness_InterruptEntry :
    levels.flags.getLsbD 3 = false ∧ 5 < levels.cfg.nlevels ∧ levels.latch 5 = true ∧ levels.eint 5 = true ∧
      (∀ j, j < 6 → 5 < j → ¬ (levels.latch j = true ∧ levels.eint j = true)) ∧
      PlainLong levels (levels.reg .b0 31#5 - 4#32) ∧
      ((levels.setReg .b0 31#5 2#32).reg .b0 31#5 - 4#32).toNat % 4 ≠ 0 := by
  unfold PlainLong; decide

/-- The push at the first and at the last control register. -/
theorem test_witness_InterruptEntry_control :
    ReachesCtrl levels ((levels.setReg .b0 31#5 0xF1A104#32).reg .b0 31#5 - 4#32) 0 ∧
      ReachesCtrl levels ((levels.setReg .b0 31#5 0xF1A128#32).reg .b0 31#5 - 4#32) 9 := by
  unfold ReachesCtrl; decide

theorem test_witness_InterruptEntry_level_0 :
    let s := { levels with ctrl := 0x41#32 }
    s.latch 0 = true ∧ s.eint 0 = true ∧ ∀ j, j < 6 → 0 < j → ¬ (s.latch j = true ∧ s.eint j = true) := by decide

theorem test_witness_InterruptLine : 4 < core0.cfg.nlevels ∧ core0.cfg.nlevels ≤ 5 ∧ 5 < levels.cfg.nlevels := by decide

theorem test_witness_InterruptBeforeInstruction :
    levels.run = true ∧ levels.agenda = [] ∧ levels.winner = some 5 ∧ PlainLong levels (levels.reg .b0 31#5 - 4#32) ∧
      checkIrqs .between (levels.setReg .b0 31#5 2#32) = .refused .misaligned ∧
      ∃ t, checkIrqs .between levels = .next t := by
  refine ⟨by decide, by decide, by decide, ?_, rfl, _, rfl⟩
  unfold PlainLong; decide

/-- A push that reaches `CTRL` and halts the core, and one that reaches `FLAGS` and does not. -/
theorem test_witness_InterruptBeforeInstruction_control :
    gives (checkIrqs .between (levels.setReg .b0 31#5 0xF1A118#32)) (fun t => !t.run && t.pc == 0xF1B050#32) ∧
      gives (checkIrqs .between (levels.setReg .b0 31#5 0xF1A104#32)) (fun t => t.run && t.pc == 0xF1B050#32) := by decide

/-- The end of a handler of level 4: `FLAGS` is stored, the word after the `JUMP` is a `NOP`. -/
def handler : State :=
  placed [0xBC22#16, 0xD060#16, 0xE400#16]
    { given .gpu [(1#5, 0xF02100#32), (2#5, 0x6100#32), (3#5, 0x5000#32)] 0x4108#32 with ctrl := 0x401#32 }

theorem test_witness_ReturnFromInterrupt :
    AboutToRun handler ∧ Inv handler ∧ handler.i = true ∧ ReachesCtrl handler (handler.x 1#5) 0 ∧
      (handler.x 2#5).getLsbD 3 = false ∧ (handler.x 2#5).getLsbD (9 + 4) = true ∧ (handler.x 2#5).getLsbD 14 = true ∧
      (∀ j, j < handler.cfg.nlevels → j < 6 → j ≠ 4 →
        ¬ (handler.latch j = true ∧ (handler.x 2#5).getLsbD (if j < 5 then 4 + j else 16) = true)) ∧
      handler.fetchWord handler.pc = .ok (opWord 47#6 1#5 2#5) ∧
      handler.fetchWord (handler.pc + 2#32) = .ok (opWord 52#6 3#5 0#5) ∧
      handler.fetchWord (handler.pc + 4#32) = .ok 0xE400#16 ∧
      decodeWord handler.cfg.variant 0xE400#16 0#32 = .ok .nop := by
  unfold AboutToRun Inv InvInside FlagsLegal CtrlLegal BankLegal StoredLegal ReachesCtrl; decide

/-- The end of a handler of level 5 of the `DSP` that returns to bank 0, another level latched but not enabled, and an
`ADDQ` after the `JUMP`. -/
def handler5 : State :=
  placed [0xBC22#16, 0xD060#16, 0x0827#16]
    { given .dsp [(1#5, 0xF1A100#32), (2#5, 0x30000#32), (3#5, 0x5000#32)] 0x10008#32 with ctrl := 0x10041#32 }

theorem test_witness_ReturnFromInterrupt_bank_0 :
    AboutToRun handler5 ∧ Inv handler5 ∧ handler5.i = true ∧ ReachesCtrl handler5 (handler5.x 1#5) 0 ∧
      handler5.cfg.variant = .dsp ∧ (handler5.x 2#5).getLsbD 3 = false ∧ (handler5.x 2#5).getLsbD 17 = true ∧
      (handler5.x 2#5).getLsbD 14 = false ∧
      (∀ j, j < handler5.cfg.nlevels → j < 6 → j ≠ 5 →
        ¬ (handler5.latch j = true ∧ (handler5.x 2#5).getLsbD (if j < 5 then 4 + j else 16) = true)) ∧
      handler5.fetchWord handler5.pc = .ok (opWord 47#6 1#5 2#5) ∧
      handler5.fetchWord (handler5.pc + 2#32) = .ok (opWord 52#6 3#5 0#5) ∧
      handler5.fetchWord (handler5.pc + 4#32) = .ok 0x0827#16 ∧
      decodeWord handler5.cfg.variant 0x0827#16 0#32 = .ok (.addq 1#5 7#5) := by
  unfold AboutToRun Inv InvInside FlagsLegal CtrlLegal BankLegal StoredLegal ReachesCtrl; decide

theorem test_witness_Branches :
    core0.delay ≠ .executing ∧ core0.cond 2#5 = false ∧ core0.cond 1#5 = true ∧ core0.fetchWord core0.pc = .ok 0#16 ∧
      State.fetchWord { wary with stored := [0x1001] } wary.pc = .error .fetchAfterStore ∧ wary.cond 1#5 = true := by
  decide

theorem test_witness_DelaySlot :
    let s := placed [0xD060#16, 0xE400#16] core0
    let r := placed [0xD600#16, 0xE400#16] core0
    (AboutToRun s ∧ s.fetchWord s.pc = .ok (opWord 52#6 3#5 0#5) ∧ s.fetchWord (s.pc + 2#32) = .ok 0xE400#16 ∧
      s.cond 0#5 = true ∧ decodeWord s.cfg.variant 0xE400#16 0#32 = .ok .nop) ∧
      r.fetchWord r.pc = .ok (opWord 53#6 16#5 0#5) := by
  unfold AboutToRun; decide

theorem test_witness_NoOperations :
    let s := placed [0xF862#16] (given .dsp [] 7#32)
    AboutToRun s ∧ s.fetchWord s.pc = .ok 0xF862#16 ∧ s.cfg.variant = .dsp ∧ 0xF862#16 = opWord 62#6 3#5 2#5 := by
  unfold AboutToRun; decide

theorem test_witness_SlotRefusals : { core0 with delay := .executing }.delay = .executing := rfl

theorem test_witness_PositionMoves : core0.delay ≠ .executing := by decide

theorem test_witness_FloatHelpers :
    core0.x 1#5 = 0#32 ∧ (0x80000000#32 : Word).getLsbD 31 = true ∧ (∀ j, 31 < j → (0x80000000#32 : Word).getLsbD j = false) ∧
      (1#32 : Word).getLsbD 0 = true ∧ ∀ j, 0 < j → (1#32 : Word).getLsbD j = false := by
  refine ⟨by decide, by decide, fun j h => BitVec.getLsbD_of_ge _ _ (by omega), by decide, fun j h => ?_⟩
  by_cases hj : j < 32
  · exact (by decide : ∀ j, j < 32 → 0 < j → (1#32 : Word).getLsbD j = false) j hj h
  · exact BitVec.getLsbD_of_ge _ _ (by omega)

theorem test_witness_Saturates :
    (0xFFFFFFFE00000000#64 : Acc).toInt / 2 ^ 32 = -2 ∧ (0xFFFFFFFF00000000#64 : Acc).toInt / 2 ^ 32 = -1 ∧
      (0xFFFFFFFF#64 : Acc).toInt / 2 ^ 32 = 0 ∧ (0x100000000#64 : Acc).toInt / 2 ^ 32 = 1 := by decide

end Sys2Proof.Machine
end

section
/-! PROOFS. The family of spec/00_scope.md: the configuration is never written (R2, R5), and who moves when (R9). -/

namespace Sys2Proof.Machine

/-! Who moves. -/

/-- The event that stands first is the step (R9). -/
theorem step_of_event {s : State} {e : Event} {rest : List Turn} (ha : s.agenda = .event e :: rest) :
    step s = applyEvent e { s with agenda := rest } := by
  simp only [step, turn, ha]

theorem step_of_agenda_nil {s : State} (ha : s.agenda = []) : step s = coreStep exec s := by
  simp only [step, turn, ha]

theorem step_of_core {s : State} {rest : List Turn} (ha : s.agenda = .core :: rest) :
    step s = coreStep exec { s with agenda := rest } := by
  simp only [step, turn, ha]

/-! The configuration: each part of a step keeps it. -/

/-- An instruction that is no store is calm, a store makes port moves: neither writes the configuration. -/
theorem exec_keeps_cfg {i : Instr} {s t : State} (h : exec i s = .next t) : t.cfg = s.cfg := by
  cases hi : Instr.stores i
  case false =>
    obtain ⟨hcalm, -⟩ := exec_calm hi h
    obtain ⟨hcfg, -⟩ := hcalm.special
    exact hcfg
  case true => exact (exec_stores_frame hi h).cfg

theorem checkIrqs_keeps_cfg {why : Cause} {s t : State} (h : checkIrqs why s = .next t) : t.cfg = s.cfg :=
  (portMoves_frame (checkIrqs_moves h)).cfg

theorem runSlot_keeps_cfg {s t : State} (h : runSlot exec s = .next t) : t.cfg = s.cfg := by
  unfold runSlot at h
  split at h
  · split at h
    · cases h
    · obtain ⟨u, hu, ht⟩ := andThen_eq_next.1 h
      cases ht
      have hcfg := exec_keeps_cfg hu
      exact hcfg
  · cases h; rfl

theorem fetchAndRun_keeps_cfg {s t : State} (h : fetchAndRun exec s = .next t) : t.cfg = s.cfg := by
  obtain ⟨i, -, h⟩ := withValue_eq_next.1 h
  obtain ⟨u, hu, ht⟩ := andThen_eq_next.1 h
  calc t.cfg = u.cfg := runSlot_keeps_cfg ht
    _ = s.fetched.cfg := exec_keeps_cfg hu
    _ = s.cfg := fetched_cfg s

theorem coreStep_keeps_cfg {s t : State} (h : coreStep exec s = .next t) : t.cfg = s.cfg := by
  unfold coreStep at h
  split at h
  · obtain ⟨u, hu, ht⟩ := andThen_eq_next.1 h
    calc t.cfg = u.beginStep.cfg := fetchAndRun_keeps_cfg ht
      _ = u.cfg := beginStep_cfg u
      _ = s.cfg := checkIrqs_keeps_cfg hu
  · cases h; rfl

theorem setLine_keeps_cfg {k : Nat} {assert : Bool} {s t : State} (h : setLine k assert s = .next t) :
    t.cfg = s.cfg := by
  unfold setLine at h
  split at h
  · cases h
  · split at h
    · exact (checkIrqs_keeps_cfg h).trans (setLatch_cfg ..)
    · cases h; exact setLatch_cfg ..

theorem applyEvent_keeps_cfg {e : Event} {s t : State} (h : applyEvent e s = .next t) : t.cfg = s.cfg := by
  cases e with
  | setLine k assert => exact setLine_keeps_cfg h
  | ctrlWrite off value mask => exact (portMoves_frame (ctrlWrite_moves h)).cfg
  | ctrlRead off => cases h; rfl
  | reset => cases h; rfl
  | memory a v => cases h; exact masterWrite_cfg ..

/-- Settles O9: whoever moves, the core or the environment, leaves the configuration. -/
theorem stepKeepsConfig : Obligations.StepKeepsConfig := by
  intro s t h
  cases ha : s.agenda with
  | nil =>
    rw [step_of_agenda_nil ha] at h
    exact coreStep_keeps_cfg h
  | cons first rest =>
    cases first with
    | core =>
      rw [step_of_core ha] at h
      have hcfg := coreStep_keeps_cfg h
      exact hcfg
    | event e =>
      rw [step_of_event ha] at h
      have hcfg := applyEvent_keeps_cfg h
      exact hcfg

/-! The halted core and another bus master. -/

/-- A halted core does nothing (R346). -/
theorem coreStep_of_halted {s : State} (hr : s.run = false) : coreStep exec s = .next s := by
  simp only [coreStep, hr, Bool.false_eq_true, if_false]

theorem byteAt_masterWrite_same (a : Nat) (v : Byte) (s : State) : (masterWrite a v s).byteAt (a % 2 ^ 24) = v :=
  read_write_same s.mem _ v

theorem byteAt_masterWrite_ne {a b : Nat} (v : Byte) (s : State) (h : b ≠ a % 2 ^ 24) :
    (masterWrite a v s).byteAt b = s.byteAt b :=
  read_write_ne s.mem _ b v h

theorem masterWrite_keepsSpecial (a : Nat) (v : Byte) (s : State) : KeepsSpecial s (masterWrite a v s) := by
  simp [KeepsSpecial]

/-- Settles O13: the agenda says who moves, a halted core answers its own state, and of another master's write the memory
laws give the byte and its frame. -/
theorem environmentMoves : Obligations.EnvironmentMoves := by
  intro s rest
  refine ⟨fun e ha => step_of_event ha, fun hr ha => ?_, fun hr ha => ?_, fun off => rfl, fun a v => ?_⟩
  · rw [step_of_agenda_nil ha, coreStep_of_halted hr]
  · rw [step_of_core ha, coreStep_of_halted (s := { s with agenda := rest }) hr]
  · exact ⟨masterWrite a v s, rfl, byteAt_masterWrite_same a v s, masterWrite_stored .., fun b => byteAt_masterWrite_ne v s,
      keepsRegs_of (masterWrite_b0 ..) (masterWrite_b1 ..), masterWrite_flags .., masterWrite_pc ..,
      masterWrite_keepsSpecial a v s⟩

end Sys2Proof.Machine
end

section
/-! PROOFS. The family of spec/10_state.md: what every step keeps of the state (R24, R37, R41, R238), which instruction
writes what (R36, R38), reset (R62), the bank switch (R24, R58), the condition table (R51) and the boundary check (R333). -/

namespace Sys2Proof.Machine

/-! Reset. -/

/-- Every configuration resets to the invariant. -/
theorem resetOf_inv (c : Config) : Inv (State.resetOf c) := by
  have hflags : FlagsLegal (State.resetOf c) := BitVec.zero_and
  have hctrl : CtrlLegal (State.resetOf c) := ⟨BitVec.getLsbD_zero, BitVec.getLsbD_zero⟩
  have hbank : BankLegal (State.resetOf c) := by simp [BankLegal, State.required, State.i, State.rpage, State.resetOf]
  have hstored : StoredLegal (State.resetOf c) := ⟨fun _ => rfl, .nil, List.forall_mem_nil _⟩
  exact ⟨⟨rfl, hflags, hctrl, hbank, hstored⟩, rfl⟩

/-- Settles O6: both reset states are `State.resetOf` of a configuration. -/
theorem resetMeetsInv : Obligations.ResetMeetsInv := ⟨resetOf_inv Config.initial, resetOf_inv⟩

/-- The event keeps memory canonical because it does not touch it (R360). -/
theorem resetCore_inv {s : State} (h : InvInside s) : Inv (resetCore s) := by
  obtain ⟨hmem, -⟩ := h
  obtain ⟨⟨-, hrest⟩, hdelay⟩ := resetOf_inv s.cfg
  exact ⟨⟨hmem, hrest⟩, hdelay⟩

/-- Settles O11: the event stands first, so the step is `resetCore`, whose fields are those of R62. -/
theorem resetEvent : Obligations.ResetEvent := by
  intro s rest ha
  rw [step_of_event ha]
  exact ⟨resetCore { s with agenda := rest }, rfl, rfl, rfl, rfl, rfl, rfl, rfl, rfl, rfl, rfl, rfl, rfl, rfl, rfl, rfl,
    rfl, rfl, rfl⟩

/-! Banks and conditions. -/

/-- There are two banks. -/
theorem eq_other_of_ne {b c : Bank} (h : b ≠ c) : b = c.other := by
  revert h
  cases b <;> cases c <;> decide

/-- A change of bank exchanges the active and the alternate registers (R22, R23). -/
theorem x_alt_exchanged {s t : State} (hr : KeepsRegs s t) (hne : t.cur ≠ s.cur) (r : Reg) :
    t.x r = s.alt r ∧ t.alt r = s.x r := by
  have hcur := eq_other_of_ne hne
  have hother : t.cur.other = s.cur := (eq_other_of_ne hne.symm).symm
  constructor
  · rw [State.x, State.alt, hcur]; exact hr _ r
  · rw [State.x, State.alt, hother]; exact hr _ r

/-- Settles O16: the laws of `updateBanks` give the bank, the lag and the frame. -/
theorem bankSwitch : Obligations.BankSwitch := by
  rintro why s t rfl
  have hregs : KeepsRegs s (updateBanks why s) := reg_updateBanks s why
  refine ⟨updateBanks_cur s why, hregs, x_alt_exchanged hregs, ?_, updateBanks_flags .., updateBanks_pc ..,
    keepsMem_of (updateBanks_mem ..) (updateBanks_stored ..), by simp [KeepsSpecial], updateBanks_idem why s⟩
  rw [updateBanks_cur]
  exact updateBanks_lagPending why s

/-- Settles O17: the condition depends on the code and on `Z`, `C`, `N` alone, so the table has 256 entries. -/
theorem conditionTable : Obligations.ConditionTable := by
  intro s code
  unfold State.cond
  generalize s.z = z, s.c = c, s.n = n
  revert code
  cases z <;> cases c <;> cases n <;> decide

/-! Which instruction writes what. -/

/-- `Instr.stores` names no more than the eight stores. -/
theorem stores_eq_false {i : Instr}
    (h : ∀ a b : BitVec 5, i ≠ .storeb a b ∧ i ≠ .storew a b ∧ i ≠ .store a b ∧ i ≠ .storep a b ∧ i ≠ .storeR14n a b ∧
      i ≠ .storeR15n a b ∧ i ≠ .storeR14r a b ∧ i ≠ .storeR15r a b) : Instr.stores i = false := by
  cases i with
  | storeb a b | storew a b | store a b | storep a b | storeR14n a b | storeR15n a b | storeR14r a b | storeR15r a b =>
    exact absurd (h a b) (by simp)
  | _ => rfl

/-- Settles O10: an instruction that is no store is calm but for the fields its kind owns, and a store makes port moves,
which have a frame of their own. -/
theorem whoWritesWhat : Obligations.WhoWritesWhat := by
  intro i s t h
  cases hi : Instr.stores i with
  | true =>
    have hframe := exec_stores_frame hi h
    refine ⟨fun _ => hframe.remainder, fun _ => hframe.acc, hframe.ppc, hframe.lagNow, hframe.agenda, fun hno => ?_⟩
    rw [stores_eq_false hno] at hi
    cases hi
  | false =>
    obtain ⟨hcalm, hrem, hacc, hhi, -⟩ := exec_calm hi h
    obtain ⟨-, hcur, hctrl, hmtxc, hmtxa, hend, -, hdiv, -, -, hppc, hlagP, hlagN, -, hcpu, -, hagenda⟩ := hcalm.special
    exact ⟨hrem, hacc, hppc, hlagN, hagenda, fun _ =>
      ⟨hcalm.flags, hcur, hctrl, hmtxc, hmtxa, hend, hdiv, hlagP, hcpu, hcalm.mem, hhi⟩⟩

/-! The invariant: each part of a step keeps it. Inside a step the delay slot may be open, so it is `InvInside` that is
carried through, until `runSlot` closes the slot. -/

theorem exec_keeps_invInside {i : Instr} {s t : State} (hs : InvInside s) (h : exec i s = .next t) : InvInside t := by
  cases hi : Instr.stores i with
  | true =>
    obtain hmoves | ⟨cells, hcells, rfl⟩ := exec_stores hi h
    · exact portMoves_inv hmoves hs
    · exact poke_inv hcells hs
  | false =>
    obtain ⟨hcalm, -⟩ := exec_calm hi h
    exact hcalm.inv hs

/-- Port moves leave the delay slot alone, so they keep the invariant between steps too. -/
theorem portMoves_keeps_inv {why : Cause} {s t : State} (hs : Inv s) (h : PortMoves why s t) : Inv t := by
  obtain ⟨hinside, hdelay⟩ := hs
  exact ⟨portMoves_inv h hinside, (portMoves_frame h).delay.trans hdelay⟩

theorem takeBranch_delay {target : Word} {s t : State} (h : takeBranch target s = .next t) : ∃ d, t.delay = .pending d := by
  obtain ⟨d, -, h⟩ := withValue_eq_next.1 h
  cases h
  exact ⟨d, rfl⟩

/-- A delay slot is opened by a taken branch alone, and then it waits (R238). -/
theorem exec_delay {i : Instr} {s t : State} (h : exec i s = .next t) : t.delay = s.delay ∨ ∃ d, t.delay = .pending d := by
  cases i with
  | jump _ _ | jr _ _ =>
    simp only [exec, execJump, execJr] at h
    split at h
    · cases h
    · split at h
      · exact .inr (takeBranch_delay h)
      · cases h; exact .inl rfl
  | _ => exact .inl (exec_nodelay (fun _ _ => by simp) h)

theorem exec_delay_ne_executing {i : Instr} {s t : State} (hs : s.delay = .idle) (h : exec i s = .next t) :
    t.delay ≠ .executing := by
  obtain hd | ⟨d, hd⟩ := exec_delay h
  · rw [hd, hs]; exact nofun
  · rw [hd]; exact nofun

/-- The rest of a taken branch closes the slot (R238). -/
theorem runSlot_inv {s t : State} (hs : InvInside s) (hd : s.delay ≠ .executing) (h : runSlot exec s = .next t) :
    Inv t := by
  cases hslot : s.delay with
  | executing => exact absurd hslot hd
  | idle =>
    rw [runSlot_idle hslot] at h
    cases h
    exact ⟨hs, hslot⟩
  | pending d =>
    simp only [runSlot, hslot] at h
    split at h
    · cases h
    · obtain ⟨u, hu, ht⟩ := andThen_eq_next.1 h
      cases ht
      have hinside : InvInside u := exec_keeps_invInside (s := { s with delay := .executing }) hs hu
      exact ⟨hinside, rfl⟩

theorem fetchAndRun_keeps_inv {s t : State} (hs : Inv s) (h : fetchAndRun exec s = .next t) : Inv t := by
  obtain ⟨hinside, hdelay⟩ := hs
  obtain ⟨i, -, h⟩ := withValue_eq_next.1 h
  obtain ⟨u, hu, ht⟩ := andThen_eq_next.1 h
  exact runSlot_inv (exec_keeps_invInside (s := s.fetched) hinside hu) (exec_delay_ne_executing (s := s.fetched) hdelay hu) ht

theorem coreStep_keeps_inv {s t : State} (hs : Inv s) (h : coreStep exec s = .next t) : Inv t := by
  unfold coreStep at h
  split at h
  · obtain ⟨u, hu, ht⟩ := andThen_eq_next.1 h
    have hchecked : Inv u := portMoves_keeps_inv hs (checkIrqs_moves hu)
    exact fetchAndRun_keeps_inv (s := u.beginStep) hchecked ht
  · cases h; exact hs

/-- A line's change is a latch, and where it is asserted a check (R323). -/
theorem setLine_moves {k : Nat} {assert : Bool} {s t : State} (h : setLine k assert s = .next t) :
    PortMoves .between s t := by
  unfold setLine at h
  split at h
  · cases h
  · split at h
    · exact .head (.latch s k true) (checkIrqs_moves h)
    · cases h; exact .single (.latch s k false)

/-- Another master's byte lands on the bus, so memory stays canonical (R87). -/
theorem masterWrite_inv {s : State} (hs : Inv s) (a : Nat) (v : Byte) : Inv (masterWrite a v s) := by
  obtain ⟨⟨hmem, hrest⟩, hdelay⟩ := hs
  exact ⟨⟨write_wf (Nat.mod_lt a (by decide)) hmem, hrest⟩, hdelay⟩

theorem applyEvent_keeps_inv {e : Event} {s t : State} (hs : Inv s) (h : applyEvent e s = .next t) : Inv t := by
  cases e with
  | setLine k assert => exact portMoves_keeps_inv hs (setLine_moves h)
  | ctrlWrite off value mask => exact portMoves_keeps_inv hs (ctrlWrite_moves h)
  | ctrlRead off => cases h; exact hs
  | reset => cases h; exact resetCore_inv hs.1
  | memory a v => cases h; exact masterWrite_inv hs a v

/-- Settles O7: by who moves. The agenda is no part of the invariant. -/
theorem stepKeepsInv : Obligations.StepKeepsInv := by
  intro s t hs h
  cases ha : s.agenda with
  | nil =>
    rw [step_of_agenda_nil ha] at h
    exact coreStep_keeps_inv hs h
  | cons first rest =>
    cases first with
    | core =>
      rw [step_of_core ha] at h
      exact coreStep_keeps_inv (s := { s with agenda := rest }) hs h
    | event e =>
      rw [step_of_event ha] at h
      exact applyEvent_keeps_inv (s := { s with agenda := rest }) hs h

/-! The boundary check. -/

/-- A running core checks, and goes on from what the check leaves (R101). -/
theorem step_of_running {s : State} (hr : s.run = true) (ha : s.agenda = []) :
    step s = andThen (checkIrqs .between s) fun t => fetchAndRun exec t.beginStep := by
  rw [step_of_agenda_nil ha, coreStep, if_pos hr]

theorem checkIrqs_of_winner_none {why : Cause} {s : State} (hw : s.winner = none) : checkIrqs why s = .next s :=
  checkIrqsAt_of_winner_none hw

/-- An entry ends at the level's vector (R332), whatever its push reaches. -/
theorem checkIrqs_enters_pc {why : Cause} {s t : State} {k : Nat} (hw : s.winner = some k)
    (h : checkIrqs why s = .next t) : t.pc = s.cfg.vectorBase + BitVec.ofNat 32 (16 * k) := by
  rw [checkIrqs_enters hw] at h
  obtain ⟨u, -, ht⟩ := andThen_eq_next.1 h
  cases ht
  rfl

/-- An entry whose push is plain memory leaves `I` set and `CTRL` alone (R328, R330). -/
theorem checkIrqs_takes_i_run {why : Cause} {s t : State} {k : Nat} (hw : s.winner = some k)
    (hp : PlainLong s (s.reg .b0 31#5 - 4#32)) (h : checkIrqs why s = .next t) : t.i = true ∧ t.run = s.run := by
  rw [checkIrqs_takes hw hp] at h
  cases h
  constructor
  · simp only [State.i, poke_flags, setReg_flags, updateBanks_flags]
    exact i_setI s true
  · simp only [State.run, poke_ctrl, setReg_ctrl, updateBanks_ctrl, setI_ctrl]

/-- Settles O50: a check that answers leaves no level to be taken, so the next check answers the entered state itself. -/
theorem interruptBeforeInstruction : Obligations.InterruptBeforeInstruction := by
  intro s k hr ha hw
  have hstep := step_of_running hr ha
  refine ⟨fun r h => by rw [hstep, h, andThen_refused], fun t h => ?_⟩
  rw [h, andThen_next] at hstep
  have hsettled : t.winner = none := checkIrqs_settled h
  refine ⟨checkIrqs_enters_pc hw h, hsettled, hstep, fun hrt => ?_, fun hp => ?_⟩
  · have hat : t.agenda = [] := (portMoves_frame (checkIrqs_moves h)).agenda.trans ha
    rw [hstep, step_of_running hrt hat, checkIrqs_of_winner_none hsettled, andThen_next]
  · obtain ⟨hi, hrun⟩ := checkIrqs_takes_i_run hw hp h
    exact ⟨hi, hrun.trans hr⟩

end Sys2Proof.Machine
end

section
/-! PROOFS. The family of spec/20_memory.md: what a long read answers (R71, R72, R82, R286, R287), byte order (R72, R73,
R75), and the fetch port with the step that it refuses (R74, R79, R90, R272). -/

namespace Sys2Proof.Machine

/-! Long reads. -/

theorem readLong_misaligned {s : State} {a : Word} (h : a.toNat % 4 ≠ 0) : s.readLong a = .error .misaligned :=
  if_pos ((misaligned_long_true a).2 h)

/-- Only `CTRL` reads other than it is stored (R287). -/
theorem ctrlRead_of_ne_five (s : State) {off : Nat} (h : off ≠ 5) : s.ctrlRead off = s.ctrlStored off :=
  if_neg fun h5 => h h5.1

/-- Beyond `NCTRL` there is no control register. -/
theorem ctrlRead_of_le {s : State} {off : Nat} (h : s.cfg.nctrl ≤ off) : s.ctrlRead off = 0#32 := by
  have hstored : s.ctrlStored off = 0#32 := if_neg (by omega)
  rw [State.ctrlRead, if_neg (by omega), hstored]

/-- `CTRL` with the version in bits 15:12 (R287). -/
theorem getLsbD_ctrlRead_five {s : State} (h : 5 < s.cfg.nctrl) (b : Nat) : (s.ctrlRead 5).getLsbD b =
    (s.ctrl.getLsbD b || (decide (12 ≤ b) && s.cfg.coreVersion.getLsbD (b - 12))) := by
  rw [State.ctrlRead, if_pos ⟨rfl, h⟩, BitVec.getLsbD_or, BitVec.getLsbD_shiftLeft]
  congr 1
  by_cases hb : b < 16
  · by_cases hlow : b < 12
    · simp [hlow]
    · simp [zext, hlow, show b < 32 by omega, show b - 12 < 32 by omega, show 12 ≤ b by omega]
  · have hout : s.cfg.coreVersion.getLsbD (b - 12) = false := BitVec.getLsbD_of_ge _ _ (by omega)
    simp [zext, hout]

/-- A control-port read by number (R286, R287). The last clause is the numbers that no register has. -/
theorem ctrlRead_of_lt {s : State} {k : Nat} (hk : k < s.cfg.nctrl) :
    (k = 0 → s.ctrlRead k = s.flags) ∧ (k = 1 → s.ctrlRead k = s.mtxc) ∧ (k = 2 → s.ctrlRead k = s.mtxa) ∧
    (k = 3 → s.ctrlRead k = s.endian) ∧ (k = 4 → s.ctrlRead k = s.pc) ∧
    (k = 5 → ∀ b, (s.ctrlRead k).getLsbD b =
      (s.ctrl.getLsbD b || (decide (12 ≤ b) && s.cfg.coreVersion.getLsbD (b - 12)))) ∧
    (k = 6 → s.ctrlRead k = s.hiMod) ∧ (k = 7 → s.ctrlRead k = s.divctrl) ∧ (k = 9 → s.ctrlRead k = s.remainder) ∧
    (k = 8 ∨ 10 ≤ k → s.ctrlRead k = 0#32) := by
  refine ⟨?flags, ?mtxc, ?mtxa, ?endian, ?pc, ?ctrl, ?hiMod, ?divctrl, ?remainder, ?none⟩
  case ctrl => rintro rfl; exact getLsbD_ctrlRead_five hk
  case none =>
    intro h
    rw [ctrlRead_of_ne_five s (by omega)]
    obtain rfl | h := h
    · exact if_pos hk
    · obtain ⟨j, rfl⟩ := Nat.exists_eq_add_of_le' h
      exact if_pos hk
  all_goals rintro rfl; exact (ctrlRead_of_ne_five s (by decide)).trans (if_pos hk)

/-- Settles O36: an aligned long read answers `longAt`, which is memory's or, where a register is reached, `ctrlRead`. -/
theorem longReadValue : Obligations.LongReadValue := by
  intro s a
  refine ⟨fun hp => ?plain, readLong_misaligned, fun k hr => ?mapped, fun off => ctrlRead_of_le⟩
  case plain => exact ⟨readLong_aligned ((misaligned_long a).2 hp.1), longAt_plain hp⟩
  case mapped =>
    have hlong := longAt_reaches hr
    obtain ⟨-, hk, halign, -⟩ := hr
    rw [readLong_aligned ((misaligned_long a).2 halign), hlong]
    exact ⟨rfl, rfl, ctrlRead_of_lt hk⟩

/-! Byte order. -/

/-- A byte offset in the address is one in the access (R71). -/
theorem busAddr_add (a : Word) (k j : Nat) : busAddr (a + BitVec.ofNat 32 k) j = busAddr a (k + j) := by
  simp only [busAddr, busSize, BitVec.toNat_add, BitVec.toNat_ofNat]
  omega

/-- The part of an aligned long that a narrower access takes misses the control block where the long does. -/
theorem missesCtrl_within {s : State} {a : Word} {k n : Nat} (ha : a.toNat % 4 = 0) (hk : 0 < n) (hn : k + n ≤ 4)
    (h : MissesCtrl s a 4) : MissesCtrl s (a + BitVec.ofNat 32 k) n := by
  intro hm
  have hbus : (a + BitVec.ofNat 32 k).toNat % 2 ^ 24 = a.toNat % 2 ^ 24 + k :=
    calc busAddr (a + BitVec.ofNat 32 k) 0 = busAddr a k := busAddr_add a k 0
      _ = busAddr a 0 + k := busAddr_aligned ((misaligned_long a).2 ha) (by omega)
  rw [hbus]
  have := h hm
  omega

theorem readByte_of_missesCtrl {s : State} {a : Word} (h : MissesCtrl s a 1) :
    s.readByte a = .ok (s.byteAt (busAddr a 0)) := by
  rw [State.readByte, missesCtrl_iff.1 h]
  rfl

/-- The halves of a long write, most significant at the lower address (R73). -/
theorem memHalf_poke_long (s : State) (a v : Word) {k : Nat} (hk : k + 2 ≤ 4) :
    (s.poke (longCells a v)).memHalf (a + BitVec.ofNat 32 k) = v.extractLsb' (8 * (2 - k)) 16 := by
  rw [State.memHalf, busAddr_add, busAddr_add, byteAt_poke_long s a v (by omega), byteAt_poke_long s a v (by omega)]
  have hhigh : 8 * (3 - (k + 0)) = 8 * (3 - (k + 1)) + 8 := by omega
  rw [BitVec.extractLsb'_append_extractLsb'_eq_extractLsb' hhigh, show 8 * (3 - (k + 1)) = 8 * (2 - k) by omega]

/-- Settles O43: the write is a poke of the long's four cells, and each narrower read takes some of them. -/
theorem bigEndian : Obligations.BigEndian := by
  intro s t a v hp hm h
  rw [writeLong_plain hp] at h
  cases h
  have hplain : PlainLong (s.poke (longCells a v)) a := (plainLong_congr rfl).2 hp
  have ha : a.toNat % 4 = 0 := hp.1
  have hhalf {k : Nat} (hk : k + 2 ≤ 4) (heven : k % 2 = 0) :
      (s.poke (longCells a v)).readHalf (a + BitVec.ofNat 32 k) = .ok (v.extractLsb' (8 * (2 - k)) 16) := by
    rw [← memHalf_poke_long s a v hk]
    refine readHalf_even ?_ (missesCtrl_within ha (by decide) hk hm)
    rw [BitVec.toNat_add, BitVec.toNat_ofNat]
    omega
  refine ⟨?_, ?_, hhalf (k := 2) (by decide) (by decide), fun k hk => ?_⟩
  · rw [readLong_aligned ((misaligned_long a).2 ha), longAt_plain hplain, memLong_poke]
  · have := hhalf (k := 0) (by decide) (by decide)
    rwa [BitVec.add_zero] at this
  · have hmiss : MissesCtrl (s.poke (longCells a v)) (a + BitVec.ofNat 32 k) 1 := missesCtrl_within ha (by decide) hk hm
    rw [readByte_of_missesCtrl hmiss, busAddr_add, Nat.add_zero, byteAt_poke_long s a v hk]

/-! The fetch port. -/

theorem getLsbD_zero_eq_false_iff (a : Word) : a.getLsbD 0 = false ↔ a.toNat % 2 = 0 := by
  rw [getLsbD_zero_eq, decide_eq_false_iff_not]
  omega

theorem fetchWord_odd {s : State} {a : Word} (h : a.toNat % 2 = 1) : s.fetchWord a = .error .oddPc := by
  rw [State.fetchWord, if_pos]
  rw [getLsbD_zero_eq, h]
  rfl

/-- Without coherence a byte stored to is not fetched (R90). -/
theorem fetchWord_stored {s : State} {a : Word} (h : a.toNat % 2 = 0) (hc : s.cfg.fetchCoherent = false)
    (hs : busAddr a 0 ∈ s.stored ∨ busAddr a 1 ∈ s.stored) : s.fetchWord a = .error .fetchAfterStore := by
  rw [State.fetchWord, (getLsbD_zero_eq_false_iff a).2 h, if_neg Bool.false_ne_true, if_pos]
  simpa [hc] using hs

theorem fetchInstr_of_opcode_refused {s : State} {r : Refusal} (h : s.fetchWord s.pc = .error r) :
    s.fetchInstr = .error r := by
  rw [State.fetchInstr, h]

theorem fetchInstr_of_ext_refused {s : State} {w : Half} {r : Refusal} (hw : s.fetchWord s.pc = .ok w)
    (h : s.fetchExt w = .error r) : s.fetchInstr = .error r := by
  simp only [State.fetchInstr, hw, h]

/-- `MOVEI` is refused at the first of its extension words that is (R272). -/
theorem fetchExt_refused {s : State} {w : Half} {r : Refusal} (hopc : opcOf w = moveiOpc)
    (h : s.fetchWord (s.pc + 2#32) = .error r ∨
      ((∃ lo, s.fetchWord (s.pc + 2#32) = .ok lo) ∧ s.fetchWord (s.pc + 4#32) = .error r)) :
    s.fetchExt w = .error r := by
  rw [State.fetchExt, if_pos hopc]
  obtain hlo | ⟨⟨lo, hlo⟩, hhi⟩ := h
  · rw [hlo]
  · rw [hlo, hhi]

theorem fetchInstr_beginStep (s : State) : s.beginStep.fetchInstr = s.fetchInstr := rfl

/-- A step is refused where its fetch is (R101). -/
theorem step_of_fetch_refused {s : State} {r : Refusal} (ha : AboutToRun s) (h : s.fetchInstr = .error r) :
    step s = .refused r := by
  rw [step_of_aboutToRun ha, fetchAndRun, fetchInstr_beginStep, h, withValue_error]

/-- Settles O15: the three cases of a fetch, and the step that cannot fetch its instruction. -/
theorem fetchPort : Obligations.FetchPort := by
  intro s a
  refine ⟨fetchWord_odd, fun heven hc => fetchWord_of_even ((getLsbD_zero_eq_false_iff a).2 heven) hc, fetchWord_stored,
    fun r ha h => step_of_fetch_refused ha (fetchInstr_of_opcode_refused h), fun w r ha hw hopc h => ?_⟩
  exact step_of_fetch_refused ha (fetchInstr_of_ext_refused hw (fetchExt_refused hopc h))

end Sys2Proof.Machine
end

section
/-! PROOFS. The family of spec/30_encoding.md: the encoder and the decoder agree (R100 to R112), the slots of each
variant (R109, R250), and the step as `exec` of what the bytes at `pc` decode to (R101). -/

namespace Sys2Proof.Machine

/-! Which instructions a variant has. -/

theorem wf_of_onlyOn_none {i : Instr} (h : i.onlyOn = none) (v : Variant) : i.wf v = true := by
  rw [Instr.wf, h]

theorem eq_of_wf {v w : Variant} {i : Instr} (h : i.wf v = true) (hw : i.onlyOn = some w) : w = v := by
  rw [Instr.wf, hw] at h
  exact eq_of_beq h

/-! Encoding, then decoding. -/

/-- One word is read. -/
theorem decode_bytesOfHalf {v : Variant} {w : Half} {i : Instr} (hopc : opcOf w ≠ moveiOpc)
    (h : decodeWord v w 0#32 = .ok i) (rest : List Byte) : decode v (bytesOfHalf w ++ rest) = .ok (i, rest) := by
  simp [decode, bytesOfHalf, hopc, h]

/-- Three words are read, the low half of the immediate first (R106). -/
theorem decode_three_bytesOfHalf {v : Variant} {w lo hi : Half} {i : Instr} (hopc : opcOf w = moveiOpc)
    (h : decodeWord v w (extOf lo hi) = .ok i) (rest : List Byte) :
    decode v (bytesOfHalf w ++ bytesOfHalf lo ++ bytesOfHalf hi ++ rest) = .ok (i, rest) := by
  simp [decode, bytesOfHalf, hopc, h]

theorem decode_encode_movei (v : Variant) (imm : Word) (rd : Reg) (rest : List Byte) :
    decode v (encodeBytes (.movei imm rd) ++ rest) = .ok (.movei imm rd, rest) := by
  have hword : decodeWord v (opWord moveiOpc 0#5 rd) (extOf (imm.extractLsb' 0 16) (imm.extractLsb' 16 16)) =
      .ok (.movei imm rd) := by
    rw [extOf_halves, decodeWord_opWord]
    rfl
  exact decode_three_bytesOfHalf (opcOf_opWord ..) hword rest

/-- `MOVEI` alone has extension words (R100). -/
theorem encode_oneWord {i : Instr} (hi : ∀ imm rd, i ≠ .movei imm rd) :
    encodeBytes i = bytesOfHalf (encodeOpcode i) ∧ opcOf (encodeOpcode i) ≠ moveiOpc := by
  rw [encodeOpcode, opcOf_opWord]
  cases i with
  | movei imm rd => exact absurd rfl (hi imm rd)
  | _ => exact ⟨rfl, by simp [encodeFields, moveiOpc]⟩

/-- The table of R108 read both ways: the slot of an instruction holds it on the variants that have it. -/
theorem decodeWord_encodeOpcode {v : Variant} {i : Instr} (hi : ∀ imm rd, i ≠ .movei imm rd) (hwf : i.wf v = true)
    (ext : Word) : decodeWord v (encodeOpcode i) ext = .ok i := by
  rw [encodeOpcode, decodeWord_opWord]
  cases i with
  | movei imm rd => exact absurd rfl (hi imm rd)
  | sat8 _ | sat16 _ | loadp _ _ | storep _ _ | sat24 _ | pack _ | unpack _
  | subqmod _ _ | sat16s _ | sat32s _ | mirror _ | illegal | addqmod _ _ => obtain rfl := eq_of_wf hwf rfl; rfl
  | _ => rfl

/-- Settles O2: an instruction of one word is read back from its slot, `MOVEI` from its slot and the halves of its
immediate. -/
theorem decodeOfEncode : Obligations.DecodeOfEncode := by
  intro v i rest hwf
  by_cases hi : ∃ imm rd, i = .movei imm rd
  · obtain ⟨imm, rd, rfl⟩ := hi
    exact decode_encode_movei v imm rd rest
  · have hi : ∀ imm rd, i ≠ .movei imm rd := fun imm rd h => hi ⟨imm, rd, h⟩
    obtain ⟨hbytes, hopc⟩ := encode_oneWord hi
    rw [hbytes]
    exact decode_bytesOfHalf hopc (decodeWord_encodeOpcode hi hwf 0#32) rest

/-! The slots of the dispatch table. -/

/-- The slots that differ between the variants (R109). -/
def slotsThatDiffer : List (BitVec 6) := [32#6, 33#6, 42#6, 48#6, 62#6, 63#6]

theorem mem_slotsThatDiffer {opc : BitVec 6} : opc ∈ slotsThatDiffer ↔
    opc.toNat = 32 ∨ opc.toNat = 33 ∨ opc.toNat = 42 ∨ opc.toNat = 48 ∨ opc.toNat = 62 ∨ opc.toNat = 63 := by
  simp [slotsThatDiffer, ← BitVec.toNat_inj]

/-- The other slots hold one instruction, whatever the variant. -/
theorem decodeFields_common {opc : BitVec 6} (h : opc ∉ slotsThatDiffer) (f1 f2 : BitVec 5) (ext : Word) :
    ∃ i : Instr, i.onlyOn = none ∧ ∀ v, decodeFields v opc f1 f2 ext = .ok i := by
  rw [mem_slotsThatDiffer] at h
  unfold decodeFields
  split
  -- The branches of the six slots, 32 being the 33rd; slot 63 is the one left over.
  case h_33 | h_34 | h_43 | h_49 | h_63 => omega
  case h_64 =>
    have hlt : opc.toNat < 64 := opc.isLt
    simp only [imp_false] at *
    omega
  all_goals exact ⟨_, rfl, fun _ => rfl⟩

/-- In each of the six slots the variants disagree, on the word whose other fields are 0. -/
theorem decodeFields_ne {opc : BitVec 6} (h : opc ∈ slotsThatDiffer) :
    decodeFields .gpu opc 0#5 0#5 0#32 ≠ decodeFields .dsp opc 0#5 0#5 0#32 := by
  revert opc
  decide

theorem decodePack_wf {f1 f2 : BitVec 5} {i : Instr} (h : decodePack f1 f2 = .ok i) : i.wf .gpu = true := by
  unfold decodePack at h
  split at h
  · cases h; rfl
  · split at h
    · cases h; rfl
    · cases h

/-- What a slot holds is an instruction of the variant. -/
theorem decodeFields_wf {v : Variant} {opc : BitVec 6} {f1 f2 : BitVec 5} {ext : Word} {i : Instr}
    (h : decodeFields v opc f1 f2 ext = .ok i) : i.wf v = true := by
  by_cases hslot : opc ∈ slotsThatDiffer
  · simp only [slotsThatDiffer, List.mem_cons, List.not_mem_nil, or_false] at hslot
    cases v with
    | gpu =>
      obtain rfl | rfl | rfl | rfl | rfl | rfl := hslot
      iterate 5 · cases h; rfl
      · exact decodePack_wf h
    | dsp => obtain rfl | rfl | rfl | rfl | rfl | rfl := hslot <;> cases h <;> rfl
  · obtain ⟨j, hj, hdecode⟩ := decodeFields_common hslot f1 f2 ext
    rw [hdecode v] at h
    cases h
    exact wf_of_onlyOn_none hj v

theorem encodedOn_of_slot {v : Variant} {opc : BitVec 6} {f1 f2 : BitVec 5} {i : Instr}
    (h : ∀ ext, decodeFields v opc f1 f2 ext = .ok i) : EncodedOn v opc f1 f2 i :=
  fun ext => (decodeWord_opWord v opc f1 f2 ext).trans (h ext)

/-- Settles O5: the common slots agree whatever the fields, the six others disagree, and each holds what R250 says. -/
theorem variantSlots : Obligations.VariantSlots := by
  refine ⟨fun opc => ⟨fun hsame hslot => decodeFields_ne hslot (hsame 0#5 0#5 0#32), fun hslot f1 f2 ext => ?_⟩,
    fun f1 f2 => ?_⟩
  · obtain ⟨i, -, hdecode⟩ := decodeFields_common hslot f1 f2 ext
    exact (hdecode .gpu).trans (hdecode .dsp).symm
  · and_intros <;> exact encodedOn_of_slot fun _ => rfl

/-! Decoding, then encoding. -/

/-- What `decode` accepts: one word, or the three of `MOVEI` (R100, R106). -/
theorem decode_eq_ok {v : Variant} {bytes rest : List Byte} {i : Instr} (h : decode v bytes = .ok (i, rest)) :
    (∃ a b, bytes = a :: b :: rest ∧ opcOf (halfOf a b) ≠ moveiOpc ∧ decodeWord v (halfOf a b) 0#32 = .ok i) ∨
    ∃ a b c d e f, bytes = a :: b :: c :: d :: e :: f :: rest ∧ opcOf (halfOf a b) = moveiOpc ∧
      decodeWord v (halfOf a b) (extOf (halfOf c d) (halfOf e f)) = .ok i := by
  unfold decode at h
  split at h
  · next a b tail =>
    dsimp only at h
    split at h
    · next hopc =>
      split at h
      · next c d e f tail =>
        split at h
        · next j hj => cases h; exact .inr ⟨a, b, c, d, e, f, rfl, hopc, hj⟩
        · cases h
      · cases h
    · next hopc =>
      split at h
      · next j hj => cases h; exact .inl ⟨a, b, rfl, hopc, hj⟩
      · cases h
  · cases h

/-- Settles O3: what was read lies in a slot of the variant, so O2 gives the second reading. -/
theorem decodedInstructions : Obligations.DecodedInstructions := by
  intro v bytes i rest h
  obtain ⟨a, b, rfl, hopc, hword⟩ | ⟨a, b, c, d, e, f, rfl, hopc, hword⟩ := decode_eq_ok h
  · have hwf : i.wf v = true := decodeFields_wf hword
    have hopc : opcOf (halfOf a b) ≠ 38#6 := hopc
    exact ⟨hwf, decodeOfEncode v i rest hwf, a, b, rest, rfl, by rw [if_neg hopc]; rfl,
      by rw [if_neg hopc, Nat.add_comm]; rfl⟩
  · have hwf : i.wf v = true := decodeFields_wf hword
    have hopc : opcOf (halfOf a b) = 38#6 := hopc
    exact ⟨hwf, decodeOfEncode v i rest hwf, a, b, _, rfl, by rw [if_pos hopc]; rfl,
      by rw [if_pos hopc, Nat.add_comm]; rfl⟩

/-! Sample words. -/

/-- Settles O1: `decode` is run on each word, for the common slots without knowing the variant. -/
theorem sampleWordsDecode : Obligations.SampleWordsDecode :=
  ⟨fun _ => rfl, fun _ => rfl, fun _ => rfl, fun _ => rfl, fun _ => rfl, fun _ => rfl, fun _ => rfl, fun _ => rfl,
    fun _ => rfl, rfl, rfl, rfl, rfl, rfl, rfl⟩

/-! The step. -/

/-- The word `k` bytes past `pc`, where no byte up to its end is one the fetch minds (R71, R74, R90). -/
theorem fetchWord_ahead {s : State} {k : Nat} (heven : s.pc.getLsbD 0 = false) (hk : k % 2 = 0)
    (hfetch : ∀ j, j < k + 2 → s.cfg.fetchCoherent = true ∨ busAddr s.pc j ∉ s.stored) :
    s.fetchWord (s.pc + BitVec.ofNat 32 k) =
      .ok (halfOf (s.byteAt (busAddr s.pc k)) (s.byteAt (busAddr s.pc (k + 1)))) := by
  obtain ⟨m, rfl⟩ := Nat.dvd_of_mod_eq_zero hk
  rw [fetchWord_of_even (even_add s.pc m heven), State.memHalf, busAddr_add, busAddr_add]
  · rfl
  · rw [busAddr_add, busAddr_add, or_and_left]
    exact ⟨hfetch _ (by omega), hfetch _ (by omega)⟩

theorem fetchInstr_of_word {s : State} {w : Half} {i : Instr} (hw : s.fetchWord s.pc = .ok w)
    (hopc : opcOf w ≠ moveiOpc) (h : decodeWord s.cfg.variant w 0#32 = .ok i) : s.fetchInstr = .ok i := by
  have hext : s.fetchExt w = .ok 0#32 := if_neg hopc
  simp only [State.fetchInstr, hw, hext, h]

theorem fetchInstr_of_movei {s : State} {w lo hi : Half} {i : Instr} (hw : s.fetchWord s.pc = .ok w)
    (hopc : opcOf w = moveiOpc) (hlo : s.fetchWord (s.pc + 2#32) = .ok lo) (hhi : s.fetchWord (s.pc + 4#32) = .ok hi)
    (h : decodeWord s.cfg.variant w (extOf lo hi) = .ok i) : s.fetchInstr = .ok i := by
  have hext : s.fetchExt w = .ok (extOf lo hi) := by rw [State.fetchExt, if_pos hopc, hlo, hhi]
  simp only [State.fetchInstr, hw, hext, h]

/-- The fetch port answers what `decode` reads: an instruction of one word needs two bytes that may be fetched, `MOVEI`
six (R101, R272). -/
theorem fetchInstr_of_decode {s : State} {i : Instr} {rest : List Byte} (heven : s.pc.getLsbD 0 = false)
    (hdecode : decode s.cfg.variant ((List.range 6).map fun k => s.byteAt (busAddr s.pc k)) = .ok (i, rest))
    (hfetch : ∀ k, k + rest.length < 6 → s.cfg.fetchCoherent = true ∨ busAddr s.pc k ∉ s.stored) :
    s.fetchInstr = .ok i := by
  obtain ⟨a, b, hbytes, hopc, hword⟩ | ⟨a, b, c, d, e, f, hbytes, hopc, hword⟩ := decode_eq_ok hdecode
  · cases hbytes
    have hw := fetchWord_ahead (k := 0) heven rfl fun j hj => hfetch j (show j + 4 < 6 by omega)
    rw [BitVec.add_zero] at hw
    exact fetchInstr_of_word hw hopc hword
  · cases hbytes
    have hahead {k : Nat} (heven' : k % 2 = 0) (hk : k < 5) :=
      fetchWord_ahead heven heven' fun j hj => hfetch j (show j < 6 by omega)
    have hw := hahead (k := 0) rfl (by decide)
    rw [BitVec.add_zero] at hw
    exact fetchInstr_of_movei hw hopc (hahead (k := 2) rfl (by decide)) (hahead (k := 4) rfl (by decide)) hword

theorem begun_eq (s : State) : Begun s = s.beginStep.fetched := rfl

/-- Settles O14: the step fetches what the bytes decode to, and only a taken branch leaves a slot to run. -/
theorem stepRunsTheDecodedInstruction : Obligations.StepRunsTheDecodedInstruction := by
  intro s i rest hrun heven hdecode hfetch
  have hinstr : s.beginStep.fetchInstr = .ok i := fetchInstr_of_decode heven hdecode hfetch
  have hstep : step s = andThen (exec i (Begun s)) (runSlot exec) := by
    rw [step_of_aboutToRun hrun, fetchAndRun, hinstr, withValue_ok, begun_eq]
  refine ⟨hstep, fun hi => hstep.trans ?_⟩
  obtain ⟨-, -, -, hidle⟩ := hrun
  cases hexec : exec i (Begun s) with
  | next t => exact runSlot_idle ((exec_nodelay hi hexec).trans hidle)
  | _ => rfl

end Sys2Proof.Machine
end

section
/-! PROOFS. The family of spec/40_alu.md: what `ADDop` and `SUBop` answer (R130), and for each instruction the rule of
the way its meaning ends (Laws/Effects.lean) at the value it computes. -/

namespace Sys2Proof.Machine

/-! Encodings. -/

/-- An encoding on both variants is an entry of the table of R108. -/
theorem encoded_of_slot {opc : BitVec 6} {f1 f2 : BitVec 5} {i : Instr}
    (h : ∀ v ext, decodeFields v opc f1 f2 ext = .ok i) : Encoded opc f1 f2 i :=
  fun v => encodedOn_of_slot (h v)

/-! The sum and the difference of two words. -/

@[simp] theorem toNat_quick (n : Imm5) : (quick n).toNat = quickValue n := by
  have hlt : quickValue n < 2 ^ 32 := by
    unfold quickValue
    split <;> omega
  exact Nat.mod_eq_of_lt hlt

theorem add_eq_ofNat (a b : Word) : a + b = BitVec.ofNat 32 (a.toNat + b.toNat) := by
  simp [BitVec.ofNat_add]

theorem sub_eq_ofInt (a b : Word) : a - b = BitVec.ofInt 32 (a.toNat - b.toNat) := by
  simp [Int.sub_eq_add_neg, BitVec.ofInt_add, BitVec.ofInt_neg, BitVec.sub_eq_add_neg]

theorem add_quick (a : Word) (n : Imm5) : a + quick n = BitVec.ofNat 32 (a.toNat + quickValue n) := by
  rw [add_eq_ofNat, toNat_quick]

theorem sub_quick (a : Word) (n : Imm5) : a - quick n = BitVec.ofInt 32 (a.toNat - quickValue n) := by
  rw [sub_eq_ofInt, toNat_quick]

theorem addOp_false (a b : Word) :
    addOp a b false = (BitVec.ofNat 32 (a.toNat + b.toNat), decide (2 ^ 32 ≤ a.toNat + b.toNat)) := rfl

theorem addOp_quick (a : Word) (n : Imm5) :
    addOp a (quick n) false = (BitVec.ofNat 32 (a.toNat + quickValue n), decide (2 ^ 32 ≤ a.toNat + quickValue n)) := by
  rw [addOp_false, toNat_quick]

/-- The borrow is an unsigned comparison. -/
theorem subOp_eq (a b : Word) (cin : Bool) : subOp a b cin =
    (BitVec.ofInt 32 (a.toNat - b.toNat - cin.toNat), decide (a.toNat < b.toNat + cin.toNat)) := by
  simp only [subOp, Prod.mk.injEq, decide_eq_decide, true_and]
  omega

theorem subOp_false (a b : Word) :
    subOp a b false = (BitVec.ofInt 32 (a.toNat - b.toNat), decide (a.toNat < b.toNat)) := by
  simp [subOp_eq]

theorem subOp_quick (a : Word) (n : Imm5) :
    subOp a (quick n) false = (BitVec.ofInt 32 (a.toNat - quickValue n), decide (a.toNat < quickValue n)) := by
  rw [subOp_false, toNat_quick]

/-- Negation borrows unless its operand is 0. -/
theorem subOp_zero_left (a : Word) :
    subOp 0#32 a false = (BitVec.ofInt 32 (-(a.toNat : Int)), decide (a ≠ 0#32)) := by
  simp [subOp_false, Nat.pos_iff_ne_zero, ← BitVec.toNat_inj]

/-! A result in `rd`. -/

theorem finishZNC_writes_of_eq (s : State) (rd : Reg) {rc : Word × Bool} {v : Word} {c : Bool} (h : rc = (v, c)) :
    ∃ t, finishZNC rd rc s = .next t ∧ WritesZNC s t rd v c :=
  h ▸ finishZNC_writes s rd (v, c)

theorem finishQuiet_writes_of_eq (s : State) (rd : Reg) {r v : Word} (h : r = v) :
    ∃ t, finishQuiet rd r s = .next t ∧ WritesQuietly s t rd v :=
  h ▸ finishQuiet_writes s rd v

/-- A result said bit by bit. -/
theorem finishZN_writes_bits (s : State) (rd : Reg) {v : Word} {bit : Nat → Bool}
    (h : ∀ i, i < 32 → v.getLsbD i = bit i) :
    ∃ t r, finishZN rd v s = .next t ∧ WritesZN s t rd r ∧ ∀ i, i < 32 → r.getLsbD i = bit i := by
  obtain ⟨t, hfinish, hwrites⟩ := finishZN_writes s rd v
  exact ⟨t, v, hfinish, hwrites, h⟩

/-- Settles O18: each ends in `ADDop` of its operands and its carry in. -/
theorem addForms : Obligations.AddForms := by
  intro s rs rd n
  refine ⟨⟨encoded_of_slot fun _ _ => rfl, ?add⟩, ⟨encoded_of_slot fun _ _ => rfl, ?addc⟩,
    ⟨encoded_of_slot fun _ _ => rfl, ?addq⟩⟩
  case add => exact finishZNC_writes_of_eq s rd (addOp_false (s.x rd) (s.x rs))
  case addc => exact finishZNC_writes s rd (addOp (s.x rd) (s.x rs) s.c)
  case addq => exact finishZNC_writes_of_eq s rd (addOp_quick (s.x rd) n)

/-- Settles O19: each ends in `SUBop` of its operands and its borrow in, `NEG` of 0 and `rd`. -/
theorem subForms : Obligations.SubForms := by
  intro s rs rd n
  refine ⟨⟨encoded_of_slot fun _ _ => rfl, ?sub⟩, ⟨encoded_of_slot fun _ _ => rfl, ?subc⟩,
    ⟨encoded_of_slot fun _ _ => rfl, ?subq⟩, ⟨encoded_of_slot fun _ _ => rfl, ?neg⟩⟩
  case sub => exact finishZNC_writes_of_eq s rd (subOp_false (s.x rd) (s.x rs))
  case subc => exact finishZNC_writes_of_eq s rd (subOp_eq (s.x rd) (s.x rs) s.c)
  case subq => exact finishZNC_writes_of_eq s rd (subOp_quick (s.x rd) n)
  case neg => exact finishZNC_writes_of_eq s rd (subOp_zero_left (s.x rd))

/-- Settles O20: the wrapped sum and difference, by a write that no flag follows. -/
theorem transparentForms : Obligations.TransparentForms := by
  intro s rd n
  refine ⟨⟨encoded_of_slot fun _ _ => rfl, ?addqt⟩, ⟨encoded_of_slot fun _ _ => rfl, ?subqt⟩⟩
  case addqt => exact finishQuiet_writes_of_eq s rd (add_quick (s.x rd) n)
  case subqt => exact finishQuiet_writes_of_eq s rd (sub_quick (s.x rd) n)

/-- Settles O22: the word operators act on each bit. -/
theorem logicForms : Obligations.LogicForms := by
  intro s rs rd
  refine ⟨⟨encoded_of_slot fun _ _ => rfl, ?and⟩, ⟨encoded_of_slot fun _ _ => rfl, ?or⟩,
    ⟨encoded_of_slot fun _ _ => rfl, ?xor⟩, ⟨encoded_of_slot fun _ _ => rfl, ?not⟩⟩
  case and => exact finishZN_writes_bits s rd fun _ _ => BitVec.getLsbD_and
  case or => exact finishZN_writes_bits s rd fun _ _ => BitVec.getLsbD_or
  case xor => exact finishZN_writes_bits s rd fun _ _ => BitVec.getLsbD_xor
  case not => exact finishZN_writes_bits s rd fun i hi => by simp [hi]

/-! Flags alone. -/

/-- The flags of `a - b`: equality, the unsigned comparison, and the sign of the wrapped difference. -/
theorem compareZNC_subOp (s : State) (a b : Word) : ∃ t, compareZNC (subOp a b false) s = .next t ∧
    OnlyFlags s t (decide (a = b)) (decide (a.toNat < b.toNat))
      (decide (2 ^ 31 ≤ (a.toNat - b.toNat : Int) % 2 ^ 32)) := by
  have hz : (a - b == 0#32) = decide (a = b) := by
    rw [beq_eq_decide, decide_eq_decide]
    exact sub_eq_zero
  have hn : (a - b).getLsbD 31 = decide (2 ^ 31 ≤ (a.toNat - b.toNat : Int) % 2 ^ 32) := by
    rw [getLsbD_31, sub_eq_ofInt, BitVec.toNat_ofInt, decide_eq_decide]
    omega
  rw [subOp_false, ← sub_eq_ofInt, ← hz, ← hn]
  exact compareZNC_flags s _

/-- Settles O21: both compare, `CMPQ` with the immediate sign-extended. -/
theorem compareForms : Obligations.CompareForms := fun s rs rd n =>
  ⟨⟨encoded_of_slot fun _ _ => rfl, compareZNC_subOp s (s.x rd) (s.x rs)⟩,
    ⟨encoded_of_slot fun _ _ => rfl, compareZNC_subOp s (s.x rd) (n.signExtend 32)⟩⟩

theorem onlyFlags_setZ (s : State) (b : Bool) : OnlyFlags s (s.setZ b) b s.c s.n := by
  have hbit (i : Nat) : (s.setZ b).flags.getLsbD i = if i = 0 then b else s.flags.getLsbD i :=
    getLsbD_putBit _ _ _ _ (by decide)
  exact ⟨keepsRegs_of rfl rfl, rfl, by simp [KeepsSpecial], keepsMem_of rfl rfl, hbit 0, hbit 1, hbit 2,
    fun i hi => (hbit i).trans (if_neg (by omega))⟩

/-- Settles O23: `BTST` writes one bit of `FLAGS`; the mask of `BSET` and `BCLR` has the one bit `n`. -/
theorem bitForms : Obligations.BitForms := by
  intro s n rd
  have hmask (i : Nat) (hi : i < 32) : (BitVec.twoPow 32 n.toNat).getLsbD i = decide (i = n.toNat) := by
    simp [hi]
  refine ⟨⟨encoded_of_slot fun _ _ => rfl, ?btst⟩, ⟨encoded_of_slot fun _ _ => rfl, ?bset⟩,
    ⟨encoded_of_slot fun _ _ => rfl, ?bclr⟩⟩
  case btst => exact ⟨_, rfl, onlyFlags_setZ s _⟩
  case bset => exact finishZN_writes_bits s rd fun i hi => by rw [BitVec.getLsbD_or, hmask i hi, Bool.or_comm]
  case bclr =>
    refine finishZN_writes_bits s rd fun i hi => ?_
    rw [BitVec.getLsbD_and, BitVec.getLsbD_not, hmask i hi, decide_eq_true hi, Bool.true_and, Bool.and_comm]

/-! The magnitude. -/

theorem flagsBecome_putZCN {s t : State} {z c n : Bool} (h : t.flags = putZCN s.flags z c n) :
    FlagsBecome s t z c n := by
  have hbit (i : Nat) := (congrArg (BitVec.getLsbD · i) h).trans (getLsbD_putZCN s.flags z c n i)
  exact ⟨hbit 0, hbit 1, hbit 2, fun i hi => by simpa [show i ≠ 0 ∧ i ≠ 1 ∧ i ≠ 2 by omega] using hbit i⟩

theorem getLsbD_31_eq_neg (v : Word) : v.getLsbD 31 = decide (v.toInt < 0) := by
  rw [getLsbD_31, decide_eq_decide, BitVec.toInt_neg_iff]
  omega

/-- The most negative word is its own magnitude, read unsigned. -/
theorem ofNat_natAbs_toInt (v : Word) :
    BitVec.ofNat 32 v.toInt.natAbs = if v.getLsbD 31 then 0#32 - v else v := by
  have hlt := v.isLt
  have htoInt := BitVec.toInt_eq_toNat_cond v
  rw [getLsbD_31]
  apply BitVec.eq_of_toNat_eq
  by_cases hneg : 2 ^ 31 ≤ v.toNat
  · rw [decide_eq_true hneg, if_pos rfl, BitVec.toNat_ofNat, BitVec.toNat_sub, BitVec.toNat_ofNat]
    omega
  · rw [decide_eq_false hneg, if_neg Bool.false_ne_true, BitVec.toNat_ofNat]
    omega

theorem execAbs_eq (s : State) (rd : Reg) : execAbs rd s =
    .next { s.setX rd (BitVec.ofNat 32 (s.x rd).toInt.natAbs) with
      flags := putZCN s.flags (decide (s.x rd = 0#32)) (decide ((s.x rd).toInt < 0)) false } := by
  have hz : ((if (s.x rd).getLsbD 31 then 0#32 - s.x rd else s.x rd) == 0#32) = decide (s.x rd = 0#32) := by
    split <;> simp [beq_eq_decide]
  rw [execAbs, hz, ofNat_natAbs_toInt, getLsbD_31_eq_neg]

/-- Settles O24: `C` comes from the operand, `N` is written 0 whatever the magnitude. -/
theorem absoluteValue : Obligations.AbsoluteValue := fun s _ rd =>
  ⟨encoded_of_slot fun _ _ => rfl, _, execAbs_eq s rd, onlyWrites_setX s rd _ _, flagsBecome_putZCN rfl⟩

end Sys2Proof.Machine
end

section
/-! PROOFS. The family of spec/41_multiply.md: exact products (R170, R171), the accumulator on its own (R174, R175), the
chain of `IMULTN` and its end (R172, R173, R320), the matrix multiply and where it stops (R177). -/

namespace Sys2Proof.Machine

/-! Products. -/

/-- A product of two halves fits a word (R171). -/
theorem toInt_ofInt_product (s : State) (ra rb : Reg) :
    (BitVec.ofInt 32 (s.product ra rb)).toInt = s.product ra rb := by
  obtain ⟨hlo, hhi⟩ := product_bounds s ra rb
  exact BitVec.toInt_ofInt_eq_self (by decide) (by omega) (by omega)

theorem toNat_mul_lowHalves (a b : Word) :
    (BitVec.ofNat 32 ((a.extractLsb' 0 16).toNat * (b.extractLsb' 0 16).toNat)).toNat =
      (a.toNat % 2 ^ 16) * (b.toNat % 2 ^ 16) := by
  have hlow (v : Word) : (v.extractLsb' 0 16).toNat = v.toNat % 2 ^ 16 := BitVec.extractLsb'_toNat ..
  have hlt (v : Word) : v.toNat % 2 ^ 16 < 2 ^ 16 := Nat.mod_lt _ (by decide)
  rw [hlow, hlow, BitVec.toNat_ofNat]
  have hfits : (a.toNat % 2 ^ 16) * (b.toNat % 2 ^ 16) < 2 ^ 16 * 2 ^ 16 := Nat.mul_lt_mul'' (hlt a) (hlt b)
  exact Nat.mod_eq_of_lt hfits

/-- Settles O26: the product fits the word that `setZN` and the write take, as a number or as an integer. -/
theorem multiplies : Obligations.Multiplies := by
  intro s rs rd
  refine ⟨⟨encoded_of_slot fun _ _ => rfl, ?mult⟩, ⟨encoded_of_slot fun _ _ => rfl, ?imult⟩⟩
  case mult =>
    obtain ⟨t, hfinish, hwrites⟩ := finishZN_writes s rd _
    exact ⟨t, _, hfinish, hwrites, toNat_mul_lowHalves (s.x rs) (s.x rd)⟩
  case imult =>
    obtain ⟨t, hfinish, hwrites⟩ := finishZN_writes s rd _
    exact ⟨t, _, hfinish, hwrites, toInt_ofInt_product s rs rd⟩

/-! The accumulator. -/

theorem accumulate_eq (s : State) (ra rb : Reg) :
    s.accumulate ra rb = { s with acc := BitVec.ofInt 64 (s.acc.toInt + lowSigned (s.x ra) * lowSigned (s.x rb)) } := by
  rw [BitVec.ofInt_add, BitVec.ofInt_toInt]
  rfl

theorem keepsSpecial_accumulate (s : State) (ra rb : Reg) :
    KeepsSpecial { s with acc := BitVec.ofInt 64 (s.acc.toInt + lowSigned (s.x ra) * lowSigned (s.x rb)) }
      (s.accumulate ra rb) :=
  accumulate_eq s ra rb ▸ keepsSpecial_refl _

theorem extractLsb'_low_eq_ofNat (a : Acc) : a.extractLsb' 0 32 = BitVec.ofNat 32 (a.toNat % 2 ^ 32) := by
  apply BitVec.eq_of_toNat_eq
  rw [BitVec.extractLsb'_toNat, BitVec.toNat_ofNat, Nat.mod_mod, Nat.shiftRight_zero]

theorem writesQuietly_deliver (s : State) (rd : Reg) : WritesQuietly s (s.deliver rd) rd (s.acc.extractLsb' 0 32) :=
  writesQuietly_setX s rd _

/-- Settles O27: `IMACN` writes the accumulator alone, `RESMAC` its low word. -/
theorem accumulatorForms : Obligations.AccumulatorForms := by
  intro s rs rd
  refine ⟨⟨encoded_of_slot fun _ _ => rfl, ?imacn⟩, ⟨encoded_of_slot fun _ _ => rfl, ?resmac⟩⟩
  case imacn =>
    exact ⟨s.accumulate rs rd, rfl, keepsRegs_of rfl rfl, rfl, rfl, keepsMem_of rfl rfl, keepsSpecial_accumulate s rs rd⟩
  case resmac =>
    rw [← extractLsb'_low_eq_ofNat]
    exact ⟨s.deliver rd, rfl, writesQuietly_deliver s rd⟩

/-! The chain. -/

/-- The state in which `IMULTN` begins to look ahead (R172): the product `p` in `acc`, its flags set. -/
def State.multiplied (s : State) (p : Int) : State :=
  { s with acc := BitVec.ofInt 64 p }.setZN (BitVec.ofInt 32 p)

theorem execImultn_of_not_inDelay {s : State} (h : s.delay ≠ .executing) (rs rd : Reg) :
    execImultn rs rd s = absorb chainFuel (s.multiplied (s.product rs rd)) :=
  if_neg (by simpa [State.inDelay] using h)

theorem x_multiplied (s : State) (p : Int) (r : Reg) : (s.multiplied p).x r = s.x r := reg_congr rfl rfl s.cur r

theorem fetchWord_multiplied (s : State) (p : Int) (a : Word) : (s.multiplied p).fetchWord a = s.fetchWord a := rfl

/-- The state after `IMULTN` of the product `p` and `n` absorbed words that bring the accumulator to `total` (R173). -/
def State.chained (s : State) (p total : Int) (n : Nat) : State :=
  { s.multiplied p with acc := BitVec.ofInt 64 total, pc := s.pc + BitVec.ofNat 32 (2 * n) }

theorem absorb_chain {s : State} {p total : Int} {ops : List (Reg × Reg)} {w : Half}
    (hops : ∀ k (h : k < ops.length),
      s.fetchWord (s.pc + BitVec.ofNat 32 (2 * k)) = .ok (opWord 20#6 ops[k].1 ops[k].2))
    (hw : s.fetchWord (s.pc + BitVec.ofNat 32 (2 * ops.length)) = .ok w) (hopc : opcOf w ≠ 20#6)
    (htotal : total = p + (ops.map fun q => lowSigned (s.x q.1) * lowSigned (s.x q.2)).sum) :
    absorb chainFuel (s.multiplied p) =
      if opcOf w = 19#6 then .next ((s.chained p total ops.length).deliver (f2Of w)).skipWord
      else .next (s.chained p total ops.length) := by
  have hshort : ops.length < chainFuel := chain_short hops fun w' hw' => by
    cases hw.symm.trans hw'
    exact hopc
  have hproducts : (fun q : Reg × Reg => (s.multiplied p).product q.1 q.2) =
      fun q => lowSigned (s.x q.1) * lowSigned (s.x q.2) := by
    funext q
    rw [State.product, x_multiplied, x_multiplied, s16_eq_lowSigned, s16_eq_lowSigned]
  have hacc : (s.multiplied p).acc + BitVec.ofInt 64 (ops.map fun q => (s.multiplied p).product q.1 q.2).sum =
      BitVec.ofInt 64 total := by
    rw [hproducts, htotal, BitVec.ofInt_add]
    rfl
  have hspec := absorb_spec chainFuel ops (s.multiplied p) w hshort hops hw hopc
  rw [hacc] at hspec
  exact hspec

/-- The flags of a word that holds an integer exactly. -/
theorem flagsBecome_setZN_toInt (s : State) (v : Word) :
    FlagsBecome s (s.setZN v) (decide (v.toInt = 0)) s.c (decide (v.toInt < 0)) := by
  have hz : (v == 0#32) = decide (v.toInt = 0) := by
    rw [beq_eq_decide, decide_eq_decide, ← BitVec.toInt_inj, BitVec.toInt_zero]
  rw [← hz, ← getLsbD_31_eq_neg]
  exact flagsBecome_setZN s v

theorem flagsBecome_chained (s : State) (rs rd : Reg) (total : Int) (n : Nat) :
    FlagsBecome s (s.chained (s.product rs rd) total n) (decide (s.product rs rd = 0)) s.c
      (decide (s.product rs rd < 0)) := by
  have hflags := flagsBecome_setZN_toInt s (BitVec.ofInt 32 (s.product rs rd))
  rw [toInt_ofInt_product] at hflags
  exact hflags

theorem keepsRegs_chained (s : State) (p total : Int) (n : Nat) : KeepsRegs s (s.chained p total n) :=
  keepsRegs_of rfl rfl

theorem keepsMem_chained (s : State) (p total : Int) (n : Nat) : KeepsMem s (s.chained p total n) :=
  keepsMem_of rfl rfl

theorem keepsSpecial_chained (s : State) (p total : Int) (n : Nat) :
    KeepsSpecial { s with acc := BitVec.ofInt 64 total } (s.chained p total n) := keepsSpecial_refl _

/-- A write after updates that touch no bank. -/
theorem WritesReg.of_keepsRegs {s u t : State} {rd : Reg} {v : Word} (hcur : u.cur = s.cur) (hregs : KeepsRegs s u)
    (h : WritesReg u t rd v) : WritesReg s t rd v := by
  obtain ⟨hwritten, hothers⟩ := h
  rw [hcur] at hwritten hothers
  exact ⟨hwritten, fun b r hne => (hothers b r hne).trans (hregs b r)⟩

/-- The low word of the accumulator is that of the exact total. -/
theorem extractLsb'_low_ofInt (total : Int) : (BitVec.ofInt 64 total).extractLsb' 0 32 = BitVec.ofInt 32 total := by
  apply BitVec.eq_of_toNat_eq
  rw [BitVec.extractLsb'_toNat, Nat.shiftRight_zero, BitVec.toNat_ofInt, BitVec.toNat_ofInt]
  omega

/-- What `RESMAC` adds at the end of a chain (R173, R175): one register, and the word after it is the next. -/
theorem writesReg_deliver_chained (s : State) (p total : Int) (n : Nat) (rd : Reg) :
    WritesReg s ((s.chained p total n).deliver rd).skipWord rd (BitVec.ofInt 32 total) := by
  rw [← extractLsb'_low_ofInt]
  exact ((writesReg_setX (s.chained p total n) rd _).congr rfl rfl).of_keepsRegs rfl (keepsRegs_chained s p total n)

theorem pc_deliver_chained (s : State) (p total : Int) (n : Nat) (rd : Reg) :
    ((s.chained p total n).deliver rd).skipWord.pc = s.pc + BitVec.ofNat 32 (2 * n + 2) := by
  rw [skipWord_pc, deliver_pc, BitVec.ofNat_add, ← BitVec.add_assoc]
  rfl

/-- Settles O28: a chain that ends is shorter than the look-ahead, so `absorb` comes to its end, where the fetch is refused,
finds a `RESMAC`, or leaves the word. -/
theorem multiplyAccumulateChain : Obligations.MultiplyAccumulateChain := by
  intro s rs rd ops hdelay hops
  have hexec : exec (.imultn rs rd) s = absorb chainFuel (s.multiplied (s.product rs rd)) :=
    execImultn_of_not_inDelay hdelay rs rd
  refine ⟨encoded_of_slot fun _ _ => rfl, fun r hr => ?refused, fun w hw hopc p total hp htotal => ?runs⟩
  case refused =>
    have hshort : ops.length < chainFuel := chain_short hops fun w hw => nomatch hr.symm.trans hw
    exact hexec.trans (absorb_refused chainFuel ops (s.multiplied _) r hshort hops hr)
  case runs =>
    have hflags := flagsBecome_chained s rs rd total ops.length
    rw [show s.product rs rd = p from hp.symm] at hexec hflags
    rw [hexec, absorb_chain hops hw hopc htotal]
    by_cases hresmac : opcOf w = 19#6
    · obtain ⟨⟨-, -, hspecial, hmem⟩, hquiet⟩ := writesQuietly_deliver (s.chained p total ops.length) (f2Of w)
      simp only [if_pos hresmac]
      exact ⟨_, rfl, hflags.congr rfl hquiet,
        ⟨writesReg_deliver_chained s p total ops.length (f2Of w), pc_deliver_chained s p total ops.length (f2Of w)⟩,
        hmem, (keepsSpecial_chained s p total ops.length).trans hspecial⟩
    · simp only [if_neg hresmac]
      exact ⟨_, rfl, hflags, ⟨keepsRegs_chained s p total ops.length, rfl⟩, keepsMem_chained s p total ops.length,
        keepsSpecial_chained s p total ops.length⟩

/-! The matrix multiply. -/

theorem mtxCount_eq (s : State) : s.mtxCount = s.mtxc.toNat % 16 := by
  rw [State.mtxCount, BitVec.extractLsb'_toNat, Nat.shiftRight_zero]

/-- One element of the packed vector, the even ones in the high halves (R177). -/
theorem mtxElement_eq (s : State) (first : Reg) (i : Nat) : s.mtxElement first i =
    (s.reg .b1 (BitVec.ofNat 5 (first.toNat + i / 2))).extractLsb' (if i % 2 = 0 then 16 else 0) 16 := by
  unfold State.mtxElement
  split <;> rfl

section
variable {s : State} {rs : Reg} {count stride : Nat} {addr : Nat → Word} (hcount : count = s.mtxc.toNat % 16)
  (hstride : stride = if s.mtxc.getLsbD 4 then 2 * count else 2)
  (haddr : ∀ i, addr i = s.mtxa + BitVec.ofNat 32 (stride * i))
include hcount hstride haddr

/-- `MMULT` has added its first `m` products where none of them stops it. -/
theorem execMmult_prefix (rd : Reg) {m todo : Nat} (hm : m + todo = count)
    (hplain : ∀ i, i < m → rs.toNat + i / 2 ≤ 31 ∧ (addr i).toNat % 2 = 0 ∧ MissesCtrl s (addr i) 2) :
    execMmult rs rd s = withValue (s.mtxSum rs todo m (addr m)
        (∑ i ∈ Finset.range m, (s.mtxElement rs i).toInt * (s.memHalf (addr i)).toInt))
      fun sum => finishZN rd (BitVec.ofInt 32 sum) s := by
  rw [← mtxCount_eq] at hcount
  have hfirst : addr 0 = s.mtxa := by simp [haddr]
  have hprefix := mtxSum_prefix (hstride.trans (by rw [hcount]; rfl)) addr haddr m todo 0 0
    fun i _ hi => hplain i (by omega)
  simp only [zero_add, hfirst, hm, hcount] at hprefix
  rw [execMmult, hprefix]

/-- Where element `i` is the first that stops the sum, `MMULT` is refused for its reason. -/
theorem execMmult_stops (rd : Reg) {i : Nat} {r : Refusal} (hi : i < count)
    (hplain : ∀ j, j < i → rs.toNat + j / 2 ≤ 31 ∧ (addr j).toNat % 2 = 0 ∧ MissesCtrl s (addr j) 2)
    (hstop : ∀ todo sum, s.mtxSum rs (todo + 1) i (addr i) sum = .error r) :
    exec (.mmult rs rd) s = .refused r := by
  have hprefix := execMmult_prefix hcount hstride haddr rd (todo := count - i - 1 + 1) (by omega) hplain
  rw [hstop, withValue_error] at hprefix
  exact hprefix

end

/-- Settles O29: every element is added, and the sum that is left to do is empty. -/
theorem matrixMultiply : Obligations.MatrixMultiply := by
  intro s rs rd count stride addr hcount hstride haddr hplain
  have hexec : exec (.mmult rs rd) s = _ := execMmult_prefix hcount hstride haddr rd (todo := 0) rfl hplain
  simp only [mtxElement_eq] at hexec
  rw [hexec]
  exact ⟨encoded_of_slot fun _ _ => rfl, finishZN_writes s rd _⟩

theorem mtxSum_overrun {s : State} {first : Reg} {i : Nat} (h : 31 < first.toNat + i / 2) (todo : Nat) (a : Word)
    (sum : Int) : s.mtxSum first (todo + 1) i a sum = .error .mmultRegisterOverrun :=
  if_pos h

theorem mtxSum_of_read_refused {s : State} {first : Reg} {i : Nat} {a : Word} {r : Refusal}
    (h : first.toNat + i / 2 ≤ 31) (hread : s.readHalf a = .error r) (todo : Nat) (sum : Int) :
    s.mtxSum first (todo + 1) i a sum = .error r := by
  rw [State.mtxSum, if_neg (by omega), hread]

theorem readHalf_odd {s : State} {a : Word} (h : a.toNat % 2 = 1) : s.readHalf a = .error .misaligned :=
  if_pos ((misaligned_half_true a).2 (by omega))

theorem readHalf_of_touches {s : State} {a : Word} (h : a.toNat % 2 = 0) (hctrl : ¬ MissesCtrl s a 2) :
    s.readHalf a = .error .narrowCtrlAccess := by
  rw [missesCtrl_iff, Bool.not_eq_false] at hctrl
  rw [State.readHalf, (misaligned_half a).2 h, hctrl]
  rfl

/-- Settles O30: the elements before `i` are added, and `i` meets the tests of R177 in their order. -/
theorem matrixMultiplyStops : Obligations.MatrixMultiplyStops := by
  intro s rs rd count stride i addr hcount hstride haddr hi hplain
  have hstops {r : Refusal} := execMmult_stops (r := r) hcount hstride haddr rd hi hplain
  exact ⟨fun hover => hstops fun todo => mtxSum_overrun hover todo (addr i),
    fun hreg hodd => hstops (mtxSum_of_read_refused hreg (readHalf_odd hodd)),
    fun hreg heven hctrl => hstops (mtxSum_of_read_refused hreg (readHalf_of_touches heven hctrl))⟩

/-! No step faults. -/

/-- The outcome is a next state or a refusal. -/
def NeverFaults (o : Res) : Prop := ∀ f, o ≠ .fault f

theorem neverFaults_next (s : State) : NeverFaults (.next s) := nofun

theorem neverFaults_refused (r : Refusal) : NeverFaults (.refused r) := nofun

theorem NeverFaults.andThen {o : Res} {f : State → Res} (ho : NeverFaults o) (hf : ∀ s, NeverFaults (f s)) :
    NeverFaults (andThen o f) := by
  cases o with
  | next s => exact hf s
  | fault r => exact absurd rfl (ho r)
  | refused r => exact neverFaults_refused r

theorem neverFaults_withValue {α : Type} {e : Except Refusal α} {f : α → Res}
    (hf : ∀ v, e = .ok v → NeverFaults (f v)) : NeverFaults (withValue e f) := by
  cases e with
  | ok v => exact hf v rfl
  | error r => exact neverFaults_refused r

theorem NeverFaults.ite {c : Prop} [Decidable c] {o o' : Res} (h : NeverFaults o) (h' : NeverFaults o') :
    NeverFaults (if c then o else o') := by
  split
  · exact h
  · exact h'

/-! Ports and interrupts stop with a refusal or not at all. -/

theorem ctrlWriteWith_neverFaults {recheck : State → Res} (hr : ∀ s, NeverFaults (recheck s)) (why : Cause) (off : Nat)
    (v mask : Word) (s : State) : NeverFaults (ctrlWriteWith recheck why off v mask s) := by
  unfold ctrlWriteWith
  refine .ite ?_ (neverFaults_next s)
  split
  case h_1 => exact hr _
  case h_6 => exact .ite (hr _) (neverFaults_next _)
  all_goals exact neverFaults_next _

theorem writeLongWith_neverFaults {recheck : State → Res} (hr : ∀ s, NeverFaults (recheck s)) (why : Cause) (a v : Word)
    (s : State) : NeverFaults (writeLongWith recheck why a v s) := by
  unfold writeLongWith
  refine .ite (neverFaults_refused _) ?_
  split
  · exact ctrlWriteWith_neverFaults hr why _ v _ s
  · exact neverFaults_next _

theorem checkIrqsAt_neverFaults (n : Nat) (why : Cause) (s : State) : NeverFaults (checkIrqsAt n why s) := by
  induction n generalizing s with
  | zero => exact neverFaults_next s
  | succ n ih =>
    unfold checkIrqsAt
    split
    · exact neverFaults_next s
    · exact .andThen (writeLongWith_neverFaults ih why _ _ _) fun _ => neverFaults_next _

theorem checkIrqs_neverFaults (why : Cause) (s : State) : NeverFaults (checkIrqs why s) := checkIrqsAt_neverFaults 2 why s

theorem writeLong_neverFaults (a v : Word) (s : State) : NeverFaults (writeLong a v s) :=
  writeLongWith_neverFaults (checkIrqs_neverFaults .inStep) .inStep a v s

theorem loadLong_neverFaults (a : Word) (rd : Reg) (s : State) : NeverFaults (loadLong a rd s) :=
  neverFaults_withValue fun _ _ => neverFaults_next _

theorem takeBranch_neverFaults (target : Word) (s : State) : NeverFaults (takeBranch target s) :=
  neverFaults_withValue fun _ _ => neverFaults_next _

theorem applyEvent_neverFaults (e : Event) (s : State) : NeverFaults (applyEvent e s) := by
  cases e with
  | setLine k assert => exact .ite (neverFaults_refused _) (.ite (checkIrqs_neverFaults _ _) (neverFaults_next _))
  | ctrlWrite off v mask => exact ctrlWriteWith_neverFaults (checkIrqs_neverFaults _) _ off v mask s
  | ctrlRead _ | reset | memory _ _ => exact neverFaults_next _

/-! Instructions: `IMULTN` alone has a fault, and not in a delay slot. -/

theorem exec_neverFaults {i : Instr} {s : State}
    (himultn : ∀ rs rd, i = .imultn rs rd → NeverFaults (execImultn rs rd s)) : NeverFaults (exec i s) := by
  cases i with
  | imultn rs rd => exact himultn rs rd rfl
  | div _ _ => exact .ite (neverFaults_next _) (neverFaults_next _)
  | movei _ _ | movePc _ => exact .ite (neverFaults_refused _) (neverFaults_next _)
  | mmult _ _ => exact neverFaults_withValue fun _ _ => neverFaults_next _
  | load _ _ | loadR14n _ _ | loadR15n _ _ | loadR14r _ _ | loadR15r _ _ => exact loadLong_neverFaults _ _ s
  | loadb _ _ | loadw _ _ =>
    exact .ite (loadLong_neverFaults _ _ s) (neverFaults_withValue fun _ _ => neverFaults_next _)
  | loadp _ _ => exact .ite (loadLong_neverFaults _ _ s) (neverFaults_withValue fun _ _ => loadLong_neverFaults _ _ _)
  | store _ _ | storeR14n _ _ | storeR15n _ _ | storeR14r _ _ | storeR15r _ _ => exact writeLong_neverFaults _ _ s
  | storeb _ _ => exact .ite (writeLong_neverFaults _ _ s) (.ite (neverFaults_refused _) (neverFaults_next _))
  | storew _ _ =>
    exact .ite (writeLong_neverFaults _ _ s)
      (.ite (neverFaults_refused _) (.ite (neverFaults_refused _) (neverFaults_next _)))
  | storep _ _ =>
    exact .ite (writeLong_neverFaults _ _ s) (.andThen (writeLong_neverFaults _ _ s) fun _ => writeLong_neverFaults _ _ _)
  | jump _ _ | jr _ _ =>
    exact .ite (neverFaults_refused _) (.ite (takeBranch_neverFaults _ s) (neverFaults_next s))
  | _ => exact neverFaults_next _

theorem execImultn_inDelay {s : State} (h : s.delay = .executing) (rs rd : Reg) :
    execImultn rs rd s = .refused .pcDependentInDelaySlot :=
  if_pos (by simp [State.inDelay, h])

theorem runSlot_neverFaults (s : State) : NeverFaults (runSlot exec s) := by
  unfold runSlot
  split
  case h_2 => exact neverFaults_next s
  case h_1 =>
    split
    · exact neverFaults_refused _
    · refine .andThen (exec_neverFaults fun rs rd _ => ?_) fun _ => neverFaults_next _
      rw [execImultn_inDelay rfl]
      exact neverFaults_refused _

/-! The look-ahead ends. -/

/-- A look-ahead that does not end has found `IMACN` words only (R173). -/
theorem absorb_eq_fault {n : Nat} {s : State} {f : Fault} (h : absorb n s = .fault f) (k : Nat) (hk : k < n) :
    ∃ w, s.fetchWord (s.pc + BitVec.ofNat 32 (2 * k)) = .ok w ∧ opcOf w = imacnOpc := by
  induction n generalizing s k with
  | zero => omega
  | succ n ih =>
    unfold absorb at h
    split at h
    · cases h
    · next w hw =>
      split at h
      · next hopc =>
        cases k with
        | zero => exact ⟨w, by simpa using hw, hopc⟩
        | succ k =>
          have hnext : s.pc + BitVec.ofNat 32 (2 * (k + 1)) = s.pc + 2#32 + BitVec.ofNat 32 (2 * k) := by
            rw [Nat.mul_succ, Nat.add_comm, BitVec.ofNat_add, BitVec.add_assoc]
          rw [hnext]
          exact ih h k (by omega)
      · split at h <;> cases h

theorem fetchInstr_eq_ok {s : State} {i : Instr} (h : s.fetchInstr = .ok i) :
    ∃ w ext, s.fetchWord s.pc = .ok w ∧ decodeWord s.cfg.variant w ext = .ok i := by
  unfold State.fetchInstr at h
  split at h
  · cases h
  · next w hw =>
    split at h
    · cases h
    · next ext _ =>
      split at h
      · cases h
      · next hdecode =>
        cases h
        exact ⟨w, ext, hw, hdecode⟩

theorem decodeWord_imacn {w : Half} (h : opcOf w = imacnOpc) (v : Variant) (ext : Word) :
    decodeWord v w ext = .ok (.imacn (f1Of w) (f2Of w)) := by
  rw [decodeWord, h]
  rfl

/-- The last word of the look-ahead is at the bus address of the `IMULTN` itself, which is no `IMACN` (R71, R173). -/
theorem absorb_neverFaults {s : State} {rs rd : Reg} (h : s.fetchInstr = .ok (.imultn rs rd)) (p : Int) :
    NeverFaults (absorb chainFuel (s.fetched.multiplied p)) := by
  intro f hfault
  obtain ⟨w, ext, hw, hdecode⟩ := fetchInstr_eq_ok h
  obtain ⟨last, hlast⟩ : ∃ last, last + 1 = chainFuel := ⟨2 ^ 23 - 1, rfl⟩
  obtain ⟨w', hw', hopc⟩ := absorb_eq_fault hfault last (by omega)
  have hwraps : s.fetchWord (s.pc + 2#32 + BitVec.ofNat 32 (2 * last)) = s.fetchWord s.pc := by
    unfold chainFuel at hlast
    apply fetchWord_congr
    simp only [BitVec.toNat_add, BitVec.toNat_ofNat]
    omega
  cases hw'.symm.trans (hwraps.trans hw)
  rw [decodeWord_imacn hopc] at hdecode
  cases hdecode

theorem exec_fetched_neverFaults {s : State} {i : Instr} (h : s.fetchInstr = .ok i) : NeverFaults (exec i s.fetched) :=
  exec_neverFaults fun _ _ hi => .ite (neverFaults_refused _) (absorb_neverFaults (hi ▸ h) _)

theorem coreStep_neverFaults (s : State) : NeverFaults (coreStep exec s) :=
  .ite (.andThen (checkIrqs_neverFaults .between s) fun _ => neverFaults_withValue fun _ hi =>
    .andThen (exec_fetched_neverFaults hi) runSlot_neverFaults) (neverFaults_next s)

/-- Settles O8: by who moves. Of all that the core and the environment do, the look-ahead alone has a fault. -/
theorem noStepFaults : Obligations.NoStepFaults := by
  intro s
  change NeverFaults (step s)
  cases ha : s.agenda with
  | nil =>
    rw [step_of_agenda_nil ha]
    exact coreStep_neverFaults s
  | cons first rest =>
    cases first with
    | core =>
      rw [step_of_core ha]
      exact coreStep_neverFaults _
    | event e =>
      rw [step_of_event ha]
      exact applyEvent_neverFaults e _

end Sys2Proof.Machine
end

section
/-! PROOFS. The family of spec/42_divide.md: what `DIV` answers in each case of its divisor (R186, R187), and the law of
Euclidean division read off that answer (R188). -/

namespace Sys2Proof.Machine

/-! The answer. -/

theorem dividend_integer {s : State} (h : s.divctrl.getLsbD 0 = false) (rd : Reg) : s.dividend rd = (s.x rd).toNat :=
  if_neg (Bool.eq_false_iff.mp h)

theorem dividend_fixed {s : State} (h : s.divctrl.getLsbD 0 = true) (rd : Reg) :
    s.dividend rd = (s.x rd).toNat * 65536 :=
  if_pos h

theorem execDiv_of_eq_zero {s : State} {rs : Reg} (h : s.x rs = 0#32) (rd : Reg) :
    execDiv rs rd s = .next (s.setX rd 0xFFFFFFFF#32) :=
  if_pos (by simp [h])

/-- A register write and a write of `REMAINDER` commute. -/
theorem setReg_with_remainder (s : State) (b : Bank) (r : Reg) (v rem : Word) :
    { s.setReg b r v with remainder := rem } = { s with remainder := rem }.setReg b r v := by
  cases b <;> rfl

theorem execDiv_of_ne_zero {s : State} {rs : Reg} (h : (s.x rs).toNat ≠ 0) (rd : Reg) :
    execDiv rs rd s = .next ({ s with remainder := BitVec.ofNat 32 (s.dividend rd % (s.x rs).toNat) }.setX rd
      (BitVec.ofNat 32 (s.dividend rd / (s.x rs).toNat))) := by
  unfold State.setX
  rw [← setReg_with_remainder]
  exact if_neg h

/-- Settles O31: by the divisor, a quiet write of `rd` in `s`, or in `s` with the new `REMAINDER`. -/
theorem divide : Obligations.Divide := by
  intro s rs rd n hn
  change n = s.dividend rd at hn
  subst hn
  refine ⟨encoded_of_slot fun _ _ => rfl, fun hzero => ?zero, fun hne => ?nonzero⟩
  case zero => exact ⟨_, execDiv_of_eq_zero hzero rd, writesQuietly_setX s rd _⟩
  case nonzero =>
    have hdivisor : (s.x rs).toNat ≠ 0 := fun h => hne (BitVec.eq_of_toNat_eq h)
    exact ⟨_, execDiv_of_ne_zero hdivisor rd, writesQuietly_setX _ rd _⟩

/-! The laws. -/

/-- A remainder by a word fits a word. -/
theorem toNat_ofNat_mod {d : Word} (hd : d.toNat ≠ 0) (n : Nat) :
    (BitVec.ofNat 32 (n % d.toNat)).toNat = n % d.toNat :=
  Nat.mod_eq_of_lt ((Nat.mod_lt n (Nat.pos_of_ne_zero hd)).trans d.isLt)

/-- The law of Euclidean division in 32-bit words, where the quotient fits one. -/
theorem toNat_quotient_mul_add_remainder {d : Word} {n : Nat} (hd : d.toNat ≠ 0) (hfits : n / d.toNat < 2 ^ 32) :
    (BitVec.ofNat 32 (n / d.toNat)).toNat * d.toNat + (BitVec.ofNat 32 (n % d.toNat)).toNat = n := by
  rw [toNat_ofNat_mod hd, BitVec.toNat_ofNat, Nat.mod_eq_of_lt hfits, Nat.div_add_mod']

/-- Settles O32: `DIV` answers quotient and remainder of the mode's dividend; an integer quotient is at most the
dividend, so that it always fits. -/
theorem divideLaws : Obligations.DivideLaws := by
  intro s rs rd d n hd hn hne
  subst hd hn
  refine ⟨_, execDiv_of_ne_zero hne rd, ?_⟩
  have hquotient (u : State) (v : Word) : (u.setX rd v).reg u.cur rd = v := reg_setReg_same u u.cur rd v
  rw [hquotient, setX_remainder]
  refine ⟨?bound, fun hmode => ?integer, fun hmode hfits => ?fixed⟩
  case bound => exact (toNat_ofNat_mod hne _).trans_lt (Nat.mod_lt _ (Nat.pos_of_ne_zero hne))
  case integer =>
    rw [dividend_integer hmode]
    exact toNat_quotient_mul_add_remainder hne ((Nat.div_le_self _ _).trans_lt (s.x rd).isLt)
  case fixed =>
    rw [dividend_fixed hmode]
    exact toNat_quotient_mul_add_remainder hne hfits

end Sys2Proof.Machine
end

section
/-! PROOFS. The family of spec/43_shift_rotate.md: the shifts and the rotate of a word as arithmetic and bit by bit, for
every amount (R190, R196), and for each instruction the rule of the way its meaning ends at that value. -/

namespace Sys2Proof.Machine

/-! The shifts of a word. -/

/-- The case of 32 or more says nothing new: the library's shift is 0 there too. -/
theorem shiftLeft_eq_ofNat (v : Word) (k : Nat) : shiftLeft v k = BitVec.ofNat 32 (v.toNat * 2 ^ k) := by
  have hshift : shiftLeft v k = v <<< k := by
    unfold shiftLeft
    split
    · next hk => exact (BitVec.shiftLeft_eq_zero hk).symm
    · rfl
  apply BitVec.eq_of_toNat_eq
  rw [hshift, BitVec.toNat_shiftLeft, Nat.shiftLeft_eq, BitVec.toNat_ofNat]

theorem shiftRight_eq_ofNat (v : Word) (k : Nat) : shiftRight v k = BitVec.ofNat 32 (v.toNat / 2 ^ k) := by
  have hshift : shiftRight v k = v >>> k := by
    unfold shiftRight
    split
    · next hk => exact (BitVec.ushiftRight_eq_zero hk).symm
    · rfl
  have hlt : v.toNat / 2 ^ k < 2 ^ 32 := (Nat.div_le_self _ _).trans_lt v.isLt
  apply BitVec.eq_of_toNat_eq
  rw [hshift, BitVec.toNat_ushiftRight, Nat.shiftRight_eq_div_pow, BitVec.toNat_ofNat, Nat.mod_eq_of_lt hlt]

/-- A shift by the whole width or more leaves the sign. -/
theorem sshiftRight_of_ge (v : Word) {k : Nat} (hk : 32 ≤ k) :
    v.sshiftRight k = if v.getLsbD 31 then 0xFFFFFFFF#32 else 0#32 := by
  have hsign : v.getLsbD 31 = v.msb := (BitVec.msb_eq_getLsbD_last v).symm
  rw [hsign]
  cases hmsb : v.msb with
  | true => rw [BitVec.sshiftRight_eq_of_msb_true hmsb, BitVec.ushiftRight_eq_zero hk]; rfl
  | false => rw [BitVec.sshiftRight_eq_of_msb_false hmsb, BitVec.ushiftRight_eq_zero hk]; rfl

/-- An arithmetic shift divides the signed value and rounds down. -/
theorem shiftArith_eq_ofInt (v : Word) (k : Nat) : shiftArith v k = BitVec.ofInt 32 (v.toInt / 2 ^ k) := by
  have hshift : shiftArith v k = v.sshiftRight k := by
    unfold shiftArith
    split
    · next hk => exact (sshiftRight_of_ge v hk).symm
    · rfl
  rw [hshift, BitVec.sshiftRight, Int.shiftRight_eq_div_pow, Nat.cast_pow, Nat.cast_ofNat]

/-! Register amounts. -/

theorem shiftBy_of_neg (right : Word → Nat → Word) (v : Word) {k : Int} (h : k < 0) :
    shiftBy right v k = (BitVec.ofNat 32 (v.toNat * 2 ^ (-k).toNat), v.getLsbD 31) := by
  rw [shiftBy, if_pos h, shiftLeft_eq_ofNat]

theorem shiftBy_of_nonneg (right : Word → Nat → Word) (v : Word) {k : Int} (h : 0 ≤ k) :
    shiftBy right v k = (right v k.toNat, v.getLsbD 0) :=
  if_neg h.not_gt

/-- Settles O33: by the sign of the amount; the left shifts of `SH` and `SHA` are the same. -/
theorem registerShifts : Obligations.RegisterShifts := by
  rintro s rs rd k rfl
  refine ⟨encoded_of_slot fun _ _ => rfl, encoded_of_slot fun _ _ => rfl, fun hneg => ?shLeft, fun hnonneg => ?shRight,
    fun hneg => ?shaLeft, fun hnonneg => ?shaRight⟩
  case shLeft => exact finishZNC_writes_of_eq s rd (shiftBy_of_neg shiftRight (s.x rd) hneg)
  case shRight =>
    rw [← shiftRight_eq_ofNat]
    exact finishZNC_writes_of_eq s rd (shiftBy_of_nonneg shiftRight (s.x rd) hnonneg)
  case shaLeft => exact finishZNC_writes_of_eq s rd (shiftBy_of_neg shiftArith (s.x rd) hneg)
  case shaRight =>
    rw [← shiftArith_eq_ofInt]
    exact finishZNC_writes_of_eq s rd (shiftBy_of_nonneg shiftArith (s.x rd) hnonneg)

/-! Quick amounts: `cz` is `quickValue`. -/

/-- Settles O34: each ends in its shift of `rd`, the carry being the first bit out. -/
theorem quickShifts : Obligations.QuickShifts := by
  intro s n rd
  rw [← shiftLeft_eq_ofNat, ← shiftRight_eq_ofNat, ← shiftArith_eq_ofInt]
  refine ⟨⟨encoded_of_slot fun _ _ => rfl, ?shlq⟩, ⟨encoded_of_slot fun _ _ => rfl, ?shrq⟩,
    ⟨encoded_of_slot fun _ _ => rfl, ?sharq⟩⟩
  case shlq => exact finishZNC_writes s rd (shiftLeft (s.x rd) (shlqCount n), (s.x rd).getLsbD 31)
  case shrq => exact finishZNC_writes s rd (shiftRight (s.x rd) (cz n), (s.x rd).getLsbD 0)
  case sharq => exact finishZNC_writes s rd (shiftArith (s.x rd) (cz n), (s.x rd).getLsbD 0)

/-! Rotates. -/

theorem rotateRight_mod (v : Word) (k : Nat) : rotateRight v (k % 32) = v.rotateRight k := by
  rw [rotateRight, BitVec.rotateRight_def]
  split
  · next hzero => simp [hzero, BitVec.shiftLeft_eq_zero]
  · rfl

theorem getLsbD_rotateRight_mod (v : Word) (k : Nat) {i : Nat} (hi : i < 32) :
    (rotateRight v (k % 32)).getLsbD i = v.getLsbD ((i + k) % 32) := by
  rw [rotateRight_mod, BitVec.getLsbD_rotateRight]
  by_cases hwrap : i < 32 - k % 32
  · rw [decide_eq_true hwrap, cond_true, show (i + k) % 32 = k % 32 + i by omega]
  · rw [decide_eq_false hwrap, cond_false, decide_eq_true hi, Bool.true_and,
      show (i + k) % 32 = i - (32 - k % 32) by omega]

/-- The way both rotates end, for an amount `k` modulo 32. -/
theorem finishZNC_rotateRight_writes (s : State) (rd : Reg) (k : Nat) :
    ∃ t v, finishZNC rd (rotateRight (s.x rd) (k % 32), (s.x rd).getLsbD 31) s = .next t ∧
      WritesZNC s t rd v ((s.x rd).getLsbD 31) ∧ ∀ i, i < 32 → v.getLsbD i = (s.x rd).getLsbD ((i + k) % 32) := by
  obtain ⟨t, hfinish, hwrites⟩ := finishZNC_writes s rd (rotateRight (s.x rd) (k % 32), (s.x rd).getLsbD 31)
  exact ⟨t, _, hfinish, hwrites, fun _ => getLsbD_rotateRight_mod (s.x rd) k⟩

/-- The low five bits of the source are its value modulo 32. -/
theorem execRor_eq (rs rd : Reg) (s : State) :
    execRor rs rd s = finishZNC rd (rotateRight (s.x rd) ((s.x rs).toNat % 32), (s.x rd).getLsbD 31) s := by
  rw [execRor, BitVec.extractLsb'_toNat, Nat.shiftRight_zero]

/-- Settles O35: both rotate by an amount modulo 32, that of `rs` or of `cz`. -/
theorem rotates : Obligations.Rotates := by
  intro s rs rd n
  refine ⟨⟨encoded_of_slot fun _ _ => rfl, ?ror⟩, ⟨encoded_of_slot fun _ _ => rfl, ?rorq⟩⟩
  case ror =>
    have hexec : exec (.ror rs rd) s = _ := execRor_eq rs rd s
    rw [hexec]
    exact finishZNC_rotateRight_writes s rd (s.x rs).toNat
  case rorq => exact finishZNC_rotateRight_writes s rd (quickValue n)

end Sys2Proof.Machine
end

section
/-! PROOFS. The family of spec/44_load_store.md: for each load and store, in and outside the internal-RAM window (R77), the
port request that it makes, and what that request leaves where it completes and where it is refused (R79, R82). -/

namespace Sys2Proof.Machine

/-! Addresses. -/

/-- A forced access is aligned (R77). -/
theorem toNat_longAlign_mod (a : Word) : (longAlign a).toNat % 4 = 0 := by
  have hmask : (0xFFFFFFFC#32).toNat % 2 ^ 2 = 0 := rfl
  rw [longAlign, BitVec.toNat_and, show 4 = 2 ^ 2 from rfl, Nat.and_mod_two_pow, hmask, Nat.and_zero]

theorem toNat_add_four_mod {a : Word} (h : a.toNat % 4 = 0) : (a + 4#32).toNat % 4 = 0 := by
  rw [BitVec.toNat_add, BitVec.toNat_ofNat]
  omega

/-- The bytes of two longs in a row are those of a phrase. -/
theorem inAccess_phrase (a : Word) (b : Nat) : InAccess a 4 b ∨ InAccess (a + 4#32) 4 b ↔ InAccess a 8 b := by
  constructor
  · rintro (⟨k, hk, rfl⟩ | ⟨k, hk, rfl⟩)
    · exact ⟨k, by omega, rfl⟩
    · exact ⟨4 + k, by omega, busAddr_add a 4 k⟩
  · rintro ⟨k, hk, rfl⟩
    by_cases hlow : k < 4
    · exact .inl ⟨k, hlow, rfl⟩
    · refine .inr ⟨k - 4, by omega, ?_⟩
      rw [busAddr_add a 4, Nat.add_sub_of_le (by omega)]

/-- The long at `a` has no byte in the long after it. -/
theorem not_inAccess_next (a : Word) {k : Nat} (hk : k < 4) : ¬ InAccess (a + 4#32) 4 (busAddr a k) := by
  rintro ⟨j, hj, h⟩
  rw [busAddr_add a 4] at h
  simp only [busAddr, busSize] at h
  omega

/-! Reads of the data port. -/

theorem readByte_of_touches {s : State} {a : Word} (h : ¬ MissesCtrl s a 1) : s.readByte a = .error .narrowCtrlAccess := by
  rw [missesCtrl_iff, Bool.not_eq_false] at h
  exact if_pos h

/-- A load whose port answers writes its register alone. -/
theorem withValue_setX_writes {α : Type} {e : Except Refusal α} {v : α} (h : e = .ok v) (s : State) (rd : Reg)
    (f : α → Word) : ∃ t, withValue e (fun w => .next (s.setX rd (f w))) = .next t ∧ WritesQuietly s t rd (f v) := by
  rw [h]
  exact ⟨_, rfl, writesQuietly_setX s rd (f v)⟩

/-! Writes of the data port. -/

/-- A write of the `n` bytes at `a`, whatever the bytes. -/
theorem storesOnly_poke (s : State) {cells : List Host.Cell} {a : Word} {n : Nat}
    (h : ∀ b, (∃ c ∈ cells, b = c.1) ↔ InAccess a n b) : StoresOnly s (s.poke cells) a n :=
  ⟨keepsRegs_of rfl rfl, rfl, rfl, by simp [KeepsSpecial],
    fun b hb => read_writeAll_ne _ _ _ fun c hc hbc => hb ((h b).1 ⟨c, hc, hbc.symm⟩), mem_poke_stored h⟩

theorem poke_append (s : State) (first second : List Host.Cell) :
    (s.poke first).poke second = s.poke (first ++ second) := by
  cases hc : s.cfg.fetchCoherent <;> simp [State.poke, Memory.writeAll, List.foldl_append, hc]

/-- Two longs in a row are a write of a phrase. -/
theorem storesOnly_poke_phrase (s : State) (a v w : Word) :
    StoresOnly s ((s.poke (longCells a v)).poke (longCells (a + 4#32) w)) a 8 := by
  rw [poke_append]
  refine storesOnly_poke s fun b => ?_
  simp only [List.mem_append, or_and_right, exists_or, longCells_inAccess, inAccess_phrase]

/-- A long keeps its value when the next one is written. -/
theorem memLong_poke_next (s : State) (a w : Word) : (s.poke (longCells (a + 4#32) w)).memLong a = s.memLong a := by
  have hbyte {k : Nat} (hk : k < 4) := byteAt_poke_long_ne s (a + 4#32) w (busAddr a k) (not_inAccess_next a hk)
  rw [State.memLong, hbyte (by decide), hbyte (by decide), hbyte (by decide), hbyte (by decide), State.memLong]

theorem byteAt_poke_byte (s : State) (a : Word) (v : Byte) :
    (s.poke [(busAddr a 0, v)]).byteAt (busAddr a 0) = v :=
  read_write_same s.mem (busAddr a 0) v

/-- A word read after a word write at the same address gives the value written (R73). -/
theorem memHalf_poke (s : State) (a : Word) (v : Half) : (s.poke (halfCells a v)).memHalf a = v := by
  have hne : busAddr a 0 ≠ busAddr a 1 := busAddr_ne a (by decide) (by decide) (by decide)
  have hhigh : (s.poke (halfCells a v)).byteAt (busAddr a 0) = v.extractLsb' 8 8 :=
    (read_write_ne _ _ _ _ hne).trans (read_write_same _ _ _)
  have hlow : (s.poke (halfCells a v)).byteAt (busAddr a 1) = v.extractLsb' 0 8 := read_write_same _ _ _
  rw [State.memHalf, hhigh, hlow, BitVec.extractLsb'_append_extractLsb'_eq_extractLsb' (show 8 = 0 + 8 from rfl),
    BitVec.extractLsb'_eq_self]

theorem writeByte_of_misses {s : State} {a : Word} (h : MissesCtrl s a 1) (v : Byte) :
    writeByte a v s = .next (s.poke [(busAddr a 0, v)]) :=
  if_neg (by rw [missesCtrl_iff.1 h]; exact Bool.false_ne_true)

theorem writeByte_of_touches {s : State} {a : Word} (h : ¬ MissesCtrl s a 1) (v : Byte) :
    writeByte a v s = .refused .narrowCtrlAccess := by
  rw [missesCtrl_iff, Bool.not_eq_false] at h
  exact if_pos h

theorem writeHalf_of_misses {s : State} {a : Word} (heven : a.toNat % 2 = 0) (h : MissesCtrl s a 2) (v : Half) :
    writeHalf a v s = .next (s.poke (halfCells a v)) := by
  rw [writeHalf, (misaligned_half a).2 heven, missesCtrl_iff.1 h]
  rfl

theorem writeHalf_of_touches {s : State} {a : Word} (heven : a.toNat % 2 = 0) (h : ¬ MissesCtrl s a 2) (v : Half) :
    writeHalf a v s = .refused .narrowCtrlAccess := by
  rw [missesCtrl_iff, Bool.not_eq_false] at h
  rw [writeHalf, (misaligned_half a).2 heven, h]
  rfl

theorem writeHalf_odd {a : Word} (h : a.toNat % 2 = 1) (v : Half) (s : State) : writeHalf a v s = .refused .misaligned :=
  if_pos ((misaligned_half_true a).2 (by omega))

/-- A plain long store, whole. -/
theorem writeLong_plain_stores {s : State} {a : Word} (h : PlainLong s a) (v : Word) :
    ∃ t, writeLong a v s = .next t ∧ StoresLong s t a v :=
  ⟨_, writeLong_plain h, storesLong_poke s a v⟩

/-! The request of each instruction, by the window test (R77). -/

section
variable {s : State} {rs rd : Reg}

theorem exec_load_inWindow {i : Instr} (hi : i = .loadb rs rd ∨ i = .loadw rs rd ∨ i = .loadp rs rd)
    (h : InWindow s (s.x rs)) : exec i s = loadLong (longAlign (s.x rs)) rd s := by
  have hin := inWindow_iff.1 h
  obtain rfl | rfl | rfl := hi
  · exact if_pos hin
  · exact if_pos hin
  · exact if_pos hin

theorem exec_store_inWindow {i : Instr} (hi : i = .storeb rs rd ∨ i = .storew rs rd ∨ i = .storep rs rd)
    (h : InWindow s (s.x rs)) : exec i s = writeLong (longAlign (s.x rs)) (s.x rd) s := by
  have hin := inWindow_iff.1 h
  obtain rfl | rfl | rfl := hi
  · exact if_pos hin
  · exact if_pos hin
  · exact if_pos hin

variable (rd) (h : ¬ InWindow s (s.x rs))
include h

theorem exec_loadb_outside :
    exec (.loadb rs rd) s = withValue (s.readByte (s.x rs)) fun v => .next (s.setX rd (zext v)) :=
  if_neg (inWindow_iff.not.1 h)

theorem exec_loadw_outside :
    exec (.loadw rs rd) s = withValue (s.readHalf (s.x rs)) fun v => .next (s.setX rd (zext v)) :=
  if_neg (inWindow_iff.not.1 h)

theorem exec_loadp_outside : exec (.loadp rs rd) s =
    withValue (s.readLong (s.x rs)) fun hi => loadLong (s.x rs + 4#32) rd { s with hiMod := hi } :=
  if_neg (inWindow_iff.not.1 h)

theorem exec_storeb_outside : exec (.storeb rs rd) s = writeByte (s.x rs) ((s.x rd).setWidth 8) s := by
  rw [BitVec.setWidth_eq_extractLsb' (by decide)]
  exact if_neg (inWindow_iff.not.1 h)

theorem exec_storew_outside : exec (.storew rs rd) s = writeHalf (s.x rs) ((s.x rd).setWidth 16) s := by
  rw [BitVec.setWidth_eq_extractLsb' (by decide)]
  exact if_neg (inWindow_iff.not.1 h)

theorem exec_storep_outside : exec (.storep rs rd) s =
    andThen (writeLong (s.x rs) s.hiMod s) fun t => writeLong (s.x rs + 4#32) (s.x rd) t :=
  if_neg (inWindow_iff.not.1 h)

end

/-! Loads. -/

/-- Settles O37: the five forms are one long load at the effective address. -/
theorem longLoads : Obligations.LongLoads := by
  intro s rs rd n i a h
  have hexec : exec i s = loadLong a rd s := by
    obtain ⟨rfl, rfl⟩ | ⟨rfl, rfl⟩ | ⟨rfl, rfl⟩ | ⟨rfl, rfl⟩ | ⟨rfl, rfl⟩ := h <;> rfl
  rw [hexec]
  refine ⟨?encoded, loadLong_aligned, loadLong_misaligned⟩
  case encoded => and_intros <;> exact encoded_of_slot fun _ _ => rfl

/-- Settles O38: in the window an aligned long load, outside it a read of the narrow port by its cases. -/
theorem narrowLoads : Obligations.NarrowLoads := by
  rintro s rs rd _ rfl
  refine ⟨encoded_of_slot fun _ _ => rfl, encoded_of_slot fun _ _ => rfl, fun hin i hi => ?window, fun hout hmiss => ?byte,
    fun hout heven hmiss => ?word, fun hout hctrl => ?byteCtrl, fun hout heven hctrl => ?wordCtrl, fun hout hodd => ?odd⟩
  case window =>
    rw [exec_load_inWindow (hi.imp_right .inl) hin]
    exact loadLong_aligned (toNat_longAlign_mod _)
  case byte =>
    rw [exec_loadb_outside rd hout]
    exact withValue_setX_writes (readByte_of_missesCtrl hmiss) s rd zext
  case word =>
    rw [exec_loadw_outside rd hout]
    exact withValue_setX_writes (readHalf_even heven hmiss) s rd zext
  case byteCtrl => rw [exec_loadb_outside rd hout, readByte_of_touches hctrl, withValue_error]
  case wordCtrl => rw [exec_loadw_outside rd hout, readHalf_of_touches heven hctrl, withValue_error]
  case odd => rw [exec_loadw_outside rd hout, readHalf_odd hodd, withValue_error]

/-- Settles O39: outside the window the second long is loaded in the state that has the new `HIDATA`. -/
theorem phraseLoad : Obligations.PhraseLoad := by
  rintro s rs rd _ _ rfl rfl
  refine ⟨encodedOn_of_slot fun _ => rfl, fun hin => ?window, fun hout haligned => ?phrase, fun hout hmis => ?misaligned⟩
  case window =>
    rw [exec_load_inWindow (.inr (.inr rfl)) hin]
    exact loadLong_aligned (toNat_longAlign_mod _)
  case phrase =>
    rw [exec_loadp_outside rd hout, readLong_aligned ((misaligned_long _).2 haligned), withValue_ok]
    exact loadLong_aligned (toNat_add_four_mod haligned)
  case misaligned => rw [exec_loadp_outside rd hout, readLong_misaligned hmis, withValue_error]

/-! Stores. -/

/-- Settles O40: the five forms are one long store at the effective address. -/
theorem longStores : Obligations.LongStores := by
  intro s rs rd n i a h
  have hexec : exec i s = writeLong a (s.x rd) s := by
    obtain ⟨rfl, rfl⟩ | ⟨rfl, rfl⟩ | ⟨rfl, rfl⟩ | ⟨rfl, rfl⟩ | ⟨rfl, rfl⟩ := h <;> rfl
  rw [hexec]
  refine ⟨?encoded, fun hplain => writeLong_plain_stores hplain _, fun k => writeLong_reaches, writeLong_misaligned⟩
  case encoded => and_intros <;> exact encoded_of_slot fun _ _ => rfl

/-- Settles O41: in the window a long store, outside it a write of the narrow port by its cases. -/
theorem narrowStores : Obligations.NarrowStores := by
  rintro s rs rd _ rfl
  refine ⟨encoded_of_slot fun _ _ => rfl, encoded_of_slot fun _ _ => rfl, fun hin i hi => ?window, fun hout hmiss => ?byte,
    fun hout heven hmiss => ?word, fun hout hctrl => ?byteCtrl, fun hout heven hctrl => ?wordCtrl, fun hout hodd => ?odd⟩
  case window =>
    rw [exec_store_inWindow (hi.imp_right .inl) hin]
    exact ⟨fun hplain => writeLong_plain_stores hplain _, fun k => writeLong_reaches⟩
  case byte =>
    rw [exec_storeb_outside rd hout, writeByte_of_misses hmiss]
    exact ⟨_, rfl, storesOnly_poke s (byteCell_inAccess _ _), byteAt_poke_byte s _ _⟩
  case word =>
    rw [exec_storew_outside rd hout, writeHalf_of_misses heven hmiss]
    exact ⟨_, rfl, storesOnly_poke s (halfCells_inAccess _ _), memHalf_poke s _ _⟩
  case byteCtrl => rw [exec_storeb_outside rd hout, writeByte_of_touches hctrl]
  case wordCtrl => rw [exec_storew_outside rd hout, writeHalf_of_touches heven hctrl]
  case odd => rw [exec_storew_outside rd hout, writeHalf_odd hodd]

/-- Settles O42: outside the window two long stores in turn, each to memory or to the control port; the second keeps the
long that the first one put in memory. -/
theorem phraseStore : Obligations.PhraseStore := by
  rintro s rs rd _ rfl
  have hwindow (hin : InWindow s (s.x rs)) := exec_store_inWindow (rd := rd) (.inr (.inr rfl)) hin
  have houtside (hout : ¬ InWindow s (s.x rs)) := exec_storep_outside rd hout
  refine ⟨encodedOn_of_slot fun _ => rfl, fun hin hplain => ?window, fun hin k hreach => ?windowCtrl,
    fun hout hfirst hsecond => ?memory, fun hout k hfirst hsecond => ?secondCtrl, fun hout k u hfirst hnext => ?firstCtrl,
    fun hout hmis => ?misaligned⟩
  case window =>
    rw [hwindow hin]
    exact writeLong_plain_stores hplain _
  case windowCtrl => exact (hwindow hin).trans (writeLong_reaches hreach)
  case memory =>
    rw [houtside hout, writeLong_plain hfirst, andThen_next, writeLong_plain ((plainLong_congr (poke_cfg s _)).2 hsecond)]
    refine ⟨_, rfl, storesOnly_poke_phrase s _ _ _, ?_, memLong_poke _ _ _⟩
    rw [memLong_poke_next, memLong_poke]
  case secondCtrl =>
    refine ⟨_, storesLong_poke s (s.x rs) s.hiMod, ?_⟩
    rw [houtside hout, writeLong_plain hfirst, andThen_next,
      writeLong_reaches ((reachesCtrl_congr (poke_cfg s _)).2 hsecond)]
  case firstCtrl => rw [houtside hout, writeLong_reaches hfirst, hnext, andThen_next]
  case misaligned => rw [houtside hout, writeLong_misaligned hmis, andThen_refused]

end Sys2Proof.Machine
end

section
/-! PROOFS. The family of spec/45_branch.md: the two branches are one rule over the target (R236 to R240), the step of a
taken one runs its slot (R238, R241), and what the slot refuses (R242). -/

namespace Sys2Proof.Machine

/-! A branch, by its condition. -/

/-- The branches on the condition `cc`, each with the target that it takes from `s` (R236, R237). -/
inductive BranchTo (s : State) (cc : CondCode) : Instr → Word → Prop
  | jump (rs : Reg) : BranchTo s cc (.jump rs cc) (s.jumpTarget rs)
  | jr (n : Imm5) : BranchTo s cc (.jr n cc) (s.jrTarget n)

/-- The state after a taken branch to `target`, the word `d` waiting in the slot (R238). -/
def State.branched (s : State) (target : Word) (d : Half) : State :=
  { s with pc := target, delay := .pending d, cycles := s.cycles + 3 }

theorem takeBranch_of_fetch {s : State} {d : Half} (h : s.fetchWord s.pc = .ok d) (target : Word) :
    takeBranch target s = .next (s.branched target d) := by
  rw [takeBranch, h, withValue_ok, State.branched]

theorem takeBranch_of_fetch_refused {s : State} {r : Refusal} (h : s.fetchWord s.pc = .error r) (target : Word) :
    takeBranch target s = .refused r := by
  rw [takeBranch, h, withValue_error]

theorem inDelay_of_executing {s : State} (h : s.delay = .executing) : s.inDelay = true := by
  rw [State.inDelay, h]
  rfl

theorem not_inDelay {s : State} (h : s.delay ≠ .executing) : ¬ s.inDelay = true := by
  simpa [State.inDelay] using h

section
variable {s : State} {cc : CondCode} {i : Instr} {target : Word}

/-- Outside a slot both branches are the same choice (R236, R237). -/
theorem BranchTo.exec_eq (hi : BranchTo s cc i target) (hdelay : s.delay ≠ .executing) :
    exec i s = if s.cond cc then takeBranch target s else .next s := by
  cases hi with
  | jump rs => exact if_neg (not_inDelay hdelay)
  | jr n => exact if_neg (not_inDelay hdelay)

theorem BranchTo.exec_inDelay (hi : BranchTo s cc i target) (hdelay : s.delay = .executing) :
    exec i s = .refused .branchInDelaySlot := by
  cases hi with
  | jump rs => exact if_pos (inDelay_of_executing hdelay)
  | jr n => exact if_pos (inDelay_of_executing hdelay)

theorem BranchTo.exec_notTaken (hi : BranchTo s cc i target) (hdelay : s.delay ≠ .executing)
    (hcond : s.cond cc = false) : exec i s = .next s := by
  rw [hi.exec_eq hdelay, hcond, if_neg Bool.false_ne_true]

theorem BranchTo.exec_slot_refused {r : Refusal} (hi : BranchTo s cc i target) (hdelay : s.delay ≠ .executing)
    (hcond : s.cond cc = true) (hfetch : s.fetchWord s.pc = .error r) : exec i s = .refused r := by
  rw [hi.exec_eq hdelay, if_pos hcond, takeBranch_of_fetch_refused hfetch]

theorem BranchTo.exec_taken {d : Half} (hi : BranchTo s cc i target) (hdelay : s.delay ≠ .executing)
    (hcond : s.cond cc = true) (hfetch : s.fetchWord s.pc = .ok d) : exec i s = .next (s.branched target d) := by
  rw [hi.exec_eq hdelay, if_pos hcond, takeBranch_of_fetch hfetch]

end

/-- The displacement of `JR` is twice its signed field (R105). -/
theorem jrDisp_eq_ofInt (n : Imm5) : jrDisp n = BitVec.ofInt 32 (2 * n.toInt) := by
  calc jrDisp n = n.signExtend 32 * BitVec.twoPow 32 1 := BitVec.shiftLeft_eq_mul_twoPow _ 1
    _ = BitVec.twoPow 32 1 * n.signExtend 32 := BitVec.mul_comm ..
    _ = BitVec.ofInt 32 (2 * n.toInt) := (BitVec.ofInt_mul 2 n.toInt).symm

theorem jrTarget_eq_ofInt (s : State) (n : Imm5) : s.jrTarget n = BitVec.ofInt 32 (s.pc.toNat + 2 * n.toInt) := by
  rw [State.jrTarget, jrDisp_eq_ofInt, BitVec.ofInt_add, BitVec.ofInt_natCast, BitVec.ofNat_toNat, BitVec.setWidth_eq]

/-- Settles O52: the rule of both branches at each answer of the condition and of the fetch. -/
theorem branches : Obligations.Branches := by
  intro s f1 cc hdelay
  have hjump : BranchTo s cc (.jump f1 cc) (s.jumpTarget f1) := .jump f1
  have hjr : BranchTo s cc (.jr f1 cc) (s.jrTarget f1) := .jr f1
  refine ⟨encoded_of_slot fun _ _ => rfl, encoded_of_slot fun _ _ => rfl, fun hcond => ?notTaken,
    fun r hcond hfetch => ?slotRefused, fun w hcond hfetch => ?taken⟩
  case notTaken => exact ⟨hjump.exec_notTaken hdelay hcond, hjr.exec_notTaken hdelay hcond⟩
  case slotRefused => exact ⟨hjump.exec_slot_refused hdelay hcond hfetch, hjr.exec_slot_refused hdelay hcond hfetch⟩
  case taken =>
    rw [← jrTarget_eq_ofInt]
    exact ⟨hjump.exec_taken hdelay hcond hfetch, hjr.exec_taken hdelay hcond hfetch⟩

/-! The slot. -/

theorem runSlot_pending {t : State} {d : Half} {j : Instr} (hslot : t.delay = .pending d)
    (hdecode : decodeWord t.cfg.variant d 0#32 = .ok j) :
    runSlot exec t = andThen (exec j { t with delay := .executing }) fun u => .next { u with delay := .idle } := by
  simp only [runSlot, hslot, hdecode]

/-- With no level about to be taken, the step of a word that is not `MOVEI` is its instruction and what that leaves in
the slot (R101). -/
theorem step_of_word {s : State} {w : Half} {i : Instr} (hrun : AboutToRun s) (hw : s.fetchWord s.pc = .ok w)
    (hopc : opcOf w ≠ moveiOpc) (hdecode : decodeWord s.cfg.variant w 0#32 = .ok i) :
    step s = andThen (exec i (Begun s)) (runSlot exec) := by
  have hinstr : s.beginStep.fetchInstr = .ok i := fetchInstr_of_word hw hopc hdecode
  rw [step_of_aboutToRun hrun, fetchAndRun, hinstr, withValue_ok, begun_eq]

/-- The word of a branch is no `MOVEI` and the branch it stands for, with the target that its step takes (R57,
R237). -/
theorem branchTo_of_word {s : State} {f1 : BitVec 5} {cc : CondCode} {w : Half} {target : Word}
    (h : (w = opWord 52#6 f1 cc ∧ target = (if s.lagPending then s.alt f1 else s.x f1)) ∨
      (w = opWord 53#6 f1 cc ∧ target = s.pc + 2#32 + (f1.signExtend 32 <<< 1))) :
    opcOf w ≠ moveiOpc ∧ ∃ i, decodeWord s.cfg.variant w 0#32 = .ok i ∧ BranchTo (Begun s) cc i target := by
  obtain ⟨rfl, rfl⟩ | ⟨rfl, rfl⟩ := h
  · exact ⟨by rw [opcOf_opWord]; decide, .jump f1 cc, decodeWord_opWord .., .jump f1⟩
  · exact ⟨by rw [opcOf_opWord]; decide, .jr f1 cc, decodeWord_opWord .., .jr f1⟩

/-- Settles O53: the branch leaves the word after it waiting, and the rest of the step runs that word. -/
theorem delaySlot : Obligations.DelaySlot := by
  intro s f1 cc w d j target hrun hw hd hcond hj hbranch
  obtain ⟨hopc, i, hdecode, hi⟩ := branchTo_of_word hbranch
  have hstep : step s = andThen (exec i (Begun s)) (runSlot exec) := step_of_word hrun hw hopc hdecode
  obtain ⟨-, -, -, hidle⟩ := hrun
  have hdelay : (Begun s).delay ≠ .executing := fun h => nomatch hidle.symm.trans h
  have htaken : exec i (Begun s) = .next ((Begun s).branched target d) := hi.exec_taken hdelay hcond hd
  rw [hstep, htaken, andThen_next]
  exact runSlot_pending rfl hj

/-- Settles O54: each of the five asks first whether it stands in a slot. -/
theorem slotRefusals : Obligations.SlotRefusals := by
  intro s a b imm hdelay
  have hin : s.inDelay = true := inDelay_of_executing hdelay
  exact ⟨BranchTo.exec_inDelay (.jump a) hdelay, BranchTo.exec_inDelay (.jr a) hdelay, if_pos hin, if_pos hin,
    execImultn_inDelay hdelay a b⟩

end Sys2Proof.Machine
end

section
/-! PROOFS. The family of spec/46_variant_only.md: the reserved selectors of `GPU` slot 63 are all that does not decode
(R107, R256); results under the modulo mask (R262, R263), clamped (R251 to R253, R257, R258) and with their bits moved
(R254, R255, R259); the two no-operations (R264, R278). -/

namespace Sys2Proof.Machine

/-! Reserved selectors. -/

theorem decodePack_eq_ok {f1 : BitVec 5} (h : f1.toNat < 2) (f2 : BitVec 5) : ∃ i, decodePack f1 f2 = .ok i := by
  obtain hzero | hone : f1 = 0#5 ∨ f1 = 1#5 := by
    simp only [← BitVec.toNat_inj, BitVec.toNat_ofNat]
    omega
  · exact ⟨_, if_pos hzero⟩
  · subst hone
    exact ⟨_, rfl⟩

theorem decodePack_reserved {f1 : BitVec 5} (h : 2 ≤ f1.toNat) (f2 : BitVec 5) :
    decodePack f1 f2 = .error .packSelector := by
  have hzero : f1 ≠ 0#5 := by rintro rfl; contradiction
  have hone : f1 ≠ 1#5 := by rintro rfl; contradiction
  rw [decodePack, if_neg hzero, if_neg hone]

/-- Every slot holds an instruction, slot 63 of the `GPU` where its selector is not reserved (R107, R256). -/
theorem decodeFields_eq_ok {v : Variant} {opc : BitVec 6} {f1 : BitVec 5}
    (h : ¬ (v = .gpu ∧ opc = 63#6 ∧ 2 ≤ f1.toNat)) (f2 : BitVec 5) (ext : Word) :
    ∃ i, decodeFields v opc f1 f2 ext = .ok i := by
  by_cases hslot : opc ∈ slotsThatDiffer
  · simp only [slotsThatDiffer, List.mem_cons, List.not_mem_nil, or_false] at hslot
    cases v with
    | gpu =>
      obtain rfl | rfl | rfl | rfl | rfl | rfl := hslot
      iterate 5 · exact ⟨_, rfl⟩
      · exact decodePack_eq_ok (Nat.lt_of_not_le fun hf1 => h ⟨rfl, rfl, hf1⟩) f2
    | dsp => obtain rfl | rfl | rfl | rfl | rfl | rfl := hslot <;> exact ⟨_, rfl⟩
  · obtain ⟨i, -, hdecode⟩ := decodeFields_common hslot f1 f2 ext
    exact ⟨i, hdecode v⟩

theorem decodeWord_reserved {w : Half} (hopc : opcOf w = 63#6) (hf1 : 2 ≤ (f1Of w).toNat) (ext : Word) :
    decodeWord .gpu w ext = .error .packSelector := by
  rw [decodeWord, hopc]
  exact decodePack_reserved hf1 (f2Of w)

/-- With no level about to be taken, the step of a reserved word that is not `MOVEI` is refused (R110 b). -/
theorem step_of_reserved {s : State} {w : Half} {r : Reserved} (hrun : AboutToRun s) (hw : s.fetchWord s.pc = .ok w)
    (hopc : opcOf w ≠ moveiOpc) (hdecode : decodeWord s.cfg.variant w 0#32 = .error r) :
    step s = .refused (refusalOf r) := by
  have hext : s.fetchExt w = .ok 0#32 := if_neg hopc
  have hinstr : s.fetchInstr = .error (refusalOf r) := by simp only [State.fetchInstr, hw, hext, hdecode]
  have hbegun : s.beginStep.fetchInstr = .error (refusalOf r) := hinstr
  rw [step_of_aboutToRun hrun, fetchAndRun, hbegun, withValue_error]

theorem runSlot_reserved {t : State} {d : Half} {r : Reserved} (hslot : t.delay = .pending d)
    (hdecode : decodeWord t.cfg.variant d 0#32 = .error r) : runSlot exec t = .refused (refusalOf r) := by
  simp only [runSlot, hslot, hdecode]

/-- Settles O4: the slots of either variant are full but for the reserved selectors, and whoever decodes one of those,
the step or the slot, refuses it. -/
theorem everyWordDecodes : Obligations.EveryWordDecodes := by
  intro v w ext s
  refine ⟨fun hfree => ?decodes, fun hv hopc hf1 hs => ?reserved⟩
  case decodes =>
    obtain ⟨i, hdecode⟩ := decodeFields_eq_ok hfree (f2Of w) ext
    exact ⟨i, hdecode, decodeFields_wf hdecode⟩
  case reserved =>
    subst hv
    have hdecode : decodeWord s.cfg.variant w 0#32 = .error .packSelector := hs ▸ decodeWord_reserved hopc hf1 0#32
    have hmovei : opcOf w ≠ moveiOpc := by rw [hopc]; decide
    exact ⟨decodeWord_reserved hopc hf1 ext, fun hrun hw => step_of_reserved hrun hw hmovei hdecode,
      runSlot_reserved rfl hdecode⟩

/-! Results under the modulo mask. -/

theorem getLsbD_underMask (mask old new : Word) {i : Nat} (hi : i < 32) :
    (underMask mask old new).getLsbD i = if mask.getLsbD i then old.getLsbD i else new.getLsbD i := by
  rw [underMask, BitVec.getLsbD_or, BitVec.getLsbD_and, BitVec.getLsbD_and, BitVec.getLsbD_not, decide_eq_true hi]
  cases mask.getLsbD i <;> simp

/-- The way both forms end: `whole` is the result, before it is cut to a word and masked (R262). -/
theorem finishMasked_writes (s : State) (rd : Reg) {rc : Word × Bool} {whole : Nat} {c : Bool}
    (h : rc = (BitVec.ofNat 32 whole, c)) :
    ∃ t v, finishMasked rd rc s = .next t ∧ WritesZNC s t rd v c ∧ ∀ i, i < 32 → v.getLsbD i =
      if s.hiMod.getLsbD i then (s.x rd).getLsbD i else whole.testBit i := by
  subst h
  obtain ⟨t, hfinish, hwrites⟩ := finishZNC_writes s rd (underMask s.hiMod (s.x rd) (BitVec.ofNat 32 whole), c)
  refine ⟨t, _, hfinish, hwrites, fun i hi => ?_⟩
  rw [getLsbD_underMask _ _ _ hi, BitVec.getLsbD_ofNat, decide_eq_true hi, Bool.true_and]

/-- The wrapped difference as a number, one turn of the word higher. -/
theorem subOp_quick_eq_ofNat (a : Word) (n : Imm5) :
    subOp a (quick n) false =
      (BitVec.ofNat 32 (a.toNat + 2 ^ 32 - quickValue n), decide (a.toNat < quickValue n)) := by
  have hlt : quickValue n < 2 ^ 32 := toNat_quick n ▸ (quick n).isLt
  have hwrap : BitVec.ofInt 32 (a.toNat - quickValue n) = BitVec.ofNat 32 (a.toNat + 2 ^ 32 - quickValue n) := by
    apply BitVec.eq_of_toNat_eq
    rw [BitVec.toNat_ofInt, BitVec.toNat_ofNat]
    omega
  rw [subOp_quick, hwrap]

/-- Settles O25: both end under the mask, from the whole sum and the whole difference. -/
theorem moduloForms : Obligations.ModuloForms := by
  intro s n rd
  refine ⟨⟨encodedOn_of_slot fun _ => rfl, ?addqmod⟩, ⟨encodedOn_of_slot fun _ => rfl, ?subqmod⟩⟩
  case addqmod => exact finishMasked_writes s rd (addOp_quick (s.x rd) n)
  case subqmod => exact finishMasked_writes s rd (subOp_quick_eq_ofNat (s.x rd) n)

/-! Saturation. -/

theorem clamp_eq_max_min {lo hi : Int} (h : lo ≤ hi) (v : Int) : clamp lo hi v = max lo (min hi v) := by
  unfold clamp
  split
  · omega
  · split <;> omega

/-- The way the four clamps end: a range of signed words is not cut by the write. -/
theorem finishZN_clamp_writes (s : State) (rd : Reg) {lo hi : Int} (hlo : -2 ^ 31 ≤ lo) (h : lo ≤ hi)
    (hhi : hi < 2 ^ 31) :
    ∃ t v, finishZN rd (BitVec.ofInt 32 (clamp lo hi (s.x rd).toInt)) s = .next t ∧ WritesZN s t rd v ∧
      v.toInt = max lo (min hi (s.x rd).toInt) := by
  obtain ⟨t, hfinish, hwrites⟩ := finishZN_writes s rd (BitVec.ofInt 32 (clamp lo hi (s.x rd).toInt))
  refine ⟨t, _, hfinish, hwrites, ?_⟩
  rw [clamp_eq_max_min h]
  exact BitVec.toInt_ofInt_eq_self (by decide) (by omega) (by omega)

/-- The high half of the accumulator, read as signed. -/
theorem toInt_accHigh (acc : Acc) : (acc.extractLsb' 32 32).toInt = acc.toInt / 2 ^ 32 := by
  have hlt := acc.isLt
  rw [BitVec.toInt_eq_toNat_cond, BitVec.toInt_eq_toNat_cond, BitVec.extractLsb'_toNat, Nat.shiftRight_eq_div_pow]
  omega

theorem sat32_eq (acc : Acc) (v : Word) : sat32 acc v =
    if acc.toInt / 2 ^ 32 < -1 then 0x80000000#32 else if 0 < acc.toInt / 2 ^ 32 then 0x7FFFFFFF#32 else v := by
  rw [sat32, toInt_accHigh]

/-- Settles O58: four are the one clamp at their range; `SAT32S` asks where the accumulator's high half lies. -/
theorem saturates : Obligations.Saturates := by
  rintro s f1 rd high rfl
  refine ⟨⟨encodedOn_of_slot fun _ => rfl, ?sat8⟩, ⟨encodedOn_of_slot fun _ => rfl, ?sat16⟩,
    ⟨encodedOn_of_slot fun _ => rfl, ?sat24⟩, ⟨encodedOn_of_slot fun _ => rfl, ?sat16s⟩,
    ⟨encodedOn_of_slot fun _ => rfl, ?sat32s⟩⟩
  case sat8 | sat16 | sat24 | sat16s => exact finishZN_clamp_writes s rd (by decide) (by decide) (by decide)
  case sat32s =>
    obtain ⟨t, hfinish, hwrites⟩ := finishZN_writes s rd (sat32 s.acc (s.x rd))
    refine ⟨t, _, hfinish, hwrites, ?_⟩
    rw [sat32_eq]
    refine ⟨fun hlow => if_pos hlow, fun hhigh => ?_, fun hfits => ?_⟩
    · rw [if_neg (by omega), if_pos hhigh]
    · rw [if_neg (by omega), if_neg (by omega)]

/-! Bits moved. -/

/-- The bits of the three masks of `PACK` and `UNPACK`. -/
theorem getLsbD_packMasks {i : Nat} (hi : i < 32) :
    (0x0000F000#32).getLsbD i = decide (12 ≤ i ∧ i < 16) ∧ (0x00000F00#32).getLsbD i = decide (8 ≤ i ∧ i < 12) ∧
      (0x000000FF#32).getLsbD i = decide (i < 8) := by
  revert i
  decide

/-- In each band of bits one of the masks is 1, at the shift that brings the band there (R254). -/
theorem getLsbD_packWord (v : Word) {i : Nat} (hi : i < 32) : (packWord v).getLsbD i =
    if i < 8 then v.getLsbD i else if i < 12 then v.getLsbD (i + 5) else if i < 16 then v.getLsbD (i + 10)
      else false := by
  obtain ⟨hhigh, hmid, hlow⟩ := getLsbD_packMasks hi
  simp only [packWord, BitVec.getLsbD_or, BitVec.getLsbD_and, BitVec.getLsbD_ushiftRight, hhigh, hmid, hlow]
  rw [Nat.add_comm 10, Nat.add_comm 5]
  split
  · grind
  · split
    · grind
    · split <;> grind

/-- The masks of `PACK`, each shifted with its band (R255). -/
theorem getLsbD_unpackWord (v : Word) {i : Nat} (hi : i < 32) : (unpackWord v).getLsbD i =
    if i < 8 then v.getLsbD i else if 13 ≤ i ∧ i < 17 then v.getLsbD (i - 5)
      else if 22 ≤ i ∧ i < 26 then v.getLsbD (i - 10) else false := by
  obtain ⟨-, -, hlow⟩ := getLsbD_packMasks hi
  obtain ⟨-, hmid, -⟩ := getLsbD_packMasks (show i - 5 < 32 by omega)
  obtain ⟨hhigh, -, -⟩ := getLsbD_packMasks (show i - 10 < 32 by omega)
  simp only [unpackWord, BitVec.getLsbD_or, BitVec.getLsbD_and, BitVec.getLsbD_shiftLeft, hhigh, hmid, hlow]
  split
  · grind
  · split
    · grind
    · split <;> grind

theorem getLsbD_mirror16 (v : Half) {i : Nat} (hi : i < 16) : (mirror16 v).getLsbD i = v.getLsbD (15 - i) := by
  rw [mirror16, BitVec.getLsbD_reverse, BitVec.getMsbD_eq_getLsbD, decide_eq_true hi, Bool.true_and]

/-- The halves change places, each reversed. -/
theorem getLsbD_mirrorWord (v : Word) {i : Nat} (hi : i < 32) : (mirrorWord v).getLsbD i = v.getLsbD (31 - i) := by
  rw [mirrorWord, BitVec.getLsbD_append]
  by_cases h : i < 16
  · rw [if_pos h, getLsbD_mirror16 _ h, BitVec.getLsbD_extractLsb', decide_eq_true (by omega), Bool.true_and,
      show 16 + (15 - i) = 31 - i by omega]
  · rw [if_neg h, getLsbD_mirror16 _ (by omega), BitVec.getLsbD_extractLsb', decide_eq_true (by omega),
      Bool.true_and, show 0 + (15 - (i - 16)) = 31 - i by omega]

/-- Settles O59: each writes the word whose bits the lemmas above give. -/
theorem bitPlacements : Obligations.BitPlacements := by
  intro s f1 rd
  refine ⟨⟨encodedOn_of_slot fun _ => rfl, ?pack⟩, ⟨encodedOn_of_slot fun _ => rfl, ?unpack⟩,
    ⟨encodedOn_of_slot fun _ => rfl, ?mirror⟩⟩
  case pack => exact finishZN_writes_bits s rd fun _ => getLsbD_packWord (s.x rd)
  case unpack => exact finishZN_writes_bits s rd fun _ => getLsbD_unpackWord (s.x rd)
  case mirror => exact finishZN_writes_bits s rd fun _ => getLsbD_mirrorWord (s.x rd)

/-! No-operations. -/

/-- The step of a word that is not `MOVEI`, whose instruction changes nothing, only moves past it. -/
theorem step_of_noOperation {s : State} {w : Half} {i : Instr} (hrun : AboutToRun s) (hw : s.fetchWord s.pc = .ok w)
    (hopc : opcOf w ≠ moveiOpc) (hdecode : decodeWord s.cfg.variant w 0#32 = .ok i)
    (hexec : exec i (Begun s) = .next (Begun s)) : step s = .next (Begun s) := by
  have hstep : step s = andThen (exec i (Begun s)) (runSlot exec) := step_of_word hrun hw hopc hdecode
  obtain ⟨-, -, -, hidle⟩ := hrun
  rw [hstep, hexec, andThen_next]
  exact runSlot_idle hidle

/-- Settles O60: both words decode to an instruction whose meaning answers the state that it was given. -/
theorem noOperations : Obligations.NoOperations := by
  intro s f1 f2
  refine ⟨encoded_of_slot fun _ _ => rfl, rfl, encodedOn_of_slot fun _ => rfl, rfl, fun hrun w hw hword => ?_⟩
  obtain rfl | ⟨hv, rfl⟩ := hword
  · exact step_of_noOperation hrun hw (by rw [opcOf_opWord]; decide) (decodeWord_opWord ..) rfl
  · refine step_of_noOperation (i := .illegal) hrun hw (by rw [opcOf_opWord]; decide) ?_ rfl
    rw [hv, decodeWord_opWord]
    rfl

end Sys2Proof.Machine
end


section
/-! PROOFS. The family of spec/47_moves_misc.md: the moves are one register write each (R270 to R275), and the two float
helpers write the word whose bits or number R276 and R277 give. -/

namespace Sys2Proof.Machine

/-! Register moves. -/

theorem alt_eq_reg (s : State) (r : Reg) : s.alt r = s.reg (if s.cur = .b0 then .b1 else .b0) r := by
  rw [State.alt]
  cases s.cur <;> rfl

/-- A write of the alternate bank (R273). -/
theorem reg_setAlt (s : State) (rd : Reg) (v : Word) (b : Bank) (r : Reg) :
    (s.setAlt rd v).reg b r = if b ≠ s.cur ∧ r = rd then v else s.reg b r := by
  have hother : b = s.cur.other ↔ b ≠ s.cur := ⟨fun h => h ▸ other_ne _, eq_other_of_ne⟩
  simp only [State.setAlt, reg_setReg, hother]

/-- Settles O55: three are a quiet write of `rd`, `MOVETA` a write of the alternate bank. -/
theorem moves : Obligations.Moves := by
  intro s rs rd n
  refine ⟨⟨encoded_of_slot fun _ _ => rfl, ?move⟩, ⟨encoded_of_slot fun _ _ => rfl, ?moveq⟩,
    ⟨encoded_of_slot fun _ _ => rfl, ?movefa⟩, ⟨encoded_of_slot fun _ _ => rfl, ?moveta⟩⟩
  case move => exact finishQuiet_writes s rd (s.x rs)
  case moveq => exact finishQuiet_writes_of_eq s rd (BitVec.ofNat_toNat 32 n).symm
  case movefa => exact finishQuiet_writes_of_eq s rd (alt_eq_reg s rs)
  case moveta =>
    exact ⟨s.setAlt rd (s.x rs), rfl, reg_setAlt s rd _, setAlt_flags .., setAlt_pc .., by simp [KeepsSpecial],
      keepsMem_of (setAlt_mem ..) (setAlt_stored ..)⟩

/-- Settles O56: outside a slot both write quietly, `MOVEI` after `pc` has moved past the extension words. -/
theorem positionMoves : Obligations.PositionMoves := by
  intro s f1 rd lo hi hdelay
  have houtside : ¬ s.inDelay = true := not_inDelay hdelay
  exact ⟨fun v => decodeWord_opWord .., ⟨_, if_neg houtside, writesQuietly_setX _ rd _⟩, encoded_of_slot fun _ _ => rfl,
    ⟨_, if_neg houtside, writesQuietly_setX s rd _⟩⟩

/-! Float helpers. -/

theorem getLsbD_mtoiMasks {i : Nat} (hi : i < 32) :
    (0xFF800000#32).getLsbD i = decide (23 ≤ i) ∧ (0x007FFFFF#32).getLsbD i = decide (i < 23) := by
  revert i
  decide

/-- Below bit 23 the mantissa, from there on the sign (R276). -/
theorem getLsbD_mtoiWord (v : Word) {i : Nat} (hi : i < 32) :
    (mtoiWord v).getLsbD i = v.getLsbD (if i < 23 then i else 31) := by
  obtain ⟨hsign, hmantissa⟩ := getLsbD_mtoiMasks hi
  simp only [mtoiWord, BitVec.getLsbD_or, BitVec.getLsbD_and, hsign, hmantissa]
  by_cases h : i < 23
  · simp [h]
  · rw [BitVec.getLsbD_sshiftRight, BitVec.msb_eq_getLsbD_last, if_neg h]
    by_cases h23 : i = 23
    · simp [h23]
    · simp [h, hi, show ¬ 8 + i < 32 by omega, show 23 ≤ i by omega]

theorem log2_toNat_of_highest {v : Word} {h : Nat} (hbit : v.getLsbD h = true)
    (habove : ∀ j, h < j → v.getLsbD j = false) : v.toNat.log2 = h := by
  have hge : 2 ^ h ≤ v.toNat := Nat.ge_two_pow_of_testBit hbit
  have hlt : v.toNat < 2 ^ (h + 1) := Nat.lt_pow_two_of_testBit _ habove
  have hne : v.toNat ≠ 0 := (Nat.two_pow_pos h |>.trans_le hge).ne'
  exact (Nat.log2_eq_iff hne).2 ⟨hge, hlt⟩

/-- The index of the highest 1 bit less 22 fits a word (R277). -/
theorem toInt_normiWord {v : Word} {h : Nat} (hbit : v.getLsbD h = true)
    (habove : ∀ j, h < j → v.getLsbD j = false) : (normiWord v).toInt = h - 22 := by
  have hne : v ≠ 0#32 := by
    rintro rfl
    exact absurd hbit (by simp)
  have hlt : h < 32 := BitVec.lt_of_getLsbD hbit
  rw [normiWord, if_neg hne, log2_toNat_of_highest hbit habove]
  exact BitVec.toInt_ofInt_eq_self (by decide) (by omega) (by omega)

/-- Settles O57: both write `rd` and its flags, with the word of the lemmas above. -/
theorem floatHelpers : Obligations.FloatHelpers := by
  intro s rs rd
  refine ⟨⟨encoded_of_slot fun _ _ => rfl, ?mtoi⟩, ⟨encoded_of_slot fun _ _ => rfl, ?normi⟩⟩
  case mtoi => exact finishZN_writes_bits s rd fun _ => getLsbD_mtoiWord (s.x rs)
  case normi =>
    obtain ⟨t, hfinish, hwrites⟩ := finishZN_writes s rd (normiWord (s.x rs))
    exact ⟨t, _, hfinish, hwrites, fun hzero => if_pos hzero, fun h => toInt_normiWord⟩

end Sys2Proof.Machine
end

section
/-! PROOFS. The family of spec/48_ctrl_io.md: a masked write of the control port is a whole write of the merged word
(R288), and what a whole write of each register does (R289 to R302). -/

namespace Sys2Proof.Machine

/-! Whole writes. -/

theorem merge_whole (old v : Word) : (old &&& ~~~ 0xFFFFFFFF#32) ||| (v &&& 0xFFFFFFFF#32) = v := by
  have hmask : (0xFFFFFFFF#32 : Word) = BitVec.allOnes 32 := rfl
  rw [hmask, BitVec.not_allOnes, BitVec.and_zero, BitVec.and_allOnes, BitVec.zero_or]

/-- A masked write is a whole write of the merged word (R288). -/
theorem ctrlWrite_masked {s : State} {off : Nat} {v mask old new : Word} (why : Cause) (hold : s.ctrlStored off = old)
    (hnew : ∀ b, b < 32 → new.getLsbD b = if mask.getLsbD b then v.getLsbD b else old.getLsbD b) :
    ctrlWrite why off v mask s = ctrlWrite why off new 0xFFFFFFFF#32 s := by
  simp only [ctrlWrite, ctrlWriteWith, merge_whole, hold, merged_word hnew]

/-- The port claims no register beyond its own (R302). -/
theorem ctrlWrite_of_le {s : State} {off : Nat} (h : s.cfg.nctrl ≤ off) (why : Cause) (v mask : Word) :
    ctrlWrite why off v mask s = .next s :=
  if_neg h.not_gt

/-- Nothing is written at offset 8, where no register is, nor at the read-only `REMAINDER` (R302). -/
theorem ctrlWrite_ignored {off : Nat} (h : off = 8 ∨ off = 9) (why : Cause) (v mask : Word) (s : State) :
    ctrlWrite why off v mask s = .next s := by
  obtain rfl | rfl := h <;> exact ite_self _

theorem ctrlWrite_flags {s : State} (why : Cause) (new : Word) (h : 0 < s.cfg.nctrl) :
    ctrlWrite why 0 new 0xFFFFFFFF#32 s = checkIrqs why (updateBanks why (s.storeFlags new)) := by
  simp only [ctrlWrite, ctrlWriteWith, merge_whole, if_pos h, writeFlags]

theorem and_busMask (v : Word) : v &&& 0x00FFFFFF#32 = BitVec.ofNat 32 (v.toNat % 2 ^ 24) := by
  have hlt : v.toNat % 2 ^ 24 < 2 ^ 32 := by omega
  apply BitVec.eq_of_toNat_eq
  calc (v &&& 0x00FFFFFF#32).toNat = v.toNat &&& (2 ^ 24 - 1) := BitVec.toNat_and ..
    _ = v.toNat % 2 ^ 24 := Nat.and_two_pow_sub_one_eq_mod ..
    _ = (BitVec.ofNat 32 (v.toNat % 2 ^ 24)).toNat := (Nat.mod_eq_of_lt hlt).symm

/-- `PC` keeps the 24 bits of the bus (R295). -/
theorem ctrlWrite_pc {s : State} (why : Cause) (new : Word) (h : 4 < s.cfg.nctrl) :
    ctrlWrite why 4 new 0xFFFFFFFF#32 s = .next { s with pc := BitVec.ofNat 32 (new.toNat % 2 ^ 24) } := by
  simp only [ctrlWrite, ctrlWriteWith, merge_whole, if_pos h, and_busMask]

/-- A whole write of a register that has no side effect, by number (R291 to R295, R302). -/
theorem ctrlWrite_plain {s : State} {off : Nat} (why : Cause) (new : Word) (hoff : off < s.cfg.nctrl) :
    (off = 1 → ctrlWrite why off new 0xFFFFFFFF#32 s = .next { s with mtxc := new }) ∧
    (off = 2 → ctrlWrite why off new 0xFFFFFFFF#32 s = .next { s with mtxa := new }) ∧
    (off = 3 → ctrlWrite why off new 0xFFFFFFFF#32 s = .next { s with endian := new }) ∧
    (off = 4 → ctrlWrite why off new 0xFFFFFFFF#32 s =
      .next { s with pc := BitVec.ofNat 32 (new.toNat % 2 ^ 24) }) ∧
    (off = 6 → ctrlWrite why off new 0xFFFFFFFF#32 s = .next { s with hiMod := new }) ∧
    (off = 7 → ctrlWrite why off new 0xFFFFFFFF#32 s = .next { s with divctrl := new }) := by
  refine ⟨?mtxc, ?mtxa, ?endian, ?pc, ?hiMod, ?divctrl⟩
  case pc => rintro rfl; exact ctrlWrite_pc why new hoff
  all_goals rintro rfl; simp only [ctrlWrite, ctrlWriteWith, merge_whole, if_pos hoff]

/-- Settles O44: the merged word is written whole, or nothing is. -/
theorem plainControlWrites : Obligations.PlainControlWrites := by
  intro s why off v mask old new hmtxc hmtxa hendian hpc hhiMod hdivctrl hnew
  refine ⟨fun hoff => ?plain, fun h => ?ignored⟩
  case plain =>
    have hold (h : off = 1 ∨ off = 2 ∨ off = 3 ∨ off = 4 ∨ off = 6 ∨ off = 7) : s.ctrlStored off = old := by
      obtain rfl | rfl | rfl | rfl | rfl | rfl := h
      all_goals refine (if_pos hoff).trans ?_
      exacts [(hmtxc rfl).symm, (hmtxa rfl).symm, (hendian rfl).symm, (hpc rfl).symm, (hhiMod rfl).symm,
        (hdivctrl rfl).symm]
    have hwhole (h) : ctrlWrite why off v mask s = ctrlWrite why off new 0xFFFFFFFF#32 s :=
      ctrlWrite_masked why (hold h) hnew
    obtain ⟨h1, h2, h3, h4, h6, h7⟩ := ctrlWrite_plain why new hoff
    exact ⟨fun h => (hwhole (by omega)).trans (h1 h), fun h => (hwhole (by omega)).trans (h2 h),
      fun h => (hwhole (by omega)).trans (h3 h), fun h => (hwhole (by omega)).trans (h4 h),
      fun h => (hwhole (by omega)).trans (h6 h), fun h => (hwhole (by omega)).trans (h7 h)⟩
  case ignored =>
    obtain h | h | h := h
    · exact ctrlWrite_ignored (.inl h) why v mask s
    · exact ctrlWrite_ignored (.inr h) why v mask s
    · exact ctrlWrite_of_le h why v mask

/-! `FLAGS`. -/

theorem getLsbD_writableFlags (v : Variant) {b : Nat} (hb : b < 32) : (writableFlags v).getLsbD b =
    decide (b ≠ 3 ∧ (b < 9 ∨ b = 14 ∨ (b = 16 ∧ v = .dsp))) := by
  revert b
  cases v <;> decide

/-- `I` stays only where it was set and is written as 1; of the rest the stored bits are written (R289). -/
theorem getLsbD_storedFlags (v : Variant) (old new : Word) {b : Nat} (hb : b < 32) : (storedFlags v old new).getLsbD b =
    if b = 3 then new.getLsbD 3 && old.getLsbD 3
      else if b < 9 ∨ b = 14 ∨ (b = 16 ∧ v = .dsp) then new.getLsbD b else false := by
  rw [storedFlags, getLsbD_putBit _ _ _ _ (by decide), BitVec.getLsbD_and, getLsbD_writableFlags v hb]
  by_cases h3 : b = 3
  · rw [if_pos h3, if_pos h3]
  · rw [if_neg h3, if_neg h3]
    split
    · next hstored => rw [decide_eq_true ⟨h3, hstored⟩, Bool.and_true]
    · next hstored => rw [decide_eq_false (fun h => hstored h.2), Bool.and_false]

theorem getLsbD_iackMasks {b : Nat} (hb : b < 32) :
    (0x00003E00#32).getLsbD (3 + b) = decide (6 ≤ b ∧ b ≤ 10) ∧
      (0x00020000#32).getLsbD (1 + b) = decide (b = 16) := by
  revert b
  decide

/-- The strobes of the written word take their latches back, that of level 5 on the `DSP` alone (R290). -/
theorem getLsbD_ctrl_acknowledge (s : State) (new : Word) {b : Nat} (hb : b < 32) :
    (s.acknowledge new).ctrl.getLsbD b =
      if 6 ≤ b ∧ b ≤ 10 then s.ctrl.getLsbD b && !new.getLsbD (b + 3)
      else if b = 16 ∧ s.cfg.variant = .dsp then s.ctrl.getLsbD b && !new.getLsbD 17 else s.ctrl.getLsbD b := by
  obtain ⟨hlow, hfive⟩ := getLsbD_iackMasks hb
  have hbits : (s.acknowledge new).ctrl.getLsbD b = (s.ctrl.getLsbD b &&
      !(new.getLsbD (b + 3) && decide (6 ≤ b ∧ b ≤ 10)) &&
      !(decide (s.cfg.variant = .dsp) && (new.getLsbD (b + 1) && decide (b = 16)))) := by
    simp only [State.acknowledge, BitVec.getLsbD_and, BitVec.getLsbD_not, BitVec.getLsbD_ushiftRight, hb, decide_true,
      Bool.true_and, hlow, Nat.add_comm b]
    cases s.cfg.variant <;> simp [hfive]
  rw [hbits]
  split
  · next h => simp [h, show b ≠ 16 by omega]
  · next h =>
    split
    · next h16 => obtain ⟨rfl, hv⟩ := h16; simp [hv]
    · next h16 => rw [not_and_or] at h16; obtain h16 | h16 := h16 <;> simp [h, h16]

section
variable (why : Cause) (new : Word) (s : State)

/-- What a write of `FLAGS` leaves alone before its check: all but `FLAGS`, the latches, the bank and the lag. -/
theorem keepsSpecial_storeFlags : KeepsSpecial
    { s with
      cur := (updateBanks why (s.storeFlags new)).cur, ctrl := (updateBanks why (s.storeFlags new)).ctrl,
      lagPending := (updateBanks why (s.storeFlags new)).lagPending }
    (updateBanks why (s.storeFlags new)) := by
  simp [KeepsSpecial, State.storeFlags]

theorem keepsRegs_storeFlags : KeepsRegs s (updateBanks why (s.storeFlags new)) :=
  keepsRegs_of (updateBanks_b0 ..) (updateBanks_b1 ..)

theorem keepsMem_storeFlags : KeepsMem s (updateBanks why (s.storeFlags new)) :=
  keepsMem_of (updateBanks_mem ..) (updateBanks_stored ..)

end

/-- Settles O45: the store, the acknowledge and the bank update, bit by bit. -/
theorem flagsWrite : Obligations.FlagsWrite := by
  intro s why v mask new hn hnew
  have hwrite : ctrlWrite why 0 v mask s = checkIrqs why (updateBanks why (s.storeFlags new)) :=
    (ctrlWrite_masked why (if_pos hn) hnew).trans (ctrlWrite_flags why new hn)
  refine ⟨_, hwrite, fun b hb => ?flags, fun b hb => ?ctrl, ?cur, ?lag, keepsRegs_storeFlags why new s, updateBanks_pc ..,
    keepsMem_storeFlags why new s, keepsSpecial_storeFlags why new s⟩
  case flags => rw [updateBanks_flags]; exact getLsbD_storedFlags _ _ _ hb
  case ctrl => rw [updateBanks_ctrl]; exact getLsbD_ctrl_acknowledge _ new hb
  case cur => rw [updateBanks_cur, updateBanks_flags]; rfl
  case lag => rw [updateBanks_cur]; exact updateBanks_lagPending why (s.storeFlags new)

/-! `CTRL`. -/

/-- The state that a write of `CTRL` leaves before its check: `FORCEINT0` latches level 0 (R296, R299). -/
def State.ctrlWritten (s : State) (new : Word) : State :=
  { s.storeCtrl new with ctrl := if new.getLsbD 2 then putBit (storedCtrl new) 6 true else storedCtrl new }

/-- Of the written word `FORCEINT0` alone asks for a check (R299). -/
theorem ctrlWrite_ctrl {s : State} (why : Cause) (new : Word) (h : 5 < s.cfg.nctrl) :
    ctrlWrite why 5 new 0xFFFFFFFF#32 s =
      if new.getLsbD 2 then checkIrqs why (s.ctrlWritten new) else .next (s.ctrlWritten new) := by
  simp only [ctrlWrite, ctrlWriteWith, merge_whole, if_pos h, writeCtrl, State.ctrlWritten]
  cases new.getLsbD 2 <;> rfl

theorem getLsbD_ctrl_ctrlWritten (s : State) (new : Word) (b : Nat) : (s.ctrlWritten new).ctrl.getLsbD b =
    if b = 1 ∨ b = 2 then false else if b = 6 then new.getLsbD 2 || new.getLsbD 6 else new.getLsbD b := by
  have hstored : (storedCtrl new).getLsbD b = if b = 1 ∨ b = 2 then false else new.getLsbD b := by
    rw [storedCtrl, getLsbD_putBit _ _ _ _ (by decide), getLsbD_putBit _ _ _ _ (by decide)]
    grind
  have hlatch : (putBit (storedCtrl new) 6 true).getLsbD b = if b = 6 then true else (storedCtrl new).getLsbD b :=
    getLsbD_putBit _ _ _ _ (by decide)
  simp only [State.ctrlWritten]
  cases hforce : new.getLsbD 2 <;> grind

/-- A start forgets the bytes stored to where the parameter says so (U8). -/
theorem stored_ctrlWritten (s : State) (new : Word) : (s.ctrlWritten new).stored =
    if new.getLsbD 0 = true ∧ s.run = false ∧ s.cfg.startForgetsStores = true then [] else s.stored := by
  have hstart : (s.cfg.startForgetsStores && s.starts new) = true ↔
      new.getLsbD 0 = true ∧ s.run = false ∧ s.cfg.startForgetsStores = true := by
    simp only [State.starts, Bool.and_eq_true, Bool.not_eq_true']
    tauto
  simp only [State.ctrlWritten, State.storeCtrl, hstart]

/-- `CPUINT` asserts the output once (R298). -/
theorem cpuInts_ctrlWritten (s : State) (new : Word) :
    (s.ctrlWritten new).cpuInts = s.cpuInts + (if new.getLsbD 1 then 1 else 0) := by
  simp only [State.ctrlWritten, State.storeCtrl]
  cases new.getLsbD 1 <;> rfl

theorem keepsSpecial_ctrlWritten (s : State) (new : Word) :
    KeepsSpecial { s with ctrl := (s.ctrlWritten new).ctrl, cpuInts := (s.ctrlWritten new).cpuInts }
      (s.ctrlWritten new) := by
  simp [KeepsSpecial, State.ctrlWritten]

/-- Settles O46: the word that is stored, bit by bit, and the frame of the store. -/
theorem controlWordWrite : Obligations.ControlWordWrite := by
  intro s why v mask new hn hnew
  have hwrite := (ctrlWrite_masked why (if_pos hn) hnew).trans (ctrlWrite_ctrl why new hn)
  exact ⟨s.ctrlWritten new, hwrite, fun b _ => getLsbD_ctrl_ctrlWritten s new b, cpuInts_ctrlWritten s new,
    keepsRegs_of rfl rfl, rfl, rfl, fun _ => rfl, stored_ctrlWritten s new, keepsSpecial_ctrlWritten s new⟩

end Sys2Proof.Machine
end

section
/-! PROOFS. The family of spec/60_exceptions.md: when no level is taken and what the entry of one leaves (R325 to R331),
the lines (R323), and the return by a store to `FLAGS` and a `JUMP` (R335, R337, R239). -/

namespace Sys2Proof.Machine

/-! Checks and entries. -/

/-- Settles O47: then no level wins. -/
theorem noInterrupt : Obligations.NoInterrupt := fun _ _ h => checkIrqs_of_winner_none (winner_eq_none h)

/-- The state that an entry pushes from: `I` set, bank 0 active, the stack pointer moved (R328 to R330). -/
def State.entering (s : State) (why : Cause) : State :=
  (updateBanks why (s.setI true)).setReg .b0 31#5 (s.reg .b0 31#5 - 4#32)

section
variable (s : State) (why : Cause)

theorem cfg_entering : (s.entering why).cfg = s.cfg := (setReg_cfg ..).trans (updateBanks_cfg ..)

theorem required_setI : (s.setI true).required = .b0 := required_of_i _ (i_setI s true)

theorem cur_entering : (s.entering why).cur = .b0 := by
  rw [State.entering, setReg_cur, updateBanks_cur, required_setI]

theorem getLsbD_flags_entering (b : Nat) :
    (s.entering why).flags.getLsbD b = if b = 3 then true else s.flags.getLsbD b := by
  rw [State.entering, setReg_flags, updateBanks_flags]
  exact getLsbD_putBit s.flags 3 b true (by decide)

/-- The switch to bank 0, where there is one, marks the lag (R58). -/
theorem lagPending_entering : (s.entering why).lagPending =
    (s.lagPending || (decide (s.cur ≠ .b0) && (decide (why = .inStep) || s.cfg.lagOnExternalSwap))) := by
  have hlag := updateBanks_lagPending why (s.setI true)
  rw [required_setI, decide_eq_decide.2 ne_comm] at hlag
  rw [State.entering, setReg_lagPending]
  exact hlag

theorem reg_entering (b : Bank) (r : Reg) :
    (s.entering why).reg b r = if b = .b0 ∧ r = 31#5 then s.reg .b0 31#5 - 4#32 else s.reg b r := by
  rw [State.entering, reg_setReg, reg_updateBanks]
  rfl

theorem keepsMem_entering : KeepsMem s (s.entering why) :=
  keepsMem_of ((setReg_mem ..).trans (updateBanks_mem ..)) ((setReg_stored ..).trans (updateBanks_stored ..))

theorem keepsSpecial_entering :
    KeepsSpecial { s with cur := .b0, lagPending := (s.entering why).lagPending } (s.entering why) := by
  simp only [KeepsSpecial, cur_entering]
  simp [State.entering]

end

/-- Settles O48: the winner is entered, and the push from the state above is a long write by its cases. -/
theorem interruptEntry : Obligations.InterruptEntry := by
  rintro s why k _ hi hn h6 hlatch heint hhigher rfl
  have hwin : s.winner = some k := winner_eq_some hi hn h6 hlatch heint hhigher
  have hcheck : checkIrqs why s =
      andThen (writeLongWith (checkIrqs why) why (s.reg .b0 31#5 - 4#32) (s.pc - 2#32) (s.entering why))
        fun t => .next { t with pc := s.cfg.vectorBase + BitVec.ofNat 32 (16 * k) } := checkIrqs_enters hwin
  have hcfg : (s.entering why).cfg = s.cfg := cfg_entering s why
  refine ⟨s.entering why, getLsbD_flags_entering s why, cur_entering s why, lagPending_entering s why,
    reg_setReg_same .., fun b r hr => (reg_entering s why b r).trans (if_neg hr),
    (setReg_pc ..).trans (updateBanks_pc ..), keepsMem_entering s why, keepsSpecial_entering s why, fun hplain => ?plain,
    fun j hreach => ?ctrl, fun hmis => ?misaligned⟩
  case plain => exact ⟨_, storesLong_poke _ _ _, checkIrqs_takes hwin hplain⟩
  case ctrl =>
    have hindex : (s.entering why).ctrlIndex (s.reg .b0 31#5 - 4#32) = some j :=
      ctrlIndex_reaches ((reachesCtrl_congr hcfg).2 hreach)
    obtain ⟨-, -, haligned, -⟩ := hreach
    rw [hcheck, writeLongWith_ctrl ((misaligned_long _).2 haligned) hindex]
    rfl
  case misaligned =>
    rw [hcheck, writeLongWith, if_pos ((misaligned_long_true _).2 hmis), andThen_refused]

/-! Lines. -/

theorem latchBit_lt (k : Nat) : latchBit k < 32 := by unfold latchBit; split <;> omega

theorem getLsbD_ctrl_setLatch (s : State) (k : Nat) (f : Bool) (b : Nat) :
    (s.setLatch k f).ctrl.getLsbD b = if b = latchBit k then f else s.ctrl.getLsbD b :=
  getLsbD_putBit _ _ _ _ (latchBit_lt k)

theorem setLine_of_lt {s : State} {k : Nat} (hn : k < s.cfg.nlevels) (h6 : k < 6) (assert : Bool) :
    setLine k assert s = if assert then checkIrqs .between (s.setLatch k true) else .next (s.setLatch k false) :=
  if_neg (by omega)

/-- Settles O49: both states of the line write the latch, and the asserted one is then checked. -/
theorem interruptLine : Obligations.InterruptLine := by
  intro s k
  refine ⟨fun hn h6 => ⟨s.setLatch k true, s.setLatch k false, setLine_of_lt hn h6 true, setLine_of_lt hn h6 false,
    fun b _ => ?set, fun b _ => ?cleared, fun t ht => ?frame⟩, fun hn b => if_pos (.inl hn)⟩
  case set =>
    change _ = (decide (b = latchBit k) || s.ctrl.getLsbD b)
    rw [getLsbD_ctrl_setLatch]
    by_cases hb : b = latchBit k <;> simp [hb]
  case cleared =>
    change _ = (!decide (b = latchBit k) && s.ctrl.getLsbD b)
    rw [getLsbD_ctrl_setLatch]
    by_cases hb : b = latchBit k <;> simp [hb]
  case frame =>
    obtain rfl | rfl := ht <;>
      exact ⟨keepsRegs_of rfl rfl, rfl, rfl, keepsMem_of rfl rfl, by simp [KeepsSpecial, State.setLatch]⟩

/-! The return. -/

/-- A fetch sees the memory, the stored-to bytes and the configuration alone (R74, R90). -/
theorem fetchWord_of_keepsMem {s t : State} (hcfg : t.cfg = s.cfg) (hmem : KeepsMem s t) (a : Word) :
    t.fetchWord a = s.fetchWord a := by
  obtain ⟨hbytes, hstored⟩ := hmem
  simp only [State.fetchWord, State.memHalf, hcfg, hbytes, hstored]

/-- The `JUMP` that follows a switch at once reads the registers that were active before it (R57, R239). -/
theorem jump_register_after_switch {s : State} (hlag : s.lagPending = false) (r : Reg) :
    (if (updateBanks .inStep s).lagPending then (updateBanks .inStep s).alt r else (updateBanks .inStep s).x r) =
      s.x r := by
  by_cases hreq : s.required = s.cur
  · rw [updateBanks, if_pos hreq, hlag, if_neg Bool.false_ne_true]
  · have hmarked : (updateBanks .inStep s).lagPending = true := by simp [updateBanks_lagPending, hreq]
    obtain ⟨-, halt⟩ := x_alt_exchanged (t := updateBanks .inStep s) (reg_updateBanks s .inStep)
      ((updateBanks_cur s .inStep).trans_ne hreq) r
    rw [if_pos hmarked, halt]

section
variable {s : State} {new : Word} {k : Nat}

/-- The strobe of a level that the variant has takes its latch back (R290). -/
theorem latch_storeFlags_acknowledged (hk : k < 6) (hdsp : k = 5 → s.cfg.variant = .dsp)
    (hack : new.getLsbD (iackBit k) = true) : (s.storeFlags new).latch k = false := by
  refine (getLsbD_ctrl_acknowledge _ new (latchBit_lt k)).trans ?_
  by_cases h5 : k < 5
  · rw [iackBit, if_pos h5, show 9 + k = 6 + k + 3 by omega] at hack
    rw [latchBit, if_pos h5, if_pos (by omega), hack, Bool.not_true, Bool.and_false]
  · obtain rfl : k = 5 := by omega
    have hack17 : new.getLsbD 17 = true := hack
    have hlow : ¬ (6 ≤ latchBit 5 ∧ latchBit 5 ≤ 10) := by decide
    have hfive : latchBit 5 = 16 ∧ s.cfg.variant = .dsp := ⟨rfl, hdsp rfl⟩
    rw [if_neg hlow, hack17, Bool.not_true, Bool.and_false]
    exact if_pos hfive

/-- A write of `FLAGS` sets no latch (R290). -/
theorem latch_of_latch_storeFlags (h : (s.storeFlags new).latch k = true) : s.latch k = true := by
  simp only [State.latch, State.storeFlags, State.acknowledge, BitVec.getLsbD_and, Bool.and_eq_true] at h
  obtain ⟨⟨hlatch, -⟩, -⟩ := h
  exact hlatch

/-- A write of `FLAGS` enables no level whose bit it has at 0 (R289). -/
theorem enabled_of_eint_storeFlags (h : (s.storeFlags new).eint k = true) : new.getLsbD (eintBit k) = true := by
  have hbit : eintBit k < 32 := by unfold eintBit; split <;> omega
  have hne : eintBit k ≠ 3 := by unfold eintBit; split <;> omega
  have hstored : (storedFlags s.cfg.variant s.flags new).getLsbD (eintBit k) = true := h
  rw [getLsbD_storedFlags _ _ _ hbit, if_neg hne] at hstored
  split at hstored
  · exact hstored
  · cases hstored

/-- After a write of `FLAGS` that acknowledges level `k` and enables no other latched level, none is taken (R327). -/
theorem winner_storeFlags_eq_none (hk : k < 6) (hdsp : k = 5 → s.cfg.variant = .dsp)
    (hack : new.getLsbD (iackBit k) = true) (hothers : ∀ j, j < s.cfg.nlevels → j < 6 → j ≠ k →
      ¬ (s.latch j = true ∧ new.getLsbD (eintBit j) = true)) :
    (s.storeFlags new).winner = none := by
  refine winner_eq_none (.inr fun j hn h6 hpending => ?_)
  obtain ⟨hlatch, heint⟩ := hpending
  by_cases hj : j = k
  · subst hj
    exact absurd hlatch (by simp [latch_storeFlags_acknowledged hk hdsp hack])
  · exact hothers j hn h6 hj ⟨latch_of_latch_storeFlags hlatch, enabled_of_eint_storeFlags heint⟩

end

/-- What `FLAGS` and `CTRL` say of interrupts is blind to the bank (R327). -/
theorem winner_updateBanks (why : Cause) (s : State) : (updateBanks why s).winner = s.winner := by
  have hpending : (updateBanks why s).pending = s.pending := by
    funext k
    simp only [State.pending, State.latch, State.eint, updateBanks_cfg, updateBanks_ctrl, updateBanks_flags]
  rw [State.winner, State.winner, hpending, i_congr (updateBanks_flags s why)]

/-- The state after the step of a handler's store of `new` to `FLAGS`, where no level is then taken (R335). -/
def State.returning (s : State) (new : Word) : State := updateBanks .inStep ((Begun s).storeFlags new)

section
variable {s : State} {new : Word}

theorem step_of_flagsStore {rs rd : Reg} (hrun : AboutToRun s) (hreach : ReachesCtrl s (s.x rs) 0)
    (hw : s.fetchWord s.pc = .ok (opWord 47#6 rs rd)) (hnone : (s.returning (s.x rd)).winner = none) :
    step s = .next (s.returning (s.x rd)) := by
  have hstep : step s = andThen (exec (.store rs rd) (Begun s)) (runSlot exec) :=
    step_of_word hrun hw (by rw [opcOf_opWord]; decide) (decodeWord_opWord ..)
  have hexec : exec (.store rs rd) (Begun s) = checkIrqs .inStep (s.returning (s.x rd)) := by
    have ⟨_, hn, _⟩ := hreach
    calc exec (.store rs rd) (Begun s) = writeLong (s.x rs) (s.x rd) (Begun s) := rfl
      _ = ctrlWrite .inStep 0 (s.x rd) 0xFFFFFFFF#32 (Begun s) := writeLong_reaches (s := Begun s) hreach
      _ = checkIrqs .inStep (s.returning (s.x rd)) := ctrlWrite_flags (s := Begun s) .inStep (s.x rd) hn
  obtain ⟨-, -, -, hidle⟩ := hrun
  have hdelay : (s.returning (s.x rd)).delay = .idle := (updateBanks_delay ..).trans hidle
  rw [hstep, hexec, checkIrqs_of_winner_none hnone, andThen_next, runSlot_idle hdelay]

theorem aboutToRun_returning (hrun : AboutToRun s) (hnone : (s.returning new).winner = none) :
    AboutToRun (s.returning new) := by
  obtain ⟨hr, hagenda, -, hidle⟩ := hrun
  refine ⟨?_, (updateBanks_agenda ..).trans hagenda, hnone, (updateBanks_delay ..).trans hidle⟩
  rw [State.run, State.returning, updateBanks_ctrl]
  exact (getLsbD_ctrl_acknowledge _ new (by decide)).trans hr

theorem fetchWord_returning (a : Word) : (s.returning new).fetchWord a = s.fetchWord a :=
  fetchWord_of_keepsMem (updateBanks_cfg ..) (keepsMem_storeFlags .inStep new (Begun s)) a

theorem getLsbD_flags_returning {b : Nat} (hb : b < 32) : (s.returning new).flags.getLsbD b =
    if b = 3 then new.getLsbD 3 && s.flags.getLsbD 3
      else if b < 9 ∨ b = 14 ∨ (b = 16 ∧ s.cfg.variant = .dsp) then new.getLsbD b else false := by
  rw [State.returning, updateBanks_flags]
  exact getLsbD_storedFlags _ _ _ hb

theorem i_returning (hclear : new.getLsbD 3 = false) : (s.returning new).i = false := by
  rw [State.i, getLsbD_flags_returning (by decide), if_pos rfl, hclear, Bool.false_and]

/-- With `I` cleared the page bit of the written word selects the bank (R335). -/
theorem cur_returning (hclear : new.getLsbD 3 = false) :
    (s.returning new).cur = if new.getLsbD 14 then .b1 else .b0 := by
  have hpage : (s.returning new).rpage = new.getLsbD 14 := getLsbD_flags_returning (by decide)
  have hcur : (s.returning new).cur = (s.returning new).required :=
    (updateBanks_cur ..).trans (required_updateBanks ..).symm
  rw [hcur, State.required, i_returning hclear, hpage, if_neg Bool.false_ne_true]

/-- The handler's `JUMP` reads the handler's bank (R337, R239). -/
theorem jump_register_returning (hinv : Inv s) (hi : s.i = true) (r : Reg) :
    (if (s.returning new).lagPending then (s.returning new).alt r else (s.returning new).x r) = s.reg .b0 r := by
  obtain ⟨⟨-, -, -, hbank, -⟩, -⟩ := hinv
  have hcur : s.cur = .b0 := hbank.trans (required_of_i s hi)
  exact (jump_register_after_switch (s := (Begun s).storeFlags new) rfl r).trans (congrArg (s.reg · r) hcur)

end

/-- The state that the instruction in the slot of the handler's `JUMP` starts from (R335, R238). -/
def State.returned (s : State) (new : Word) (rt : Reg) : State :=
  { Begun (s.returning new) with
    pc := s.reg .b0 rt, delay := .executing, cycles := (s.returning new).cycles + 4 }

/-- After the store the `JUMP` is a taken branch like any other (R238). -/
theorem step_returning {s : State} {new : Word} {rt : Reg} {d : Half} {i : Instr} (hrun : AboutToRun (s.returning new))
    (htarget : s.reg .b0 rt =
      if (s.returning new).lagPending then (s.returning new).alt rt else (s.returning new).x rt)
    (hjump : s.fetchWord (s.pc + 2#32) = .ok (opWord 52#6 rt 0#5)) (hslot : s.fetchWord (s.pc + 4#32) = .ok d)
    (hdecode : decodeWord s.cfg.variant d 0#32 = .ok i) :
    step (s.returning new) = andThen (exec i (s.returned new rt)) fun t => .next { t with delay := .idle } := by
  have hpc : (s.returning new).pc = s.pc + 2#32 := updateBanks_pc ..
  have hcfg : (s.returning new).cfg = s.cfg := updateBanks_cfg ..
  have hcond : (s.returning new).cond 0#5 = true := by simp [State.cond]
  rw [← fetchWord_returning (new := new)] at hjump hslot
  refine delaySlot (s.returning new) rt 0#5 _ d i _ hrun (hpc ▸ hjump) ?_ hcond (hcfg ▸ hdecode) (.inl ⟨rfl, htarget⟩)
  rw [hpc, BitVec.add_assoc]
  exact hslot

/-- Settles O51: the store's step leaves `State.returning`, and the slot of the `JUMP` starts from `State.returned`. -/
theorem returnFromInterrupt : Obligations.ReturnFromInterrupt := by
  intro s rs rd rt k d i hrun hinv hi hreach hk hdsp hclear hack hothers hstore hjump hslot hdecode
  have hwin : (s.returning (s.x rd)).winner = none :=
    (winner_updateBanks ..).trans (winner_storeFlags_eq_none (s := Begun s) hk hdsp hack hothers)
  have hstep : step (s.returning (s.x rd)) =
      andThen (exec i (s.returned (s.x rd) rt)) fun t => .next { t with delay := .idle } :=
    step_returning (aboutToRun_returning hrun hwin) (jump_register_returning hinv hi rt).symm hjump hslot hdecode
  refine ⟨s.returning (s.x rd), s.returned (s.x rd) rt, step_of_flagsStore hrun hreach hstore hwin, hstep, rfl, rfl,
    cur_returning hclear, i_returning hclear, ?latch, fun b hb => ?flags,
    keepsRegs_storeFlags .inStep (s.x rd) (Begun s), keepsMem_storeFlags .inStep (s.x rd) (Begun s), ?nop⟩
  case latch =>
    exact (congrArg (BitVec.getLsbD · (latchBit k)) (updateBanks_ctrl ..)).trans
      (latch_storeFlags_acknowledged (s := Begun s) hk hdsp hack)
  case flags =>
    refine (getLsbD_flags_returning (s := s) (new := s.x rd) (by omega)).trans ?_
    rw [if_neg (by omega), if_pos (by omega)]
  case nop => rintro rfl; exact hstep

end Sys2Proof.Machine
end

section
/-! PROOFS. The family of spec/70_reset_and_hazards.md: the start from outside (R362). -/

namespace Sys2Proof.Machine

/-- With no level latched none is taken (R327). -/
theorem winner_of_no_latch {s : State} (h : ∀ k, s.latch k = false) : s.winner = none :=
  winner_eq_none (.inr fun k _ _ ⟨hlatch, _⟩ => absurd hlatch (by simp [h k]))

/-- The word 1, which starts the core, has no strobe and no latch. -/
theorem latch_ctrlWritten_one (s : State) (k : Nat) : (s.ctrlWritten 1#32).latch k = false := by
  have hctrl : (s.ctrlWritten 1#32).ctrl = 1#32 := rfl
  have hbit : latchBit k ≠ 0 := by unfold latchBit; split <;> omega
  rw [State.latch, hctrl, BitVec.getLsbD_one, decide_eq_false hbit, Bool.and_false]

section
variable {s : State} {rest : List Turn}

theorem step_of_pcWrite {entry : Word} (hn : 4 < s.cfg.nctrl)
    (ha : s.agenda = .event (.ctrlWrite 4 entry 0xFFFFFFFF#32) :: rest) :
    step s = .next { s with agenda := rest, pc := BitVec.ofNat 32 (entry.toNat % 2 ^ 24) } :=
  (step_of_event ha).trans (ctrlWrite_pc (s := { s with agenda := rest }) .between entry hn)

theorem step_of_start (hn : 5 < s.cfg.nctrl) (ha : s.agenda = .event (.ctrlWrite 5 1#32 0xFFFFFFFF#32) :: rest) :
    step s = .next (State.ctrlWritten { s with agenda := rest } 1#32) :=
  (step_of_event ha).trans (ctrlWrite_ctrl (s := { s with agenda := rest }) .between 1#32 hn)

end

/-- Settles O12: the events are whole writes of `PC` and of `CTRL`, and after them no level is latched. -/
theorem startFromOutside : Obligations.StartFromOutside := by
  intro s entry hn hdelay hagenda
  refine ⟨_, _, step_of_pcWrite (Nat.lt_of_succ_lt hn) hagenda, step_of_start hn rfl, ?entry,
    ⟨?run, rfl, winner_of_no_latch (latch_ctrlWritten_one _), hdelay⟩, rfl, keepsRegs_of rfl rfl, fun _ => rfl,
    ?stored, keepsSpecial_ctrlWritten { s with agenda := [] } 1#32⟩
  case entry => exact Nat.mod_eq_of_lt (by omega)
  case run => exact getLsbD_ctrl_ctrlWritten _ 1#32 0
  case stored => exact (stored_ctrlWritten _ 1#32).trans (by simp [State.run])

end Sys2Proof.Machine
end
